-- ==== Sys2Proof/Word.lean ====
section
/-! DEFINITION. The bit-vector types of the block (spec/00_scope.md R8, R10). -/

namespace Sys2Proof

/-- One byte on the wire or in a buffer. -/
abbrev Byte := BitVec 8

/-- A 32-bit register value (REG_BITS, R8). -/
abbrev Word := BitVec 32

/-- A 12-bit chip byte address (ADDR_BITS, R8; R50). -/
abbrev Addr := BitVec 12

/-- A 4-bit opcode (OPCODE_BITS, R8). -/
abbrev Opcode := BitVec 4

/-- `Result T E` of R13: an operation's outcome, which its caller must look at. -/
inductive Result (ε α : Type) where
  | ok (a : α)
  | err (e : ε)
  deriving DecidableEq, Repr

end Sys2Proof
end

