-- ==== Sys2Proof/Config.lean ====
section
/-! DEFINITION. What an implementation fixes (the parameters of spec/00_scope.md R9) and the free values.

The parameters are one plain record, `Params`, which State holds and no step changes: R9 says "The model takes each one as an
argument", so a statement about every state is a statement about every choice of them. Their defaults, and the
tables SFR_ADDR and REG_LAYOUT are made of, are in Machine/Defaults.lean. A free value is an opaque constant with no body. -/

namespace Sys2Proof

/-! ### Names of registers and fields -/

/-- SFRAddress (R51): one name for each special function register of the table of R60. `fifoCon n`, `fifoSta n` and
`fifoUa n` name the registers of the FIFO with index n+1 (R61: indices 1..31). The row 0x04C "reserved" names no register. -/
inductive Sfr where
  | c1con | c1nbtcfg | c1dbtcfg | c1tdc | c1tbc | c1tscon | c1vec | c1int | c1rxif | c1txif | c1rxovif | c1txatif
  | c1txreq | c1trec | c1bdiag0 | c1bdiag1 | c1tefcon | c1tefsta | c1tefua | c1txqcon | c1txqsta | c1txqua
  | fifoCon (n : Fin 31) | fifoSta (n : Fin 31) | fifoUa (n : Fin 31)
  | c1fltcon (k : Fin 8) | c1fltobj (m : Fin 32) | c1mask (m : Fin 32)
  | osc | iocon | crc | ecccon | eccstat | devid
  deriving DecidableEq, Repr

/-- The register word types of R31, and C1TEFCON, whose layout R222 gives for reference (the block reaches it as an
untyped word; no operation of the model types it). -/
inductive RegType where
  | chipControl | txQueueControl | oscillator | ioConfiguration | fifoControl | fifoStatus | fifoUserAddress
  | tefControl
  deriving DecidableEq, Repr

/-- A register word: "Every register type wraps one 32-bit word", each type a distinct type (R31, R200). `⟨w⟩` is
`T.mk(w)` and `.bits` unwraps it. Every one of the 2^32 values is legal (R32). -/
structure RegWord (T : RegType) where
  bits : Word
  deriving DecidableEq, Repr

/-- The named fields of each register word type: tables of R206, R210, R216, R218, R219, R220, R221, R222. A row the
tables mark U (unimplemented) is no field (R225). -/
inductive RegField : RegType → Type where
  | chip_TXBWS : RegField .chipControl
  | chip_ABAT : RegField .chipControl
  | chip_REQOP : RegField .chipControl
  | chip_OPMOD : RegField .chipControl
  | chip_TXQEN : RegField .chipControl
  | chip_STEF : RegField .chipControl
  | chip_SERR2LOM : RegField .chipControl
  | chip_ESIGM : RegField .chipControl
  | chip_RTXAT : RegField .chipControl
  | chip_BRSDIS : RegField .chipControl
  | chip_BUSY : RegField .chipControl
  | chip_WFT : RegField .chipControl
  | chip_WAKFIL : RegField .chipControl
  | chip_PXEDIS : RegField .chipControl
  | chip_ISOCRCEN : RegField .chipControl
  | chip_DNCNT : RegField .chipControl
  | txq_PLSIZE : RegField .txQueueControl
  | txq_FSIZE : RegField .txQueueControl
  | txq_TXAT : RegField .txQueueControl
  | txq_TXPRI : RegField .txQueueControl
  | txq_FRESET : RegField .txQueueControl
  | txq_TXREQ : RegField .txQueueControl
  | txq_UINC : RegField .txQueueControl
  | txq_TXEN : RegField .txQueueControl
  | txq_TXATIE : RegField .txQueueControl
  | txq_TXQEIE : RegField .txQueueControl
  | txq_TXQNIE : RegField .txQueueControl
  | osc_SCLKRDY : RegField .oscillator
  | osc_OSCRDY : RegField .oscillator
  | osc_PLLRDY : RegField .oscillator
  | osc_CLKODIV : RegField .oscillator
  | osc_SCLKDIV : RegField .oscillator
  | osc_LPMEN : RegField .oscillator
  | osc_OSCDIS : RegField .oscillator
  | osc_PLLEN : RegField .oscillator
  | io_INTOD : RegField .ioConfiguration
  | io_SOF : RegField .ioConfiguration
  | io_TXCANOD : RegField .ioConfiguration
  | io_PM1 : RegField .ioConfiguration
  | io_PM0 : RegField .ioConfiguration
  | io_GPIO1 : RegField .ioConfiguration
  | io_GPIO0 : RegField .ioConfiguration
  | io_LAT1 : RegField .ioConfiguration
  | io_LAT0 : RegField .ioConfiguration
  | io_XSTBYEN : RegField .ioConfiguration
  | io_TRIS1 : RegField .ioConfiguration
  | io_TRIS0 : RegField .ioConfiguration
  | fifo_PLSIZE : RegField .fifoControl
  | fifo_FSIZE : RegField .fifoControl
  | fifo_TXAT : RegField .fifoControl
  | fifo_TXPRI : RegField .fifoControl
  | fifo_FRESET : RegField .fifoControl
  | fifo_TXREQ : RegField .fifoControl
  | fifo_UINC : RegField .fifoControl
  | fifo_TXEN : RegField .fifoControl
  | fifo_RTREN : RegField .fifoControl
  | fifo_RXTSEN : RegField .fifoControl
  | fifo_TXATIE : RegField .fifoControl
  | fifo_RXOVIE : RegField .fifoControl
  | fifo_TFERFFIE : RegField .fifoControl
  | fifo_TFHRFHIE : RegField .fifoControl
  | fifo_TFNRFNIE : RegField .fifoControl
  | sta_FIFOCI : RegField .fifoStatus
  | sta_TXABT : RegField .fifoStatus
  | sta_TXLARB : RegField .fifoStatus
  | sta_TXERR : RegField .fifoStatus
  | sta_TXATIF : RegField .fifoStatus
  | sta_RXOVIF : RegField .fifoStatus
  | sta_TFERFFIF : RegField .fifoStatus
  | sta_TFHRFHIF : RegField .fifoStatus
  | sta_TFNRFNIF : RegField .fifoStatus
  | ua_FIFOUA : RegField .fifoUserAddress
  | tef_FSIZE : RegField .tefControl
  | tef_FRESET : RegField .tefControl
  | tef_UINC : RegField .tefControl
  | tef_TEFTSEN : RegField .tefControl
  | tef_TEFOVIE : RegField .tefControl
  | tef_TEFFIE : RegField .tefControl
  | tef_TEFHIE : RegField .tefControl
  | tef_TEFNEIE : RegField .tefControl
  deriving DecidableEq, Repr

/-- The two kinds of message header (R33, R260). -/
inductive HdrKind where
  | tx | rx
  deriving DecidableEq, Repr

/-- How many 32-bit words a header has (R260): 8 bytes for TX, 12 for RX. -/
def HdrKind.words : HdrKind → Nat
  | .tx => 2
  | .rx => 3

/-- The fields of a header (R263 to R266). SID11 and the reserved bits are no fields (R275). -/
inductive HField : HdrKind → Type where
  | sid {k : HdrKind} : HField k
  | eid {k : HdrKind} : HField k
  | esi {k : HdrKind} : HField k
  | fdf {k : HdrKind} : HField k
  | brs {k : HdrKind} : HField k
  | rtr {k : HdrKind} : HField k
  | ide {k : HdrKind} : HField k
  | dlc {k : HdrKind} : HField k
  | seq : HField .tx
  | filhit : HField .rx
  | timestamp : HField .rx
  deriving DecidableEq, Repr

/-! ### Symbolic variants of the enumerated fields (R204) -/

/-- Operating mode (R207). The fallback `Unknown` has no code and no place here: it cannot be set (R223). -/
inductive OpMode where
  | normalFD | sleep | internalLoopback | listenOnly | configuration | externalLoopback | normal2_0 | restricted
  deriving DecidableEq, Repr

/-- What the operating-mode getter gives: a mode, or the fallback `Unknown` (R207). -/
inductive OpModeReading where
  | mode (m : OpMode)
  | unknown
  deriving DecidableEq, Repr

/-- Wakeup filter time (R208). -/
inductive WakeFilter where
  | t00Filter | t01Filter | t10Filter | t11Filter
  deriving DecidableEq, Repr, Inhabited

/-- Inter-transmission delay (R209). -/
inductive TxDelay where
  | noDelay | delay2 | delay4 | delay8 | delay16 | delay32 | delay64 | delay128 | delay256 | delay512 | delay1024
  | delay2048 | delay4096
  deriving DecidableEq, Repr

/-- Retransmission attempts (R211). -/
inductive Retransmission where
  | disabled | threeRetries | unlimitedRetries
  deriving DecidableEq, Repr

/-- Payload size in bytes (R212). -/
inductive PayloadSize where
  | bytes8 | bytes12 | bytes16 | bytes20 | bytes24 | bytes32 | bytes48 | bytes64
  deriving DecidableEq, Repr

/-- Clock-output divisor (R217). -/
inductive ClockOut where
  | div1 | div2 | div4 | div10
  deriving DecidableEq, Repr, Inhabited

/-- The externally owned bus and chip-select pin handles (R39, R160), as the host's numbers for them (log 15). -/
structure Handles where
  bus : Nat
  pin : Nat
  deriving DecidableEq, Repr

/-! ### The parameters of R9 -/

/-- SFR_OPCODES (R102): which opcode pair an SFR access uses. -/
inductive SfrOpcodes where
  | combined | registerOnly
  deriving DecidableEq, Repr

/-- An electrical level (CS_ACTIVE_LEVEL, R24). -/
inductive Volts where
  | low | high
  deriving DecidableEq, Repr

/-- HOST_ENDIAN (R57). -/
inductive Endian where
  | little | big
  deriving DecidableEq, Repr

/-- RAM_BOUND_RULE (R64; 90_conflicts.md C1). -/
inductive RamBoundRule where
  | endInclusiveOfBFE | endInclusiveOfBFF
  deriving DecidableEq, Repr

/-- TXAT_UNLIMITED_CODE (R211): 0b10 or 0b11. -/
inductive UnlimitedCode where
  | two | three
  deriving DecidableEq, Repr

/-- SEQ_BITS (R272): 7, or 23 on the MCP2518FD. -/
inductive SeqBits where
  | seven | twentyThree
  deriving DecidableEq, Repr

/-- CLOCK_DIVIDER_FIELD (R216, 92 D56). -/
inductive ClockDivider where
  | sclkdiv | clkodiv
  deriving DecidableEq, Repr

/-- One row of REG_LAYOUT, field → (hi, lo) (R9), that replaces the default. -/
structure FieldPlace where
  reg : RegType
  field : RegField reg
  hi : Nat
  lo : Nat
  deriving DecidableEq, Repr

/-- One row of the header layout, field → (word, low bit), that replaces the default (92 D25, 93 G29). Widths are the source's. -/
structure HFieldPlace where
  kind : HdrKind
  field : HField kind
  word : Nat
  lo : Nat
  deriving DecidableEq, Repr

/-- The parameters the source leaves open, R9. `sfrAddr`, `regLayout` and `hdrLayout` list the rows in which SFR_ADDR,
REG_LAYOUT and the header layout differ from their default tables (Machine/Defaults.lean); empty lists are the default. The
code tables of the enumerated fields belong to REG_LAYOUT ("Every bit position, code table and access right ... form the
default of parameter REG_LAYOUT", the warning that opens file 42): `opmodeCode` to `clkodivCode` list the variants whose code differs
(log 34). `txatUnlimited` gives the code of `UnlimitedRetries` (R211), and a row of `txatCode` for it is not used. -/
structure Params where
  opReset : Opcode
  opRead : Opcode
  opWrite : Opcode
  opReadSfr : Opcode
  opWriteSfr : Opcode
  sfrOpcodes : SfrOpcodes
  csActive : Volts
  hostEndian : Endian
  ramBound : RamBoundRule
  sfrAddr : List (Sfr × Addr)
  regLayout : List FieldPlace
  opmodeCode : List (OpMode × Nat)
  wftCode : List (WakeFilter × Nat)
  txbwsCode : List (TxDelay × Nat)
  txatCode : List (Retransmission × Nat)
  plsizeCode : List (PayloadSize × Nat)
  clkodivCode : List (ClockOut × Nat)
  hdrLayout : List HFieldPlace
  opmodeMapped : List (BitVec 3)
  plsizeMapped : List (BitVec 3)
  txatUnlimited : UnlimitedCode
  seqBits : SeqBits
  tefReconcileBit : Option (Fin 32)
  clockDivider : ClockDivider
  deriving DecidableEq, Repr

/-- SEQ_BITS as a number. -/
abbrev SeqBits.bits : SeqBits → Nat
  | .seven => 7
  | .twentyThree => 23

/-- The width of a header field (R263 to R266); SEQ's is the parameter SEQ_BITS (R272). -/
abbrev HField.width (p : Params) : {k : HdrKind} → HField k → Nat
  | _, .sid => 11
  | _, .eid => 18
  | _, .dlc => 4
  | _, .seq => p.seqBits.bits
  | _, .filhit => 5
  | _, .timestamp => 32
  | _, _ => 1

/-- "The five values must be pairwise distinct" (R92). -/
abbrev Params.OpcodesDistinct (p : Params) : Prop :=
  [p.opReset, p.opRead, p.opWrite, p.opReadSfr, p.opWriteSfr].Nodup

/-! ### Free values

Each is a constant with no body, so no proof can see what it is. `h` names the Controller, whose environment is its own (R39), and `d`
is the number of the draw (State's `draws`). -/

/-- Which of the 13 opcodes left by RESET, READ and WRITE the OPEN parameter OP_READ_SFR is, and which of the 12 then left
OP_WRITE_SFR is (R92, 92 D2; log 5). The limit the spec sets, pairwise distinct values, is kept. -/
opaque Config.freeSfrOpcodes : Fin 13 × Fin 12

/-- Whether the environment fails primitive call `d`, which sends `out` (R28; log 2). -/
opaque Config.freeFails : (h : Handles) → (d : Nat) → (out : List (BitVec 8)) → Bool

/-- The byte clocked in at position `k` of transfer `d`, which sends `out` (R26, R28; log 2). -/
opaque Config.freeByteIn : (h : Handles) → (d : Nat) → (out : List (BitVec 8)) → (k : Nat) → BitVec 8

/-- How many bytes of failed call `d`, which sent `out`, reached the wire (R25, R26; log 22). -/
opaque Config.freeReached : (h : Handles) → (d : Nat) → (out : List (BitVec 8)) → Nat

/-- Byte `k` of a `read_ram` buffer at `addr` whose transfer was draw `d` and failed (R166, 92 D64; log 16). -/
opaque Config.freeBufferByte : (h : Handles) → (d : Nat) → (addr : Nat) → (k : Nat) → BitVec 8

/-- The variant that code `c` reads as, where REG_LAYOUT gives `c` none of the variants of WFT or CLKODIV, for which the spec
names no fallback: their default tables leave no code out (R208, R217; log 37). -/
opaque Config.freeWakeFilter : (c : Nat) → WakeFilter
opaque Config.freeClockOut : (c : Nat) → ClockOut

end Sys2Proof
end

