-- ==== Sys2Proof/Syntax.lean ====
section
/-! DEFINITION. The instructions the block sends (spec/30_encoding.md R92, spec/40_spi_instructions.md) and the calls its host
makes (spec/30_encoding.md R101, spec/41_transactions.md, spec/47_host_sequencer.md). -/

namespace Sys2Proof

/-- The five SPI instructions, one constructor per row of spec/opcode_table.json, each with its operands (R131 to R135).
RESET keeps the address field of its word (R97 decodes Reset(a)); the block itself sends it as 0 (R95). -/
inductive Instr where
  | reset (a : Addr)
  | read (a : Addr) (n : Nat)
  | write (a : Addr) (payload : List Byte)
  | readSfr (a : Addr)
  | writeSfr (a : Addr) (v : Word)
  deriving DecidableEq, Repr

/-! ### The host's calls -/

/-- The fixed-address register word types a `modify_sfr` may name (R164, R176). -/
inductive FixedReg where
  | chipControl | txQueueControl | oscillator | ioConfiguration
  deriving DecidableEq, Repr

def FixedReg.reg : FixedReg → RegType
  | .chipControl => .chipControl
  | .txQueueControl => .txQueueControl
  | .oscillator => .oscillator
  | .ioConfiguration => .ioConfiguration

/-- The per-FIFO register word types (R169 to R175). -/
inductive FifoReg where
  | control | status | userAddress
  deriving DecidableEq, Repr

def FifoReg.reg : FifoReg → RegType
  | .control => .fifoControl
  | .status => .fifoStatus
  | .userAddress => .fifoUserAddress

/-- One setter of the codec, as data: a host's transform is a list of them, applied in order (log 18). The meanings take
any transform; only a call written out as data is limited to this list. `word` is `T.mk` of a word (R200), `field` is
`set_F` (R202) with a number that must fit the field, the next ones are the symbolic setters `set_sym_F` (R204) and the last two `set_fifo_size` (R213). -/
inductive Update : RegType → Type where
  | word {T : RegType} (w : Word) : Update T
  | field {T : RegType} (f : RegField T) (v : Nat) : Update T
  | reqop (m : OpMode) : Update .chipControl
  | opmod (m : OpMode) : Update .chipControl
  | wft (v : WakeFilter) : Update .chipControl
  | txbws (v : TxDelay) : Update .chipControl
  | clkodiv (v : ClockOut) : Update .oscillator
  | txqTxat (v : Retransmission) : Update .txQueueControl
  | txqPlsize (v : PayloadSize) : Update .txQueueControl
  | fifoTxat (v : Retransmission) : Update .fifoControl
  | fifoPlsize (v : PayloadSize) : Update .fifoControl
  | txqFifoSize (size : Nat) : Update .txQueueControl
  | fifoFifoSize (size : Nat) : Update .fifoControl
  deriving DecidableEq, Repr

/-- `Settings.osc` (R300). -/
structure OscSettings where
  pllEnable : Bool
  clockDivideBy2 : Bool
  deriving DecidableEq, Repr

/-- `Settings.io` (R300). -/
structure IoSettings where
  standbyEnable : Bool
  txcanOpenDrain : Bool
  intOpenDrain : Bool
  sofOnClko : Bool
  gpio0Mode : Bool
  gpio1Mode : Bool
  deriving DecidableEq, Repr

/-- `Settings.txq` (R300). -/
structure TxqSettings where
  retransmission : Retransmission
  priority : BitVec 5
  size : Nat
  payload : PayloadSize
  deriving DecidableEq, Repr

/-- `FifoConfig` (R300): carried in Settings, programmed by no step (R300, 92 D50). The source gives it no field; the
record holds what a host would keep of one FIFO's control register: its index and the word. -/
structure FifoConfig where
  index : Nat
  control : Word
  deriving DecidableEq, Repr

/-- Settings (R34, R300). -/
structure Settings where
  osc : OscSettings
  io : IoSettings
  txq : TxqSettings
  fifos : List FifoConfig
  deriving DecidableEq, Repr

/-- The operations of the block (R101 and 41_transactions.md), and `configure` (R302). `readRam` takes the caller's
buffer (R166). -/
inductive Call where
  | new (h : Handles)
  | free
  | resetChip
  | readSfr (r : Sfr)
  | writeSfr (r : Sfr) (v : Word)
  | modifySfr (r : FixedReg) (f : List (Update r.reg))
  | readRam (addr : Nat) (buf : List Byte)
  | writeRam (addr : Nat) (bytes : List Byte)
  | fifoAddress (k : FifoReg) (n : Nat)
  | readFifo (k : FifoReg) (n : Nat)
  | modifyFifo (k : FifoReg) (n : Nat) (f : List (Update k.reg))
  | enableTef (count : BitVec 4)
  | configure (settings : Settings)
  deriving DecidableEq, Repr

/-- What the host asks for next: one instruction, as the bytes of its frame (R96), or one operation, of the Controller in use;
or that the next ones be of the Controller on the given handles (R39: there may be several; log 35). -/
inductive Request where
  | frame (bytes : List Byte)
  | call (c : Call)
  | use (h : Handles)
  deriving DecidableEq, Repr

end Sys2Proof
end

