-- ==== Sys2Proof/Machine/Defaults.lean ====
section
/-! DEFINITION. The default values of the parameters of spec/00_scope.md R9: the SFR address table (spec/20_memory.md R60, R61),
the register field tables (spec/42_register_fields.md), the header layouts (spec/43_message_headers.md), and the look-ups
by which every operation reaches them. The spec marks these values as general knowledge: they are configuration. -/

namespace Sys2Proof

/-! ### SFR addresses -/

/-- The default SFR_ADDR: the table of R60, with the FIFO formulas of R61 (n here is the FIFO index less 1). -/
def Sfr.defaultAddr : Sfr → Addr
  | .c1con => 0x000
  | .c1nbtcfg => 0x004
  | .c1dbtcfg => 0x008
  | .c1tdc => 0x00C
  | .c1tbc => 0x010
  | .c1tscon => 0x014
  | .c1vec => 0x018
  | .c1int => 0x01C
  | .c1rxif => 0x020
  | .c1txif => 0x024
  | .c1rxovif => 0x028
  | .c1txatif => 0x02C
  | .c1txreq => 0x030
  | .c1trec => 0x034
  | .c1bdiag0 => 0x038
  | .c1bdiag1 => 0x03C
  | .c1tefcon => 0x040
  | .c1tefsta => 0x044
  | .c1tefua => 0x048
  | .c1txqcon => 0x050
  | .c1txqsta => 0x054
  | .c1txqua => 0x058
  | .fifoCon n => BitVec.ofNat 12 (0x050 + 12 * (n.val + 1))
  | .fifoSta n => BitVec.ofNat 12 (0x054 + 12 * (n.val + 1))
  | .fifoUa n => BitVec.ofNat 12 (0x058 + 12 * (n.val + 1))
  | .c1fltcon k => BitVec.ofNat 12 (0x1D0 + 4 * k.val)
  | .c1fltobj m => BitVec.ofNat 12 (0x1F0 + 8 * m.val)
  | .c1mask m => BitVec.ofNat 12 (0x1F4 + 8 * m.val)
  | .osc => 0xE00
  | .iocon => 0xE04
  | .crc => 0xE08
  | .ecccon => 0xE0C
  | .eccstat => 0xE10
  | .devid => 0xE14

/-- The registers below the FIFO registers, in the order of the table of R60. -/
def Sfr.low : List Sfr :=
  [.c1con, .c1nbtcfg, .c1dbtcfg, .c1tdc, .c1tbc, .c1tscon, .c1vec, .c1int, .c1rxif, .c1txif, .c1rxovif, .c1txatif,
    .c1txreq, .c1trec, .c1bdiag0, .c1bdiag1, .c1tefcon, .c1tefsta, .c1tefua, .c1txqcon, .c1txqsta, .c1txqua]

/-- The registers above the RAM window. -/
def Sfr.high : List Sfr := [.osc, .iocon, .crc, .ecccon, .eccstat, .devid]

/-- Every SFR of the table of R60. -/
def Sfr.all : List Sfr :=
  Sfr.low ++ (List.finRange 31).map Sfr.fifoCon ++ (List.finRange 31).map Sfr.fifoSta ++
    (List.finRange 31).map Sfr.fifoUa ++ (List.finRange 8).map Sfr.c1fltcon ++ (List.finRange 32).map Sfr.c1fltobj ++
    (List.finRange 32).map Sfr.c1mask ++ Sfr.high

/-- The SFR of a per-FIFO register word type for the FIFO with index `n + 1` (R61). -/
def FifoReg.sfr : FifoReg → Fin 31 → Sfr
  | .control, n => .fifoCon n
  | .status, n => .fifoSta n
  | .userAddress, n => .fifoUa n

/-- SFR_ADDR (R51, R60): the address of a register under the parameters. -/
def Params.sfrAddrOf (p : Params) (r : Sfr) : Addr := (p.sfrAddr.lookup r).getD r.defaultAddr

/-! ### Register fields -/

/-- The default low bit of a field: the bits column of the tables of R206, R210, R216, R218, R219, R220, R221, R222. -/
def RegField.defaultLo : {T : RegType} → RegField T → Nat
  | _, .chip_TXBWS => 28
  | _, .chip_ABAT => 27
  | _, .chip_REQOP => 24
  | _, .chip_OPMOD => 21
  | _, .chip_TXQEN => 20
  | _, .chip_STEF => 19
  | _, .chip_SERR2LOM => 18
  | _, .chip_ESIGM => 17
  | _, .chip_RTXAT => 16
  | _, .chip_BRSDIS => 12
  | _, .chip_BUSY => 11
  | _, .chip_WFT => 9
  | _, .chip_WAKFIL => 8
  | _, .chip_PXEDIS => 6
  | _, .chip_ISOCRCEN => 5
  | _, .chip_DNCNT => 0
  | _, .txq_PLSIZE => 29
  | _, .txq_FSIZE => 24
  | _, .txq_TXAT => 21
  | _, .txq_TXPRI => 16
  | _, .txq_FRESET => 10
  | _, .txq_TXREQ => 9
  | _, .txq_UINC => 8
  | _, .txq_TXEN => 7
  | _, .txq_TXATIE => 4
  | _, .txq_TXQEIE => 2
  | _, .txq_TXQNIE => 0
  | _, .osc_SCLKRDY => 12
  | _, .osc_OSCRDY => 10
  | _, .osc_PLLRDY => 8
  | _, .osc_CLKODIV => 5
  | _, .osc_SCLKDIV => 4
  | _, .osc_LPMEN => 3
  | _, .osc_OSCDIS => 2
  | _, .osc_PLLEN => 0
  | _, .io_INTOD => 30
  | _, .io_SOF => 29
  | _, .io_TXCANOD => 28
  | _, .io_PM1 => 25
  | _, .io_PM0 => 24
  | _, .io_GPIO1 => 17
  | _, .io_GPIO0 => 16
  | _, .io_LAT1 => 9
  | _, .io_LAT0 => 8
  | _, .io_XSTBYEN => 6
  | _, .io_TRIS1 => 1
  | _, .io_TRIS0 => 0
  | _, .fifo_PLSIZE => 29
  | _, .fifo_FSIZE => 24
  | _, .fifo_TXAT => 21
  | _, .fifo_TXPRI => 16
  | _, .fifo_FRESET => 10
  | _, .fifo_TXREQ => 9
  | _, .fifo_UINC => 8
  | _, .fifo_TXEN => 7
  | _, .fifo_RTREN => 6
  | _, .fifo_RXTSEN => 5
  | _, .fifo_TXATIE => 4
  | _, .fifo_RXOVIE => 3
  | _, .fifo_TFERFFIE => 2
  | _, .fifo_TFHRFHIE => 1
  | _, .fifo_TFNRFNIE => 0
  | _, .sta_FIFOCI => 8
  | _, .sta_TXABT => 7
  | _, .sta_TXLARB => 6
  | _, .sta_TXERR => 5
  | _, .sta_TXATIF => 4
  | _, .sta_RXOVIF => 3
  | _, .sta_TFERFFIF => 2
  | _, .sta_TFHRFHIF => 1
  | _, .sta_TFNRFNIF => 0
  | _, .ua_FIFOUA => 0
  | _, .tef_FSIZE => 24
  | _, .tef_FRESET => 10
  | _, .tef_UINC => 8
  | _, .tef_TEFTSEN => 5
  | _, .tef_TEFOVIE => 3
  | _, .tef_TEFFIE => 2
  | _, .tef_TEFHIE => 1
  | _, .tef_TEFNEIE => 0

/-- Every field of a register word type, from the top bit down. -/
def RegField.all : (T : RegType) → List (RegField T)
  | .chipControl =>
    [.chip_TXBWS, .chip_ABAT, .chip_REQOP, .chip_OPMOD, .chip_TXQEN, .chip_STEF, .chip_SERR2LOM, .chip_ESIGM,
      .chip_RTXAT, .chip_BRSDIS, .chip_BUSY, .chip_WFT, .chip_WAKFIL, .chip_PXEDIS, .chip_ISOCRCEN, .chip_DNCNT]
  | .txQueueControl =>
    [.txq_PLSIZE, .txq_FSIZE, .txq_TXAT, .txq_TXPRI, .txq_FRESET, .txq_TXREQ, .txq_UINC, .txq_TXEN, .txq_TXATIE,
      .txq_TXQEIE, .txq_TXQNIE]
  | .oscillator =>
    [.osc_SCLKRDY, .osc_OSCRDY, .osc_PLLRDY, .osc_CLKODIV, .osc_SCLKDIV, .osc_LPMEN, .osc_OSCDIS, .osc_PLLEN]
  | .ioConfiguration =>
    [.io_INTOD, .io_SOF, .io_TXCANOD, .io_PM1, .io_PM0, .io_GPIO1, .io_GPIO0, .io_LAT1, .io_LAT0, .io_XSTBYEN,
      .io_TRIS1, .io_TRIS0]
  | .fifoControl =>
    [.fifo_PLSIZE, .fifo_FSIZE, .fifo_TXAT, .fifo_TXPRI, .fifo_FRESET, .fifo_TXREQ, .fifo_UINC, .fifo_TXEN,
      .fifo_RTREN, .fifo_RXTSEN, .fifo_TXATIE, .fifo_RXOVIE, .fifo_TFERFFIE, .fifo_TFHRFHIE, .fifo_TFNRFNIE]
  | .fifoStatus =>
    [.sta_FIFOCI, .sta_TXABT, .sta_TXLARB, .sta_TXERR, .sta_TXATIF, .sta_RXOVIF, .sta_TFERFFIF, .sta_TFHRFHIF,
      .sta_TFNRFNIF]
  | .fifoUserAddress =>
    [.ua_FIFOUA]
  | .tefControl =>
    [.tef_FSIZE, .tef_FRESET, .tef_UINC, .tef_TEFTSEN, .tef_TEFOVIE, .tef_TEFFIE, .tef_TEFHIE, .tef_TEFNEIE]

/-- The default width of a field: the width column of the tables. -/
def RegField.defaultWidth : {T : RegType} → RegField T → Nat
  | _, .chip_TXBWS => 4
  | _, .chip_REQOP => 3
  | _, .chip_OPMOD => 3
  | _, .chip_WFT => 2
  | _, .chip_DNCNT => 5
  | _, .txq_PLSIZE => 3
  | _, .txq_FSIZE => 5
  | _, .txq_TXAT => 2
  | _, .txq_TXPRI => 5
  | _, .osc_CLKODIV => 2
  | _, .fifo_PLSIZE => 3
  | _, .fifo_FSIZE => 5
  | _, .fifo_TXAT => 2
  | _, .fifo_TXPRI => 5
  | _, .sta_FIFOCI => 5
  | _, .ua_FIFOUA => 32
  | _, .tef_FSIZE => 5
  | _, _ => 1

/-- The row of REG_LAYOUT for a field: (hi, lo). -/
def RegField.place (p : Params) {T : RegType} (f : RegField T) : Nat × Nat :=
  ((p.regLayout.find? fun e => decide ((⟨e.reg, e.field⟩ : (T : RegType) × RegField T) = ⟨T, f⟩)).map
    fun e => (e.hi, e.lo)).getD (f.defaultLo + (f.defaultWidth - 1), f.defaultLo)

/-- The high and the low bit of a field under REG_LAYOUT. -/
def RegField.hi (p : Params) {T : RegType} (f : RegField T) : Nat := (f.place p).1
def RegField.lo (p : Params) {T : RegType} (f : RegField T) : Nat := (f.place p).2

/-- The width of a field, `n = hi − lo + 1` (R201). -/
def RegField.width (p : Params) {T : RegType} (f : RegField T) : Nat := f.hi p - f.lo p + 1

/-! ### Code tables of the enumerated fields (part of REG_LAYOUT; log 34) -/

/-- The default codes of the operating mode (R207). -/
def OpMode.defaultCode : OpMode → Nat
  | .normalFD => 0b000
  | .sleep => 0b001
  | .internalLoopback => 0b010
  | .listenOnly => 0b011
  | .configuration => 0b100
  | .externalLoopback => 0b101
  | .normal2_0 => 0b110
  | .restricted => 0b111

/-- The default codes of the wakeup filter time (R208). -/
def WakeFilter.defaultCode : WakeFilter → Nat
  | .t00Filter => 0b00
  | .t01Filter => 0b01
  | .t10Filter => 0b10
  | .t11Filter => 0b11

/-- The default codes of the inter-transmission delay (R209): `Delay4096` is written as 0b1100, the lowest of its codes. -/
def TxDelay.defaultCode : TxDelay → Nat
  | .noDelay => 0b0000
  | .delay2 => 0b0001
  | .delay4 => 0b0010
  | .delay8 => 0b0011
  | .delay16 => 0b0100
  | .delay32 => 0b0101
  | .delay64 => 0b0110
  | .delay128 => 0b0111
  | .delay256 => 0b1000
  | .delay512 => 0b1001
  | .delay1024 => 0b1010
  | .delay2048 => 0b1011
  | .delay4096 => 0b1100

/-- The default codes of the retransmission attempts (R211); that of `UnlimitedRetries` is TXAT_UNLIMITED_CODE. -/
def Retransmission.defaultCode (p : Params) : Retransmission → Nat
  | .disabled => 0b00
  | .threeRetries => 0b01
  | .unlimitedRetries =>
    match p.txatUnlimited with
    | .two => 0b10
    | .three => 0b11

/-- The default codes of the payload size (R212). -/
def PayloadSize.defaultCode : PayloadSize → Nat
  | .bytes8 => 0b000
  | .bytes12 => 0b001
  | .bytes16 => 0b010
  | .bytes20 => 0b011
  | .bytes24 => 0b100
  | .bytes32 => 0b101
  | .bytes48 => 0b110
  | .bytes64 => 0b111

/-- The default codes of the clock-output divisor (R217). -/
def ClockOut.defaultCode : ClockOut → Nat
  | .div1 => 0b00
  | .div2 => 0b01
  | .div4 => 0b10
  | .div10 => 0b11

/-! ### Header fields -/

/-- Which word of the header holds a field by default (R263 to R266). -/
def HField.defaultWord : {k : HdrKind} → HField k → Nat
  | _, .sid => 0
  | _, .eid => 0
  | _, .timestamp => 2
  | _, _ => 1

/-- The default low bit of a header field in its word (R263 to R266). -/
def HField.defaultLo : {k : HdrKind} → HField k → Nat
  | _, .sid => 0
  | _, .eid => 11
  | _, .dlc => 0
  | _, .ide => 4
  | _, .rtr => 5
  | _, .brs => 6
  | _, .fdf => 7
  | _, .esi => 8
  | _, .seq => 9
  | _, .filhit => 11
  | _, .timestamp => 0

/-- Every field of a header kind. -/
def HField.all : (k : HdrKind) → List (HField k)
  | .tx => [.sid, .eid, .seq, .esi, .fdf, .brs, .rtr, .ide, .dlc]
  | .rx => [.sid, .eid, .filhit, .esi, .fdf, .brs, .rtr, .ide, .dlc, .timestamp]

/-- Whether the header layout may move a field: 93 G29 makes the words T0/R0, T1 and R1 a parameter, while the timestamp is word 2,
whole (R266, R274). -/
def HField.movable : {k : HdrKind} → HField k → Bool
  | _, .timestamp => false
  | _, _ => true

/-- The row of the header layout for a field: (word, low bit). A row for the timestamp is not used. -/
def HField.place (p : Params) {k : HdrKind} (f : HField k) : Nat × Nat :=
  ((p.hdrLayout.find? fun e => f.movable && decide ((⟨e.kind, e.field⟩ : (k : HdrKind) × HField k) = ⟨k, f⟩)).map
    fun e => (e.word, e.lo)).getD (f.defaultWord, f.defaultLo)

/-- The word that holds a header field, and the field's low bit in it, under the header layout. -/
def HField.word (p : Params) {k : HdrKind} (f : HField k) : Nat := (f.place p).1
def HField.lo (p : Params) {k : HdrKind} (f : HField k) : Nat := (f.place p).2

/-! ### The parameters -/

/-- The opcodes left when RESET, READ and WRITE have their defaults (R92). -/
def sfrOpcodeChoices : List Opcode := [0x1, 0x4, 0x5, 0x6, 0x7, 0x8, 0x9, 0xA, 0xB, 0xC, 0xD, 0xE, 0xF]

/-- OP_READ_SFR for a choice (log 5). -/
def opReadSfrOf (c : Fin 13 × Fin 12) : Opcode := sfrOpcodeChoices.getD c.1.val 0

/-- OP_WRITE_SFR for a choice, among the opcodes that OP_READ_SFR leaves (log 5). -/
def opWriteSfrOf (c : Fin 13 × Fin 12) : Opcode := (sfrOpcodeChoices.eraseIdx c.1.val).getD c.2.val 0

/-- The defaults of R9. The two OPEN opcodes are free values. -/
def Params.default : Params where
  opReset := 0x0
  opRead := 0x3
  opWrite := 0x2
  opReadSfr := opReadSfrOf Config.freeSfrOpcodes
  opWriteSfr := opWriteSfrOf Config.freeSfrOpcodes
  sfrOpcodes := .combined
  csActive := .low
  hostEndian := .little
  ramBound := .endInclusiveOfBFE
  sfrAddr := []
  regLayout := []
  opmodeCode := []
  wftCode := []
  txbwsCode := []
  txatCode := []
  plsizeCode := []
  clkodivCode := []
  hdrLayout := []
  opmodeMapped := [0, 1, 2, 3, 4, 5, 6, 7]
  plsizeMapped := [0, 1, 2, 3, 4, 5, 6, 7]
  txatUnlimited := .two
  seqBits := .seven
  tefReconcileBit := none
  clockDivider := .sclkdiv

end Sys2Proof
end

