-- ==== Sys2Proof/Machine/Codes.lean ====
section
/-! DEFINITION. The code tables of the enumerated fields and their decoders (spec/42_register_fields.md R204, R207 to R212, R217). -/

namespace Sys2Proof

/-! ### Code tables (R204) -/

/-- `code_F` (R204): the code that REG_LAYOUT gives a variant, its row or the default. -/
def codeOf {V : Type} [DecidableEq V] (rows : List (V × Nat)) (default : V → Nat) (v : V) : Nat :=
  (rows.lookup v).getD (default v)

/-- The inverse of `code_F` (R204). -/
def variantOf {V : Type} (all : List V) (code : V → Nat) (c : Nat) : Option V := all.find? fun v => code v == c

def OpMode.all : List OpMode :=
  [.normalFD, .sleep, .internalLoopback, .listenOnly, .configuration, .externalLoopback, .normal2_0, .restricted]
def WakeFilter.all : List WakeFilter := [.t00Filter, .t01Filter, .t10Filter, .t11Filter]
def TxDelay.all : List TxDelay :=
  [.noDelay, .delay2, .delay4, .delay8, .delay16, .delay32, .delay64, .delay128, .delay256, .delay512, .delay1024,
    .delay2048, .delay4096]
def Retransmission.all : List Retransmission := [.disabled, .threeRetries, .unlimitedRetries]
def PayloadSize.all : List PayloadSize :=
  [.bytes8, .bytes12, .bytes16, .bytes20, .bytes24, .bytes32, .bytes48, .bytes64]
def ClockOut.all : List ClockOut := [.div1, .div2, .div4, .div10]

/-- The codes of the six tables (R207, R208, R209, R211, R212, R217). -/
def OpMode.code (p : Params) : OpMode → Nat := codeOf p.opmodeCode OpMode.defaultCode
def WakeFilter.code (p : Params) : WakeFilter → Nat := codeOf p.wftCode WakeFilter.defaultCode
def TxDelay.code (p : Params) : TxDelay → Nat := codeOf p.txbwsCode TxDelay.defaultCode
def PayloadSize.code (p : Params) : PayloadSize → Nat := codeOf p.plsizeCode PayloadSize.defaultCode
def ClockOut.code (p : Params) : ClockOut → Nat := codeOf p.clkodivCode ClockOut.defaultCode

/-- R211: "`set_sym(UnlimitedRetries)` writes parameter TXAT_UNLIMITED_CODE". -/
def Retransmission.code (p : Params) : Retransmission → Nat
  | .unlimitedRetries => Retransmission.defaultCode p .unlimitedRetries
  | v => codeOf p.txatCode (Retransmission.defaultCode p) v

/-- Whether a code is in OPMODE_MAPPED, and in PLSIZE_MAPPED: "the set of codes given a variant" (R207, R212). -/
def OpMode.mapped (p : Params) (c : Nat) : Bool := p.opmodeMapped.any fun m => m.toNat == c
def PayloadSize.mapped (p : Params) (c : Nat) : Bool := p.plsizeMapped.any fun m => m.toNat == c

/-- `dec` of the operating mode: "unmapped operating-mode code → `Unknown`" (R207). -/
def decodeOpMode (p : Params) (c : Nat) : OpModeReading :=
  if OpMode.mapped p c then
    match variantOf OpMode.all (OpMode.code p) c with
    | some m => .mode m
    | none => .unknown
  else .unknown

/-- `dec` of R208. A code that REG_LAYOUT gives no variant has no fallback in the spec: a free one (log 37). -/
def decodeWakeFilter (p : Params) (c : Nat) : WakeFilter :=
  (variantOf WakeFilter.all (WakeFilter.code p) c).getD (Config.freeWakeFilter c)

/-- `dec` of R209: total, and every code of no other variant is one of `Delay4096`'s (log 37). -/
def decodeTxDelay (p : Params) (c : Nat) : TxDelay := (variantOf TxDelay.all (TxDelay.code p) c).getD .delay4096

/-- `dec` of R211: "unmapped retransmission code → `UnlimitedRetries`". -/
def decodeRetransmission (p : Params) (c : Nat) : Retransmission :=
  (variantOf Retransmission.all (Retransmission.code p) c).getD .unlimitedRetries

/-- `dec` of R212: "unmapped payload code → smallest size". -/
def decodePayloadSize (p : Params) (c : Nat) : PayloadSize :=
  if PayloadSize.mapped p c then (variantOf PayloadSize.all (PayloadSize.code p) c).getD .bytes8 else .bytes8

/-- `dec` of R217. A code that REG_LAYOUT gives no variant has no fallback in the spec: a free one (log 37). -/
def decodeClockOut (p : Params) (c : Nat) : ClockOut :=
  (variantOf ClockOut.all (ClockOut.code p) c).getD (Config.freeClockOut c)

/-- The number of bytes a payload size stands for (R212). -/
def PayloadSize.bytes : PayloadSize → Nat
  | .bytes8 => 8
  | .bytes12 => 12
  | .bytes16 => 16
  | .bytes20 => 20
  | .bytes24 => 24
  | .bytes32 => 32
  | .bytes48 => 48
  | .bytes64 => 64

end Sys2Proof
end

