-- ==== Sys2Proof/Machine/Flags.lean ====
section
/-! DEFINITION. Generic bit-field marshalling (spec/42_register_fields.md R200 to R205). The block has no status flags or condition
codes (spec/10_state.md R30): its flag-like values are the one-bit fields read and written here. -/

namespace Sys2Proof

/-- `v[lo+n-1:lo]` (R10, R201). -/
def getBits (v : Word) (lo n : Nat) : BitVec n := (v >>> lo).setWidth n

/-- `((2^n − 1) << lo)` (R202). -/
def fieldMask (lo n : Nat) : Word := (BitVec.ofNat 32 (2 ^ n - 1)) <<< lo

/-- The field at bits lo+n-1:lo set to `x`, every other bit kept (R202). -/
def setBits (v : Word) (lo n : Nat) (x : BitVec n) : Word := (v &&& ~~~ fieldMask lo n) ||| (x.setWidth 32 <<< lo)

/-- One bit as a Boolean: 1 reads as true (R205). -/
def bitToBool (x : BitVec 1) : Bool := x == 1

/-- A Boolean as one bit: true writes 1 (R205). -/
def boolToBit (b : Bool) : BitVec 1 := if b then 1 else 0

/-- `get_F` (R201). -/
def RegField.get (p : Params) {T : RegType} (f : RegField T) (t : RegWord T) : BitVec (f.width p) :=
  getBits t.bits (f.lo p) (f.width p)

/-- `set_F` (R202). -/
def RegField.set (p : Params) {T : RegType} (f : RegField T) (t : RegWord T) (v : BitVec (f.width p)) : RegWord T :=
  ⟨setBits t.bits (f.lo p) (f.width p) v⟩

/-- `set_F` of a number. A number that a host gives fits: another is refused before (`Update.settable`; R202: "A wider value is
refused at the type boundary, not truncated"). DESIGN CHOICE (log 38): a variant's code, a depth or a priority is wider than its field
only under a REG_LAYOUT that is not `Params.RegLayoutOk`, where the spec gives a setter no meaning; its low bits are then stored. -/
def RegField.setNat (p : Params) {T : RegType} (f : RegField T) (t : RegWord T) (v : Nat) : RegWord T :=
  RegField.set p f t (BitVec.ofNat _ v)

/-- Whether a number fits a field (R202). -/
def RegField.fits (p : Params) {T : RegType} (f : RegField T) (v : Nat) : Bool := decide (v < 2 ^ f.width p)

/-- A one-bit field as a Boolean: "`get_F(t) = 1` reads as true, and `set_F(t, true)` writes 1" (R205). -/
def RegField.getBool (p : Params) {T : RegType} (f : RegField T) (t : RegWord T) : Bool := RegField.get p f t == 1
def RegField.setBool (p : Params) {T : RegType} (f : RegField T) (t : RegWord T) (b : Bool) : RegWord T :=
  RegField.set p f t (if b then 1 else 0)

/-- `set_bit(c, b, x)` of R310: one bit of a register word. -/
def setBit {T : RegType} (t : RegWord T) (b : Fin 32) (x : Bool) : RegWord T := ⟨setBits t.bits b.val 1 (boolToBit x)⟩

end Sys2Proof
end

