-- ==== Sys2Proof/Machine/Bytes.lean ====
section
/-! DEFINITION. The byte-list helpers of spec/00_scope.md R11 and the boundary of typed operands (spec/30_encoding.md R99). -/

namespace Sys2Proof

/-- `BE16` (R11, R54). -/
def be16 (w : BitVec 16) : List Byte := [w.extractLsb' 8 8, w.extractLsb' 0 8]

/-- The 16-bit word whose big-endian bytes are `b0`, `b1`. -/
def fromBE16 (b0 b1 : Byte) : BitVec 16 := b0 ++ b1

/-- `LE32` (R11, R55). -/
def le32 (v : Word) : List Byte :=
  [v.extractLsb' 0 8, v.extractLsb' 8 8, v.extractLsb' 16 8, v.extractLsb' 24 8]

/-- `fromLE32` (R11, R55), on the 4 bytes of a register payload. -/
def fromLE32 (bs : List Byte) : Word :=
  (bs.getD 0 0).setWidth 32 ||| ((bs.getD 1 0).setWidth 32 <<< 8) ||| ((bs.getD 2 0).setWidth 32 <<< 16) |||
    ((bs.getD 3 0).setWidth 32 <<< 24)

/-- `NATIVE32` (R11, R57). -/
def native32 (e : Endian) (v : Word) : List Byte :=
  match e with
  | .little => le32 v
  | .big => [v.extractLsb' 24 8, v.extractLsb' 16 8, v.extractLsb' 8 8, v.extractLsb' 0 8]

/-- The type boundary of R99, R202, R215, R269: a number becomes a w-bit operand when it fits and is refused otherwise;
"No masking or wrapping happens". -/
def narrow? (w n : Nat) : Option (BitVec w) := if n < 2 ^ w then some (BitVec.ofNat w n) else none

end Sys2Proof
end

