-- ==== Sys2Proof/WellFormed.lean ====
section
/-! DEFINITION. What makes an instruction one that the block itself sends, and what makes the parameters usable.

`Instr.wf` is no condition of running an instruction: the raw frame rules of spec/40_spi_instructions.md "can emit any 12-bit
address" (spec/20_memory.md R53). It says which instructions the operations of the block produce. -/

namespace Sys2Proof

/-- Whether an address is that of an enumerated SFR (R51, R60). -/
def isSfrAddr (p : Params) (a : Addr) : Bool := Sfr.all.any fun r => p.sfrAddrOf r == a

/-- RESET is sent with address 0x000 (R95, R133). READ and WRITE admit every address and length (R131, R132). READ_SFR and
WRITE_SFR take the address of an SFR and are sent only under SFR_OPCODES = RegisterOnly (R134, R135). -/
def Instr.wf (p : Params) : Instr → Bool
  | .reset a => a == 0
  | .read _ _ => true
  | .write _ _ => true
  | .readSfr a => isSfrAddr p a && p.sfrOpcodes == .registerOnly
  | .writeSfr a _ => isSfrAddr p a && p.sfrOpcodes == .registerOnly

/-- A field lies inside its 32-bit word: `hi:lo` is a bit range (R201). -/
abbrev RegField.InWord (p : Params) {T : RegType} (f : RegField T) : Prop := f.lo p ≤ f.hi p ∧ f.hi p < 32

/-- Two fields' bits do not overlap (R203 law 2). -/
abbrev RegField.Apart (p : Params) {T : RegType} (f g : RegField T) : Prop := f.hi p < g.lo p ∨ g.hi p < f.lo p

/-- A bit that is not one of a field's: "every bit outside" it (R202, R225). -/
abbrev RegField.Outside (p : Params) {T : RegType} (f : RegField T) (i : Nat) : Prop := i < f.lo p ∨ f.lo p + f.width p ≤ i

/-- A header field lies in a word that the header has, and inside that word. -/
abbrev HField.InWord (p : Params) {k : HdrKind} (f : HField k) : Prop := f.word p < k.words ∧ f.lo p + f.width p ≤ 32

/-- Two header fields are in different words or their bits do not overlap. -/
abbrev HField.Apart (p : Params) {k : HdrKind} (f g : HField k) : Prop :=
  f.word p ≠ g.word p ∨ f.lo p + f.width p ≤ g.lo p ∨ g.lo p + g.width p ≤ f.lo p

/-- `code_F` is injective (R204), and each code fits the fields that hold it. -/
abbrev CodesFit {V : Type} (all : List V) (code : V → Nat) (widths : List Nat) : Prop :=
  (all.map code).Nodup ∧ ∀ v ∈ all, ∀ w ∈ widths, code v < 2 ^ w

/-- The six code tables (R204, R207, R208, R209, R211, R212, R217). -/
structure Params.CodesOk (p : Params) : Prop where
  opmode : CodesFit OpMode.all (OpMode.code p) [RegField.chip_REQOP.width p, RegField.chip_OPMOD.width p]
  wft : CodesFit WakeFilter.all (WakeFilter.code p) [RegField.chip_WFT.width p]
  txbws : CodesFit TxDelay.all (TxDelay.code p) [RegField.chip_TXBWS.width p]
  txat : CodesFit Retransmission.all (Retransmission.code p) [RegField.txq_TXAT.width p, RegField.fifo_TXAT.width p]
  plsize : CodesFit PayloadSize.all (PayloadSize.code p) [RegField.txq_PLSIZE.width p, RegField.fifo_PLSIZE.width p]
  clkodiv : CodesFit ClockOut.all (ClockOut.code p) [RegField.osc_CLKODIV.width p]

/-- REG_LAYOUT places every field inside its word and no two fields of one register on one bit, keeps the widths that the source
fixes (R8: FSIZE_BITS and PRIORITY_BITS are 5) and the flags one bit wide ("One-bit fields are booleans", R205), and its code tables
are well formed. -/
structure Params.RegLayoutOk (p : Params) : Prop where
  inWord : ∀ T : RegType, ∀ f ∈ RegField.all T, f.InWord p
  apart : ∀ T : RegType, ∀ f ∈ RegField.all T, ∀ g ∈ RegField.all T, f ≠ g → f.Apart p g
  fsize : RegField.txq_FSIZE.width p = 5 ∧ RegField.fifo_FSIZE.width p = 5
  priority : RegField.txq_TXPRI.width p = 5 ∧ RegField.fifo_TXPRI.width p = 5
  flags : ∀ T : RegType, ∀ f ∈ RegField.all T, f.defaultWidth = 1 → f.width p = 1
  codes : p.CodesOk

/-- The header layout, likewise. -/
abbrev Params.HdrLayoutOk (p : Params) : Prop :=
  ∀ k : HdrKind, (∀ f ∈ HField.all k, f.InWord p) ∧ ∀ f ∈ HField.all k, ∀ g ∈ HField.all k, f ≠ g → f.Apart p g

/-- An address of the RAM window "[0x400, 0xBFF]" (R52; R60: "object RAM (not SFRs)"). -/
abbrev InRamWindow (a : Addr) : Prop := 0x400 ≤ a.toNat ∧ a.toNat ≤ 0xBFF

/-- The reserved row of the table of R60, which names no register. -/
def reservedAddr : Addr := 0x04C

/-- What an SFR_ADDR must keep: every address is a multiple of 4 (R60, R63) and none lies in the RAM window; and the per-FIFO
addresses are "pairwise distinct, and distinct from every other entry" of the table: the other registers, the reserved row and the
object RAM (R62: "A model that changes SFR_ADDR must keep this property"). The registers that are no FIFO's are distinct too. -/
structure Params.SfrAddrOk (p : Params) : Prop where
  distinct : ∀ r q : Sfr, p.sfrAddrOf r = p.sfrAddrOf q → r = q
  aligned : ∀ r : Sfr, (p.sfrAddrOf r).toNat % 4 = 0
  notRam : ∀ r : Sfr, ¬ InRamWindow (p.sfrAddrOf r)
  fifoNotReserved : ∀ (k : FifoReg) (i : Fin 31), p.sfrAddrOf (k.sfr i) ≠ reservedAddr

/-- The parameters a model may be given. The meanings run under every `Params`; what they do under others is log 38. -/
structure Params.Wf (p : Params) : Prop where
  opcodes : p.OpcodesDistinct
  sfrAddr : p.SfrAddrOk
  regLayout : p.RegLayoutOk
  hdrLayout : p.HdrLayoutOk

end Sys2Proof
end

