-- ==== Sys2Proof/Decode.lean ====
section
/-! DEFINITION. The instruction word, its decoder and its encoder (spec/30_encoding.md).

The bytes decoded are those of one frame: the word, big-endian, and the payload (R96: "the first 2 bytes are the word, and the
rest is payload"). -/

namespace Sys2Proof

/-- What a word is (R97). -/
inductive WordClass where
  | reset (a : Addr)
  | read (a : Addr)
  | write (a : Addr)
  | readSfr (a : Addr)
  | writeSfr (a : Addr)
  | notEmitted (c : Opcode) (a : Addr)
  deriving DecidableEq, Repr

/-- The opcode field, bits 15:12 (R90). -/
def wordOpcode (w : BitVec 16) : Opcode := w.extractLsb' 12 4

/-- The address field, bits 11:0 (R90, R93). -/
def wordAddr (w : BitVec 16) : Addr := w.extractLsb' 0 12

/-- `decode` of R97, on words. -/
def decodeWord (p : Params) (w : BitVec 16) : WordClass :=
  let c := wordOpcode w
  let a := wordAddr w
  if c = p.opReset then .reset a
  else if c = p.opRead then .read a
  else if c = p.opWrite then .write a
  else if c = p.opReadSfr then .readSfr a
  else if c = p.opWriteSfr then .writeSfr a
  else .notEmitted c a

/-- Why the bytes of a frame are no instruction of the block. -/
inductive DecodeError where
  /-- fewer than the two bytes of a word (R96) -/
  | truncated
  /-- the opcode is none of the five (R97, R98) -/
  | notEmitted (c : Opcode) (a : Addr)
  /-- a RESET frame with a payload, or an SFR frame whose payload is not 4 bytes (R96); `n` is its length -/
  | payloadLength (n : Nat)
  deriving DecidableEq, Repr

/-- The instruction of a frame whose word is `w` and whose payload is `rest` (R96). The payload of READ and READ_SFR runs
from chip to host: of the host's bytes only their number counts (log 11). -/
def decodeFrame (p : Params) (w : BitVec 16) (rest : List Byte) : Except DecodeError Instr :=
  match decodeWord p w with
  | .reset a => if rest.length = 0 then .ok (.reset a) else .error (.payloadLength rest.length)
  | .read a => .ok (.read a rest.length)
  | .write a => .ok (.write a rest)
  | .readSfr a => if rest.length = 4 then .ok (.readSfr a) else .error (.payloadLength rest.length)
  | .writeSfr a => if rest.length = 4 then .ok (.writeSfr a (fromLE32 rest)) else .error (.payloadLength rest.length)
  | .notEmitted c a => .error (.notEmitted c a)

/-- Decode the bytes of one frame; total, rejecting by name. -/
def decode (p : Params) : List Byte → Except DecodeError Instr
  | [] => .error .truncated
  | [_] => .error .truncated
  | b0 :: b1 :: rest => decodeFrame p (fromBE16 b0 b1) rest

/-! ### The encoder -/

/-- `encode(op, addr)` of R91. -/
def encodeWord (op : Opcode) (a : Addr) : BitVec 16 := (op.setWidth 16 <<< 12) ||| a.setWidth 16

/-- The encoder at its boundary (R99): an opcode or address that does not fit is refused. -/
def encodeWord? (op addr : Nat) : Option (BitVec 16) :=
  match narrow? 4 op, narrow? 12 addr with
  | some o, some a => some (encodeWord o a)
  | _, _ => none

/-- The opcode of an instruction (R92). -/
def Instr.opcode (p : Params) : Instr → Opcode
  | .reset _ => p.opReset
  | .read _ _ => p.opRead
  | .write _ _ => p.opWrite
  | .readSfr _ => p.opReadSfr
  | .writeSfr _ _ => p.opWriteSfr

/-- The address operand of an instruction (R93). -/
def Instr.addr : Instr → Addr
  | .reset a => a
  | .read a _ => a
  | .write a _ => a
  | .readSfr a => a
  | .writeSfr a _ => a

/-- The bytes that follow the word (R96, R133, R140, R141): nothing, zeros (92 D5), or the payload. -/
def Instr.payload : Instr → List Byte
  | .reset _ => []
  | .read _ n => List.replicate n 0
  | .write _ bytes => bytes
  | .readSfr _ => List.replicate 4 0
  | .writeSfr _ v => le32 v

/-- The bytes of an instruction's frame, word first (R94, R96). -/
def encode (p : Params) (i : Instr) : List Byte := be16 (encodeWord (i.opcode p) i.addr) ++ i.payload

/-! ### The opcode table's words -/

/-- How many payload bytes, all zero, a word of the opcode table stands for here: none for RESET, and the 4 of a
register payload for every other (log 12). -/
def tablePayload (p : Params) (w : BitVec 16) : Nat := if wordOpcode w = p.opReset then 0 else 4

/-- The frame of an opcode-table instruction whose bits are `w`, bit 0 the least significant bit of the word: the word
in its byte order, then payload bytes, which the table gives no bits. -/
def tableFrame (p : Params) (nbits w : Nat) : List Byte :=
  let word := BitVec.ofNat 16 (w % 2 ^ nbits)
  be16 word ++ (List.range (tablePayload p word)).map fun k => BitVec.ofNat 8 (w % 2 ^ nbits / 2 ^ (16 + 8 * k))

/-- The instruction the decoder reads from an opcode-table word, under the default parameters. -/
def decodeTableWord (nbits w : Nat) : Option Instr :=
  match decode Params.default (tableFrame Params.default nbits w) with
  | .ok i => some i
  | .error _ => none

end Sys2Proof
end

