-- ==== Sys2Proof/Machine/State.lean ====
section
/-! DEFINITION. The state of the block, its host and its environment (spec/10_state.md), as plain data. -/

namespace Sys2Proof.Machine

open Sys2Proof

/-! ### Errors (spec/60_exceptions.md R330) -/

/-- `TransportError` (R302, R330 codes 1 and 2). -/
inductive TransportError where
  | spiRead | spiWrite
  deriving DecidableEq, Repr

/-- `ConfigError` (R302). -/
inductive ConfigError where
  | configurationModeTimeout
  | spiFailedRamEcho
  | pllNotReady
  | other (e : TransportError)
  deriving DecidableEq, Repr

/-- The nine errors of R330, with their payloads. -/
inductive Error where
  | spiRead
  | spiWrite
  | invalidFifo (n : Nat)
  | invalidRamAddress (addr : Nat)
  | configurationModeTimeout
  | spiFailedRamEcho
  | pllNotReady
  | other (e : TransportError)
  | invalidFifoSize (size : Nat)
  deriving DecidableEq, Repr

/-! ### The bus -/

/-- The logical level of the chip-select pin (R23, R24). -/
inductive Level where
  | active | inactive
  deriving DecidableEq, Repr

/-- One bus event, one per primitive call (R29). `transfer out r` holds the bytes clocked in, or nothing when it failed. -/
inductive Event where
  | pinSet (l : Level)
  | write (bytes : List Byte) (ok : Bool)
  | transfer (out : List Byte) (answer : Option (List Byte))
  | delay (us : Nat)
  deriving DecidableEq, Repr

/-- One scripted environment choice (R28): leave it to the environment, succeed (with the bytes clocked in, when the call is
a transfer), or fail after some of the bytes reached the wire (R25, R26). -/
inductive Answer where
  | byEnv
  | ok (bytesIn : List Byte)
  | fail (reached : Nat)
  deriving DecidableEq, Repr

/-- Which oracle answers what no script does: any answer (R28), or the deterministic reference stub (R77). -/
inductive Oracle where
  | any | stub
  deriving DecidableEq, Repr

/-- Bytes by address, strictly rising, none equal to what an unlisted address reads as (Machine/Ops.lean). -/
abbrev Memory := List Host.Cell

/-! ### What an operation returns -/

/-- The value of a successful operation. -/
inductive Value where
  | unit
  | bytes (b : List Byte)
  | word (v : Word)
  | reg (T : RegType) (w : RegWord T)
  | addr (a : Addr)
  | controller (h : Handles)
  | handles (h : Handles)
  deriving DecidableEq, Repr

/-- What the host gets back (R13): the result, and for `read_ram` also the caller's buffer as the call left it (R166). -/
inductive Reply where
  | done (r : Result Error Value)
  | readRam (r : Result Error Value) (buf : List Byte)
  deriving DecidableEq, Repr

/-! ### The sequencer (spec/47_host_sequencer.md R301) -/

/-- The states of R301, with the attempt (1, 2, ...) of a polling state and the bit position of the echo test. -/
inductive SeqPhase where
  | unconfigured
  | requestingConfigMode
  | awaitingConfigMode (attempt : Nat)
  | verifyingComms (bit : Nat)
  | programmingOscillator
  | awaitingPll (attempt : Nat)
  | programmingIo
  | programmingTxQueue
  | configured
  | failed (reason : ConfigError)
  deriving DecidableEq, Repr

/-- A `configure()` in progress: the Settings it consumes and its current state (R34, R35). -/
structure SeqRun where
  settings : Settings
  phase : SeqPhase
  deriving DecidableEq, Repr

/-! ### Outcomes that are no next state -/

/-- What stops the machine with a fault: nothing. Every error of the block is a result its caller gets (R330, R334), and
the block keeps no error state (R336), so the type has no constructor (log 24; safe). -/
inductive Fault where
  deriving DecidableEq, Repr

/-- Why a step has no next state. -/
inductive Refusal where
  /-- An instruction whose meaning is not written, raised by exec's arm for it; no arm of this model raises it. Safe. -/
  | notModelled (mnemonic : String)
  /-- An instruction or operation of a Controller that `free()` consumed or that never was; raised by every meaning and operation but a
  construction and the pure lookups: "no further operation on it exists" (R161; log 17). Safe. -/
  | controllerReleased
  /-- Construction from a bus or a pin handle that a Controller holds "exclusively until `free()`", raised by `new`: "Sharing one bus
  handle between two Controllers is outside the model" (R39; 93 U21: refuse). Safe. -/
  | handlesHeld
  /-- READ_SFR or WRITE_SFR where SFR_OPCODES is Combined, raised by their meanings: "emitted only under SFR_OPCODES =
  RegisterOnly" (R134, R135). Safe. -/
  | notRegisterOnly
  /-- Frame bytes that are no instruction of the block, raised by the step: "A model has the block refuse to construct any
  other opcode" (R98, R96). Safe. -/
  | undecodable (e : DecodeError)
  /-- A value that a setter's argument type excludes, raised by a call that would set it: a number wider than its field (R202, 93 U16),
  or a variant whose code the parameters leave unmapped (R223, 93 U18; log 18). Safe. -/
  | notSettable
  deriving DecidableEq, Repr

/-! ### State -/

/-- One Controller with its own chip and bus answers, while another is in use: "Two Controllers share no state of the block. Their
traces are independent" (R39). The fields are those of `State` with the same names. -/
structure Line where
  cs : Level
  owned : Bool
  handles : Handles
  trace : List Event
  env : Oracle
  script : List Answer
  mem : Memory
  wire : List Byte
  draws : Nat
  deriving DecidableEq, Repr

/-- Everything the spec gives the machine; INVENTORY.md names the rule of each field. `cs`, `owned`, `handles`, `trace`, `env`, `script`,
`mem`, `wire` and `draws` are those of the Controller in use; `others` holds the rest (R39, R345; log 35). -/
structure State where
  /-- the parameters of R9, fixed for the machine -/
  cfg : Params
  /-- the level the chip-select pin drives (R23) -/
  cs : Level
  /-- whether a Controller owns the handles (R23) -/
  owned : Bool
  /-- the handles it was constructed from (R39, R160) -/
  handles : Handles
  /-- the bus events so far (R29) -/
  trace : List Event
  /-- the results returned so far (R13) -/
  replies : List Reply
  /-- the host's calls still to make (R21) -/
  requests : List Request
  /-- the `configure()` in progress, if any (R35) -/
  seq : Option SeqRun
  /-- which oracle answers (R28, R77) -/
  env : Oracle
  /-- answers that come before the oracle's (R28) -/
  script : List Answer
  /-- the reference stub's byte array (R77) -/
  mem : Memory
  /-- the bytes that reached the wire since the last chip-select edge (R77, R25) -/
  wire : List Byte
  /-- the number of free values drawn; the model's own -/
  draws : Nat
  /-- the Controllers not in use, each on its own handles (R39) -/
  others : List Line
  deriving DecidableEq, Repr

/-- The state after the construction of the first Controller (R38, R370): select inactive, the Controller owned, the construction's own event in the
trace, and no frame sent. -/
def State.reset : State where
  cfg := Params.default
  cs := .inactive
  owned := true
  handles := ⟨0, 0⟩
  trace := [.pinSet .inactive]
  replies := []
  requests := []
  seq := none
  env := .any
  script := []
  mem := []
  wire := []
  draws := 0
  others := []

end Sys2Proof.Machine
end

