-- ==== Sys2Proof/Machine/Fields.lean ====
section
/-! DEFINITION. The symbolic getters and setters of the register words, FIFO depth and priority, and a host's transforms
(spec/42_register_fields.md R204 to R223). -/

namespace Sys2Proof

open Sys2Proof.Machine

/-! ### Symbolic getters and setters (R204) -/

def getReqop (p : Params) (t : RegWord .chipControl) : OpModeReading :=
  decodeOpMode p (RegField.get p .chip_REQOP t).toNat
def getOpmod (p : Params) (t : RegWord .chipControl) : OpModeReading :=
  decodeOpMode p (RegField.get p .chip_OPMOD t).toNat
def getWft (p : Params) (t : RegWord .chipControl) : WakeFilter :=
  decodeWakeFilter p (RegField.get p .chip_WFT t).toNat
def getTxbws (p : Params) (t : RegWord .chipControl) : TxDelay :=
  decodeTxDelay p (RegField.get p .chip_TXBWS t).toNat
def getClkodiv (p : Params) (t : RegWord .oscillator) : ClockOut :=
  decodeClockOut p (RegField.get p .osc_CLKODIV t).toNat
def getTxqTxat (p : Params) (t : RegWord .txQueueControl) : Retransmission :=
  decodeRetransmission p (RegField.get p .txq_TXAT t).toNat
def getFifoTxat (p : Params) (t : RegWord .fifoControl) : Retransmission :=
  decodeRetransmission p (RegField.get p .fifo_TXAT t).toNat
def getTxqPlsize (p : Params) (t : RegWord .txQueueControl) : PayloadSize :=
  decodePayloadSize p (RegField.get p .txq_PLSIZE t).toNat
def getFifoPlsize (p : Params) (t : RegWord .fifoControl) : PayloadSize :=
  decodePayloadSize p (RegField.get p .fifo_PLSIZE t).toNat

def setReqop (p : Params) (t : RegWord .chipControl) (v : OpMode) : RegWord .chipControl :=
  RegField.setNat p .chip_REQOP t (OpMode.code p v)
def setOpmod (p : Params) (t : RegWord .chipControl) (v : OpMode) : RegWord .chipControl :=
  RegField.setNat p .chip_OPMOD t (OpMode.code p v)
def setWft (p : Params) (t : RegWord .chipControl) (v : WakeFilter) : RegWord .chipControl :=
  RegField.setNat p .chip_WFT t (WakeFilter.code p v)
def setTxbws (p : Params) (t : RegWord .chipControl) (v : TxDelay) : RegWord .chipControl :=
  RegField.setNat p .chip_TXBWS t (TxDelay.code p v)
def setClkodiv (p : Params) (t : RegWord .oscillator) (v : ClockOut) : RegWord .oscillator :=
  RegField.setNat p .osc_CLKODIV t (ClockOut.code p v)
def setTxqTxat (p : Params) (t : RegWord .txQueueControl) (v : Retransmission) : RegWord .txQueueControl :=
  RegField.setNat p .txq_TXAT t (Retransmission.code p v)
def setFifoTxat (p : Params) (t : RegWord .fifoControl) (v : Retransmission) : RegWord .fifoControl :=
  RegField.setNat p .fifo_TXAT t (Retransmission.code p v)
def setTxqPlsize (p : Params) (t : RegWord .txQueueControl) (v : PayloadSize) : RegWord .txQueueControl :=
  RegField.setNat p .txq_PLSIZE t (PayloadSize.code p v)
def setFifoPlsize (p : Params) (t : RegWord .fifoControl) (v : PayloadSize) : RegWord .fifoControl :=
  RegField.setNat p .fifo_PLSIZE t (PayloadSize.code p v)

/-! ### FIFO depth (R213, R214) -/

/-- The stored code of a depth: `min(size, 32) − 1` (R213). -/
def fifoSizeCode (size : Nat) : Nat := min size 32 - 1

/-- `set_fifo_size` of TxQueueControl (R213). -/
def setTxqFifoSize (p : Params) (t : RegWord .txQueueControl) (size : Nat) : Result Error (RegWord .txQueueControl) :=
  if size = 0 then .err (.invalidFifoSize 0) else .ok (RegField.setNat p .txq_FSIZE t (fifoSizeCode size))

/-- `set_fifo_size` of FifoControl (R213). -/
def setFifoSize (p : Params) (t : RegWord .fifoControl) (size : Nat) : Result Error (RegWord .fifoControl) :=
  if size = 0 then .err (.invalidFifoSize 0) else .ok (RegField.setNat p .fifo_FSIZE t (fifoSizeCode size))

/-- `fifo_size` of TxQueueControl (R214). -/
def txqFifoSize (p : Params) (t : RegWord .txQueueControl) : Nat := (RegField.get p .txq_FSIZE t).toNat + 1

/-- `fifo_size` of FifoControl (R214). -/
def fifoSize (p : Params) (t : RegWord .fifoControl) : Nat := (RegField.get p .fifo_FSIZE t).toNat + 1

/-- `set_TXPRI` of TxQueueControl: a 5-bit priority, stored as it is (R215). -/
def setTxqPriority (p : Params) (t : RegWord .txQueueControl) (v : BitVec 5) : RegWord .txQueueControl :=
  RegField.setNat p .txq_TXPRI t v.toNat

/-! ### A host's transform, as data -/

/-- One setter applied; only `set_fifo_size` can fail (R331). -/
def Update.apply (p : Params) : {T : RegType} → Update T → RegWord T → Result Error (RegWord T)
  | _, .word w, _ => .ok ⟨w⟩
  | _, .field f v, t => .ok (RegField.setNat p f t v)
  | _, .reqop m, t => .ok (setReqop p t m)
  | _, .opmod m, t => .ok (setOpmod p t m)
  | _, .wft v, t => .ok (setWft p t v)
  | _, .txbws v, t => .ok (setTxbws p t v)
  | _, .clkodiv v, t => .ok (setClkodiv p t v)
  | _, .txqTxat v, t => .ok (setTxqTxat p t v)
  | _, .txqPlsize v, t => .ok (setTxqPlsize p t v)
  | _, .fifoTxat v, t => .ok (setFifoTxat p t v)
  | _, .fifoPlsize v, t => .ok (setFifoPlsize p t v)
  | _, .txqFifoSize n, t => setTxqFifoSize p t n
  | _, .fifoFifoSize n, t => setFifoSize p t n

/-- The setters applied in order; the first error ends it. -/
def applyUpdates (p : Params) {T : RegType} : List (Update T) → RegWord T → Result Error (RegWord T)
  | [], t => .ok t
  | u :: rest, t =>
    match Update.apply p u t with
    | .ok t' => applyUpdates p rest t'
    | .err e => .err e

/-- The validation a transform makes before the modify is called (R178, 92 D15): its setters on any word, here the zero
word. Whether they fail does not depend on the word (Laws/Fields.lean). -/
def checkUpdates (p : Params) {T : RegType} (us : List (Update T)) : Option Error :=
  match applyUpdates p us ⟨0⟩ with
  | .ok _ => none
  | .err e => some e

/-- The pure transform of a list that passed its validation: "pure; cannot fail" (R164). -/
def transformOf (p : Params) {T : RegType} (us : List (Update T)) (t : RegWord T) : RegWord T :=
  match applyUpdates p us t with
  | .ok t' => t'
  | .err _ => t

/-- Whether a mode or a size may be set: it has a code of its own under the parameters, or is a fallback that is a real variant (R223;
log 18). -/
def OpMode.settable (p : Params) (m : OpMode) : Bool := OpMode.mapped p (OpMode.code p m)
def PayloadSize.settable (p : Params) (v : PayloadSize) : Bool :=
  v == .bytes8 || PayloadSize.mapped p (PayloadSize.code p v)

/-- Whether a setter accepts its value: a number fits its field (R202, 93 U16), and a variant may be set (R223, 93 U18). Whether a
variant's code fits its field is a condition on the parameters (`Params.CodesOk`), and is not checked here (log 38). -/
def Update.settable (p : Params) : {T : RegType} → Update T → Bool
  | _, .field f v => f.fits p v
  | _, .reqop m => OpMode.settable p m
  | _, .opmod m => OpMode.settable p m
  | _, .txqPlsize v => PayloadSize.settable p v
  | _, .fifoPlsize v => PayloadSize.settable p v
  | _, _ => true

end Sys2Proof
end

