-- ==== Sys2Proof/Machine/Operands.lean ====
section
/-! DEFINITION. The operands of the operations and their checks: SFR addresses, the RAM bounds, the FIFO index
(spec/20_memory.md R60, R61, R64, spec/41_transactions.md R168, R169, R176). -/

namespace Sys2Proof

open Sys2Proof.Machine

/-- `ADDR(T)` of a fixed-address register word type (R176). -/
def FixedReg.sfr : FixedReg → Sfr
  | .chipControl => .c1con
  | .txQueueControl => .c1txqcon
  | .oscillator => .osc
  | .ioConfiguration => .iocon

/-- The FIFO index check (R168): the index less 1 when it is in 1..31, else `InvalidFIFO(n)`. -/
def fifoIndex (n : Nat) : Result Error (Fin 31) :=
  if h : 1 ≤ n ∧ n ≤ 31 then .ok ⟨n - 1, by omega⟩ else .err (.invalidFifo n)

/-- The FIFO address lookups of R169, one for each per-FIFO register type. -/
def fifoRegAddress (p : Params) (k : FifoReg) (n : Nat) : Result Error Addr :=
  match fifoIndex n with
  | .ok i => .ok (p.sfrAddrOf (k.sfr i))
  | .err e => .err e

/-- The opcodes that a read frame and a write frame may carry: READ_SFR and WRITE_SFR only under SFR_OPCODES = RegisterOnly (R134,
R135, R138). -/
def Params.readOpcodes (p : Params) : List Opcode :=
  match p.sfrOpcodes with
  | .combined => [p.opRead]
  | .registerOnly => [p.opRead, p.opReadSfr]
def Params.writeOpcodes (p : Params) : List Opcode :=
  match p.sfrOpcodes with
  | .combined => [p.opReset, p.opWrite]
  | .registerOnly => [p.opReset, p.opWrite, p.opWriteSfr]

/-- The first address after the last one an access may end at (R64; RAM_BOUND_RULE). -/
def RamBoundRule.limit : RamBoundRule → Nat
  | .endInclusiveOfBFE => 0xBFF
  | .endInclusiveOfBFF => 0xC00

/-- `ram_ok(addr, len)` (R64), over unbounded numbers. -/
def ramOk (p : Params) (addr len : Nat) : Bool := 0x400 ≤ addr && addr + len ≤ p.ramBound.limit

/-- ECHO_ADDR (R8, R306). -/
def echoAddr : Nat := 0x400

/-- POLL_DELAY_US, CONFIG_POLL_ATTEMPTS and PLL_POLL_ATTEMPTS (R8). -/
def pollDelayUs : Nat := 500
def configPollAttempts : Nat := 5
def pllPollAttempts : Nat := 3

end Sys2Proof
end

