-- ==== Sys2Proof/Machine/Ops.lean ====
section
/-! DEFINITION. The shared operations: the stub's memory, the environment's answers, the platform primitives, the chip-select
protocol, the two generic frames, and raising an error (spec/10_state.md R24 to R29, spec/20_memory.md R77,
spec/40_spi_instructions.md R130 to R141, spec/60_exceptions.md R334). -/

namespace Sys2Proof.Machine

open Sys2Proof

/-! ### Memory -/

/-- What a byte of the stub's array that nothing has written reads as (log 4). -/
def unlistedByte : Byte := 0

/-- The byte at an address. -/
def Memory.get : Memory → Nat → Byte
  | [], _ => unlistedByte
  | (k, v) :: rest, a => if a = k then v else Memory.get rest a

/-- A cell in front, unless it holds what an unlisted address reads as. -/
def Memory.cons (a : Nat) (b : Byte) (m : Memory) : Memory := if b = unlistedByte then m else (a, b) :: m

/-- The memory with one byte written. -/
def Memory.set : Memory → Nat → Byte → Memory
  | [], a, b => Memory.cons a b []
  | (k, v) :: rest, a, b =>
    if a < k then Memory.cons a b ((k, v) :: rest)
    else if a = k then Memory.cons a b rest
    else (k, v) :: Memory.set rest a b

/-- The canonical form: addresses strictly rising, no entry equal to what an unlisted address reads as, every address
one of the 4096 (R50). -/
abbrev Memory.wf (m : Memory) : Prop :=
  m.Pairwise (fun x y => x.1 < y.1) ∧ ∀ c ∈ m, c.2 ≠ unlistedByte ∧ c.1 < 4096

/-! ### The reference stub (R77) -/

/-- The address of payload byte `k` of a frame whose word is `w`: `(a + k) mod 4096` (R77). -/
def stubAddr (w : BitVec 16) (k : Nat) : Nat := ((wordAddr w).toNat + k) % 4096

/-- Whether the stub stores the payload of a frame with this opcode, or answers from its array (R77). -/
def stubStores (p : Params) (w : BitVec 16) : Bool := wordOpcode w == p.opWrite || wordOpcode w == p.opWriteSfr
def stubLoads (p : Params) (w : BitVec 16) : Bool := wordOpcode w == p.opRead || wordOpcode w == p.opReadSfr

/-- The word that opens the frame whose bytes so far are `wire`. -/
def wireWord (wire : List Byte) : BitVec 16 := fromBE16 (wire.getD 0 0) (wire.getD 1 0)

/-- The byte the stub clocks in while it receives one more byte of the frame: 0x00 during the word, and the array's
byte during the payload of a read (R77). -/
def stubByteIn (p : Params) (m : Memory) (wire : List Byte) : Byte :=
  if wire.length < 2 then 0
  else if stubLoads p (wireWord wire) then m.get (stubAddr (wireWord wire) (wire.length - 2)) else 0

/-- The stub's array after it received one more byte `b` of the frame (R77). -/
def stubStore (p : Params) (m : Memory) (wire : List Byte) (b : Byte) : Memory :=
  if wire.length < 2 then m
  else if stubStores p (wireWord wire) then m.set (stubAddr (wireWord wire) (wire.length - 2)) b else m

/-- The bytes the stub clocks in while it receives `out`. -/
def stubAnswer (p : Params) (m : Memory) (wire : List Byte) : List Byte → List Byte
  | [] => []
  | b :: rest => stubByteIn p m wire :: stubAnswer p (stubStore p m wire b) (wire ++ [b]) rest

/-- The stub's array after it received `out`. -/
def stubReceive (p : Params) (m : Memory) (wire : List Byte) : List Byte → Memory
  | [] => m
  | b :: rest => stubReceive p (stubStore p m wire b) (wire ++ [b]) rest

/-! ### The environment's answers (R28) -/

/-- What became of one primitive call: it succeeded with these bytes clocked in, or failed after `reached` bytes. -/
inductive Verdict where
  | ok (bytesIn : List Byte)
  | fail (reached : Nat)
  deriving DecidableEq, Repr

/-- `n` bytes clocked in: the given ones, and free ones where none is given (R26: as many as were sent). -/
def fitBytes (given : List Byte) (free : Nat → Byte) (n : Nat) : List Byte :=
  (List.range n).map fun k => given.getD k (free k)

/-- The oracle's own answer to a call that sends `out`. -/
def oracleAnswer (s : State) (out : List Byte) : Verdict :=
  match s.env with
  | .stub => .ok (stubAnswer s.cfg s.mem s.wire out)
  | .any =>
    if Config.freeFails s.handles s.draws out then .fail (Config.freeReached s.handles s.draws out)
    else .ok (fitBytes [] (Config.freeByteIn s.handles s.draws out) out.length)

/-- The answer to a call that sends `out`: the script's, where it gives one, else the oracle's. -/
def envAnswer (s : State) (out : List Byte) : Verdict :=
  match s.script with
  | .ok given :: _ => .ok (fitBytes given (Config.freeByteIn s.handles s.draws out) out.length)
  | .fail reached :: _ => .fail reached
  | .byEnv :: _ => oracleAnswer s out
  | [] => oracleAnswer s out

/-- How many of the bytes of `out` the chip got (R25, R26): all, or on a failure any prefix. -/
def Verdict.sent (v : Verdict) (out : List Byte) : List Byte :=
  match v with
  | .ok _ => out
  | .fail reached => out.take reached

/-- The environment after a call whose bytes `sent` reached the wire: one answer used, one draw made, the bytes on the
wire and, where the stub is connected, received by it. -/
def State.afterCall (s : State) (sent : List Byte) : State :=
  { s with
    script := s.script.tail
    draws := s.draws + 1
    wire := s.wire ++ sent
    mem := match s.env with
      | .stub => stubReceive s.cfg s.mem s.wire sent
      | .any => s.mem }

/-! ### The platform primitives (R24 to R29) -/

/-- Append one event to the trace (R29). -/
def State.log (e : Event) (s : State) : State := { s with trace := s.trace ++ [e] }

/-- `PinLevel()`: reads the level, records no event (R24, R29). -/
def pinLevel (s : State) : Level := s.cs

/-- `PinSet(l)`: drives the level (R24); an edge opens a fresh frame on the wire. -/
def pinSet (l : Level) (s : State) : State := State.log (.pinSet l) { s with cs := l, wire := [] }

/-- `SpiWrite(bytes)`: whether it succeeded, and the state after (R25). -/
def spiWrite (out : List Byte) (s : State) : Bool × State :=
  let v := envAnswer s out
  match v with
  | .ok _ => (true, State.log (.write out true) (s.afterCall (v.sent out)))
  | .fail _ => (false, State.log (.write out false) (s.afterCall (v.sent out)))

/-- `SpiTransfer(out)`: the bytes clocked in, or nothing when it failed, and the state after (R26). -/
def spiTransfer (out : List Byte) (s : State) : Option (List Byte) × State :=
  let v := envAnswer s out
  match v with
  | .ok bytesIn => (some bytesIn, State.log (.transfer out (some bytesIn)) (s.afterCall (v.sent out)))
  | .fail _ => (none, State.log (.transfer out none) (s.afterCall (v.sent out)))

/-- `DelayUs(n)`: an event, no failure (R27). -/
def delayUs (n : Nat) (s : State) : State := State.log (.delay n) s

/-- The electrical level of the pin (R24, CS_ACTIVE_LEVEL). -/
def pinVolts (s : State) : Volts :=
  match s.cs, s.cfg.csActive with
  | .active, v => v
  | .inactive, .low => .high
  | .inactive, .high => .low

/-! ### Operations -/

/-- An operation of the block: from a state, a result and the state it leaves (R13). -/
abbrev Op (ε α : Type) := State → Result ε α × State

/-- Success with a value. -/
def Op.pure {ε α : Type} (a : α) : Op ε α := fun s => (.ok a, s)

/-- `raise E(info)` (R12, R334): the operation ends with the error, with no further primitive call; nothing is saved. This is
the block's whole error entry. The chip-select is inactive again by then: the frames restore it before they raise (R136). -/
def Op.raise {ε α : Type} (e : ε) : Op ε α := fun s => (.err e, s)

/-- `x <- m; k x`: an error of `m` ends the whole (R333). -/
def Op.bind {ε α β : Type} (m : Op ε α) (k : α → Op ε β) : Op ε β := fun s =>
  match m s with
  | (.ok a, t) => k a t
  | (.err e, t) => (.err e, t)

/-- The same operation, its value and error renamed. -/
def Op.map {ε ε' α β : Type} (f : α → β) (g : ε → ε') (m : Op ε α) : Op ε' β := fun s =>
  match m s with
  | (.ok a, t) => (.ok (f a), t)
  | (.err e, t) => (.err (g e), t)

/-- A transport error as one of the nine (R330). -/
def TransportError.toError : TransportError → Error
  | .spiRead => .spiRead
  | .spiWrite => .spiWrite

/-- A configuration error as one of the nine (R330). -/
def ConfigError.toError : ConfigError → Error
  | .configurationModeTimeout => .configurationModeTimeout
  | .spiFailedRamEcho => .spiFailedRamEcho
  | .pllNotReady => .pllNotReady
  | .other e => .other e

/-- The numeric code of an error (R330). -/
def Error.code : Error → Nat
  | .spiRead => 1
  | .spiWrite => 2
  | .invalidFifo _ => 3
  | .invalidRamAddress _ => 4
  | .configurationModeTimeout => 5
  | .spiFailedRamEcho => 6
  | .pllNotReady => 7
  | .other _ => 8
  | .invalidFifoSize _ => 9

/-! ### The chip-select protocol and the generic frames -/

/-- `cs_ready()` (R130): inactive first if active, then active. -/
def csReady (s : State) : State :=
  pinSet .active (if pinLevel s = .active then pinSet .inactive s else s)

/-- `cs_reset()` (R137). -/
def csReset (s : State) : State := pinSet .inactive s

/-- The bytes a read frame sends: the word and `n` zero bytes (R140, 92 D5). -/
def readFrameBytes (op : Opcode) (a : Addr) (n : Nat) : List Byte := be16 (encodeWord op a) ++ List.replicate n 0

/-- The bytes a write frame sends: the word and the payload (R141). -/
def writeFrameBytes (op : Opcode) (a : Addr) (p : List Byte) : List Byte := be16 (encodeWord op a) ++ p

/-- `frame_read(op, a, n)` (R140): its result drops the two bytes clocked in during the word. -/
def frameRead (op : Opcode) (a : Addr) (n : Nat) : Op TransportError (List Byte) := fun s =>
  match spiTransfer (readFrameBytes op a n) (csReady s) with
  | (some bytesIn, t) => Op.pure (bytesIn.drop 2) (csReset t)
  | (none, t) => Op.raise .spiRead (csReset t)

/-- `frame_write(op, a, p)` (R141). -/
def frameWrite (op : Opcode) (a : Addr) (p : List Byte) : Op TransportError Unit := fun s =>
  match spiWrite (writeFrameBytes op a p) (csReady s) with
  | (true, t) => Op.pure () (csReset t)
  | (false, t) => Op.raise .spiWrite (csReset t)

/-! ### Returning to the host -/

/-- Give the host a result (R13, R336): the only thing an error leaves behind. -/
def State.reply (r : Reply) (s : State) : State := { s with replies := s.replies ++ [r] }

/-- Run an operation and give the host what it returned. -/
def Op.finish {ε α : Type} (m : Op ε α) (f : α → Value) (g : ε → Error) (s : State) : State :=
  match m s with
  | (.ok a, t) => t.reply (.done (.ok (f a)))
  | (.err e, t) => t.reply (.done (.err (g e)))

/-! ### Several Controllers (R39, R345) -/

/-- The Controller in use, as one of several. -/
def State.line (s : State) : Line :=
  { cs := s.cs, owned := s.owned, handles := s.handles, trace := s.trace, env := s.env, script := s.script, mem := s.mem,
    wire := s.wire, draws := s.draws }

/-- The state with another Controller in use. -/
def State.withLine (s : State) (l : Line) : State :=
  { s with
    cs := l.cs
    owned := l.owned
    handles := l.handles
    trace := l.trace
    env := l.env
    script := l.script
    mem := l.mem
    wire := l.wire
    draws := l.draws }

/-- Every Controller, the one in use first. -/
def State.lines (s : State) : List Line := s.line :: s.others

/-- Handles that no Controller was constructed from yet: their chip and its answers are new (log 35). -/
def Line.fresh (env : Oracle) (h : Handles) : Line :=
  { cs := .inactive, owned := false, handles := h, trace := [], env := env, script := [], mem := [], wire := [], draws := 0 }

/-- The state whose Controller in use is the one on the given handles: "a model of two Controllers interleaves whole operations"
(R345), so the host may turn to another between any two. -/
def State.focus (h : Handles) (s : State) : State :=
  if h = s.handles then s
  else
    { s.withLine ((s.others.find? fun l => l.handles == h).getD (Line.fresh s.env h)) with
      others := s.line :: s.others.filter fun l => l.handles != h }

/-- Whether a Controller holds the bus or the pin of the given handles (R39). -/
def State.holds (s : State) (h : Handles) : Bool :=
  s.lines.any fun l => l.owned && (l.handles.bus == h.bus || l.handles.pin == h.pin)

/-- Whether a Controller on exactly these handles exists. -/
def State.hasController (s : State) (h : Handles) : Bool := s.lines.any fun l => l.owned && l.handles == h

/-- A step of a Controller that exists: "no further operation on it exists" once `free()` consumed it (R161). -/
def withController (s : State) (next : State) : Host.Outcome State Fault Refusal :=
  if s.owned then .next next else .refused .controllerReleased

end Sys2Proof.Machine
end

