-- ==== Sys2Proof/Machine/Transactions.lean ====
section
/-! DEFINITION. The transaction operations of the Controller (spec/41_transactions.md). Every check comes before any event (R178), and every
access goes through the two generic frames of Machine/Ops.lean. -/

namespace Sys2Proof.Machine

open Sys2Proof

/-! ### Life cycle -/

/-- `new(bus, pin)` (R160): drives select inactive and owns the handles; the trace of the new Controller begins with that event
(R38, log 13). It is then the Controller in use, and any other stays as it is: "they are independent". -/
def construct (h : Handles) (s : State) : State :=
  pinSet .inactive { s.focus h with owned := true, trace := [] }

/-- `free()` (R161): drives select inactive and gives the handles back. -/
def release (s : State) : State := { pinSet .inactive s with owned := false }

/-! ### SFR accessors -/

/-- The opcode of an SFR read, and of an SFR write (R102). -/
def sfrReadOp (p : Params) : Opcode :=
  match p.sfrOpcodes with
  | .combined => p.opRead
  | .registerOnly => p.opReadSfr

def sfrWriteOp (p : Params) : Opcode :=
  match p.sfrOpcodes with
  | .combined => p.opWrite
  | .registerOnly => p.opWriteSfr

/-- A register read at an address: 4 payload bytes, little-endian (R66, R162). -/
def readRegAt (a : Addr) : Op TransportError Word := fun s =>
  Op.map fromLE32 id (frameRead (sfrReadOp s.cfg) a 4) s

/-- A register write at an address (R163). -/
def writeRegAt (a : Addr) (v : Word) : Op TransportError Unit := fun s =>
  frameWrite (sfrWriteOp s.cfg) a (le32 v) s

/-- Read, transform, write: two frames; nothing is written when the read fails, and the write is never left out
(R164, R165, R172). -/
def modifyRegAt (a : Addr) (f : Word → Word) : Op TransportError Unit :=
  Op.bind (readRegAt a) fun v => writeRegAt a (f v)

/-- `read_sfr` (R162). -/
def readSfr (r : Sfr) : Op TransportError Word := fun s => readRegAt (s.cfg.sfrAddrOf r) s

/-- `write_sfr` (R163). -/
def writeSfr (r : Sfr) (v : Word) : Op TransportError Unit := fun s => writeRegAt (s.cfg.sfrAddrOf r) v s

/-- `modify_sfr(T, f)` (R164), for any transform of the type. -/
def modifySfr (r : FixedReg) (f : RegWord r.reg → RegWord r.reg) : Op TransportError Unit := fun s =>
  modifyRegAt (s.cfg.sfrAddrOf r.sfr) (fun v => (f ⟨v⟩).bits) s

/-- `reset_chip()` (R133): RESET with address 0x000. -/
def resetChip : Op TransportError Unit := fun s => frameWrite s.cfg.opReset 0 [] s

/-! ### RAM accessors -/

/-- `read_ram(addr, buf)` (R166): the result, the buffer the caller gets back, and the state. The buffer is as given when the
bounds check fails, and holds any bytes when the transfer fails (92 D64; log 16). -/
def readRam (addr : Nat) (buf : List Byte) (s : State) : (Result Error Unit × List Byte) × State :=
  if ramOk s.cfg addr buf.length then
    match frameRead s.cfg.opRead (BitVec.ofNat 12 addr) buf.length s with
    | (.ok bytes, t) => ((.ok (), bytes), t)
    | (.err e, t) =>
      ((.err e.toError, (List.range buf.length).map (Config.freeBufferByte s.handles s.draws addr)), t)
  else ((.err (.invalidRamAddress addr), buf), s)

/-- `write_ram(addr, bytes)` (R167). -/
def writeRam (addr : Nat) (bytes : List Byte) : Op Error Unit := fun s =>
  if ramOk s.cfg addr bytes.length then
    Op.map id TransportError.toError (frameWrite s.cfg.opWrite (BitVec.ofNat 12 addr) bytes) s
  else Op.raise (.invalidRamAddress addr) s

/-! ### FIFO accessors -/

/-- The FIFO address lookups (R169): no event. -/
def fifoAddress (k : FifoReg) (n : Nat) : Op Error Addr := fun s =>
  match fifoRegAddress s.cfg k n with
  | .ok a => Op.pure a s
  | .err e => Op.raise e s

/-- `read_fifo_control`, `read_fifo_status`, `read_fifo_user_address` (R170, R171, R174). -/
def readFifo (k : FifoReg) (n : Nat) : Op Error (RegWord k.reg) :=
  Op.bind (fifoAddress k n) fun a => Op.map (fun v => ⟨v⟩) TransportError.toError (readRegAt a)

/-- `modify_fifo_control`, `modify_fifo_status`, `modify_fifo_user_address` (R172, R173, R175). -/
def modifyFifo (k : FifoReg) (n : Nat) (f : RegWord k.reg → RegWord k.reg) : Op Error Unit :=
  Op.bind (fifoAddress k n) fun a =>
    Op.map id TransportError.toError (modifyRegAt a fun v => (f ⟨v⟩).bits)

/-! ### Transmit event FIFO -/

/-- The object count in its place, the low four bits of C1TEFCON's FSIZE: bits 27:24 (R177, R222; log 32). -/
def tefCountBits (p : Params) (count : BitVec 4) : Word := count.setWidth 32 <<< RegField.lo p .tef_FSIZE

/-- `enable_transmit_event_fifo(count)` (R177): sets STEF, then ORs the count into C1TEFCON. -/
def enableTef (count : BitVec 4) : Op TransportError Unit := fun s =>
  Op.bind (modifySfr .chipControl fun c => RegField.setBool s.cfg .chip_STEF c true) (fun _ =>
    Op.bind (readSfr .c1tefcon) fun v => writeSfr .c1tefcon (v ||| tefCountBits s.cfg count)) s

end Sys2Proof.Machine
end

