-- ==== Sys2Proof/Machine/Sequencer.lean ====
section
/-! DEFINITION. The host-side Configuration Sequencer (spec/47_host_sequencer.md): one transition of R301 a step (log 20). -/

namespace Sys2Proof.Machine

open Sys2Proof

/-- The phase that follows an operation: `Err e => Failed(Other(e))` (R302, R304). -/
def nextPhase {α : Type} (next : SeqPhase) : Result TransportError α × State → SeqPhase × State
  | (.ok _, t) => (next, t)
  | (.err e, t) => (.failed (.other e), t)

/-- A polled reading: a transport failure counts as zero (R305, R308). -/
def pollReading : Result TransportError Word → Word
  | .ok w => w
  | .err _ => 0

/-- RequestingConfigMode (R304): "The code for Configuration (0b100) is what the host sequencer writes and waits for" (R207), and it is
written also where OPMODE_MAPPED leaves it out; then no reading of OPMOD is Configuration (log 36). -/
def requestConfigMode (s : State) : SeqPhase × State :=
  nextPhase (.awaitingConfigMode 1) (modifySfr .chipControl (fun c => setReqop s.cfg c .configuration) s)

/-- One attempt of AwaitingConfigMode (R305): read, then a delay after each failed attempt but the last. -/
def pollConfigMode (attempt : Nat) (s : State) : SeqPhase × State :=
  match readSfr .c1con s with
  | (r, t) =>
    if getOpmod s.cfg ⟨pollReading r⟩ = .mode .configuration then (.verifyingComms 0, t)
    else if attempt < configPollAttempts then (.awaitingConfigMode (attempt + 1), delayUs pollDelayUs t)
    else (.failed .configurationModeTimeout, t)

/-- The pattern of the echo test for a bit: `NATIVE32(1 << i)` (R306). -/
def echoPattern (p : Params) (bit : Nat) : List Byte := native32 p.hostEndian ((1 : Word) <<< bit)

/-- An error of the echo's RAM accesses as a ConfigError (R306). Its address is in bounds under either RAM_BOUND_RULE, so only
the first two lines are ever used (log 25; Laws/Ops.lean). -/
def echoError : Error → ConfigError
  | .spiRead => .other .spiRead
  | .spiWrite => .other .spiWrite
  | .invalidFifo _ | .invalidRamAddress _ | .configurationModeTimeout | .spiFailedRamEcho | .pllNotReady
  | .other _ | .invalidFifoSize _ => .spiFailedRamEcho

/-- One bit of VerifyingComms (R306): write the pattern, read it back, compare. -/
def verifyBit (bit : Nat) (s : State) : SeqPhase × State :=
  match writeRam echoAddr (echoPattern s.cfg bit) s with
  | (.err e, t) => (.failed (echoError e), t)
  | (.ok _, t) =>
    match readRam echoAddr [0, 0, 0, 0] t with
    | ((.err e, _), u) => (.failed (echoError e), u)
    | ((.ok _, buf), u) =>
      if buf ≠ echoPattern s.cfg bit then (.failed .spiFailedRamEcho, u)
      else if bit < 31 then (.verifyingComms (bit + 1), u)
      else (.programmingOscillator, u)

/-- The clock divider of Settings in its field: SCLKDIV, or CLKODIV where the parameter says so (R307, 92 D56; log 19). -/
def setClockDivider (p : Params) (o : RegWord .oscillator) (by2 : Bool) : RegWord .oscillator :=
  match p.clockDivider with
  | .sclkdiv => RegField.setBool p .osc_SCLKDIV o by2
  | .clkodiv => setClkodiv p o (if by2 then .div2 else .div1)

/-- The oscillator transform of R307. -/
def oscTransform (p : Params) (osc : OscSettings) (o : RegWord .oscillator) : RegWord .oscillator :=
  RegField.setBool p .osc_OSCDIS
    (setClockDivider p (RegField.setBool p .osc_PLLEN o osc.pllEnable) osc.clockDivideBy2) false

/-- ProgrammingOscillator (R307), then AwaitingPLL only if the PLL was requested on (R301, R308). -/
def programOscillator (osc : OscSettings) (s : State) : SeqPhase × State :=
  nextPhase (if osc.pllEnable then .awaitingPll 1 else .programmingIo)
    (modifySfr .oscillator (oscTransform s.cfg osc) s)

/-- One attempt of AwaitingPLL (R308). -/
def pollPll (attempt : Nat) (s : State) : SeqPhase × State :=
  match readSfr .osc s with
  | (r, t) =>
    if RegField.getBool s.cfg .osc_PLLRDY ⟨pollReading r⟩ then (.programmingIo, t)
    else if attempt < pllPollAttempts then (.awaitingPll (attempt + 1), delayUs pollDelayUs t)
    else (.failed .pllNotReady, t)

/-- The IO-configuration word built from zero (R309). -/
def ioWord (p : Params) (io : IoSettings) : RegWord .ioConfiguration :=
  RegField.setBool p .io_PM1
    (RegField.setBool p .io_PM0
      (RegField.setBool p .io_SOF
        (RegField.setBool p .io_INTOD
          (RegField.setBool p .io_TXCANOD
            (RegField.setBool p .io_XSTBYEN ⟨0⟩ io.standbyEnable)
            io.txcanOpenDrain)
          io.intOpenDrain)
        io.sofOnClko)
      io.gpio0Mode)
    io.gpio1Mode

/-- ProgrammingIO (R309): a plain write. -/
def programIo (io : IoSettings) (s : State) : SeqPhase × State :=
  nextPhase .programmingTxQueue (writeSfr .iocon (ioWord s.cfg io).bits s)

/-- The first TX-queue transform of R310: retransmission and priority. -/
def txqTransform (p : Params) (q : TxqSettings) (t : RegWord .txQueueControl) : RegWord .txQueueControl :=
  setTxqPriority p (setTxqTxat p t q.retransmission) q.priority

/-- The second TX-queue transform of R310: depth and payload; made only when the size is not 0, so the depth is `ok`. -/
def txqSizeTransform (p : Params) (q : TxqSettings) (t : RegWord .txQueueControl) : RegWord .txQueueControl :=
  match setTxqFifoSize p t q.size with
  | .ok t' => setTxqPlsize p t' q.payload
  | .err _ => t

/-- The chip-control word the reconcile of R310 wants: TXQEN, and the TEF bit where the parameter names one (90 C2). -/
def reconcileWord (p : Params) (inUse : Bool) (c : RegWord .chipControl) : RegWord .chipControl :=
  let c' := RegField.setBool p .chip_TXQEN c inUse
  match p.tefReconcileBit with
  | none => c'
  | some b => setBit c' b (!inUse)

/-- The reconcile of R310: a read, and a write only when the word differs. -/
def reconcile (inUse : Bool) : Op TransportError Unit := fun s =>
  Op.bind (readSfr .c1con) (fun c =>
    if (reconcileWord s.cfg inUse ⟨c⟩).bits ≠ c then writeSfr .c1con (reconcileWord s.cfg inUse ⟨c⟩).bits
    else Op.pure ()) s

/-- The frames of ProgrammingTxQueue (R310). -/
def txQueueFrames (q : TxqSettings) : Op TransportError Unit := fun s =>
  Op.bind (modifySfr .txQueueControl (txqTransform s.cfg q)) (fun _ =>
    Op.bind (if q.size ≠ 0 then modifySfr .txQueueControl (txqSizeTransform s.cfg q) else Op.pure ()) fun _ =>
      reconcile (decide (q.size ≠ 0))) s

/-- ProgrammingTxQueue (R310). -/
def programTxQueue (q : TxqSettings) (s : State) : SeqPhase × State := nextPhase .configured (txQueueFrames q s)

/-- The transition out of a state that is not terminal; a terminal one stays (R303). -/
def seqTransition (settings : Settings) (phase : SeqPhase) (s : State) : SeqPhase × State :=
  match phase with
  | .unconfigured => (.requestingConfigMode, s)
  | .requestingConfigMode => requestConfigMode s
  | .awaitingConfigMode attempt => pollConfigMode attempt s
  | .verifyingComms bit => verifyBit bit s
  | .programmingOscillator => programOscillator settings.osc s
  | .awaitingPll attempt => pollPll attempt s
  | .programmingIo => programIo settings.io s
  | .programmingTxQueue => programTxQueue settings.txq s
  | .configured => (.configured, s)
  | .failed reason => (.failed reason, s)

/-- What `configure()` returns from a terminal state (R302, R311). -/
def terminalReply : SeqPhase → Option Reply
  | .configured => some (.done (.ok .unit))
  | .failed reason => some (.done (.err reason.toError))
  | _ => none

/-- One step of a `configure()` in progress: a terminal state returns to the host and is not retained (R35, R303). -/
def seqNext (run : SeqRun) (s : State) : State :=
  match terminalReply run.phase with
  | some r => { s.reply r with seq := none }
  | none =>
    match seqTransition run.settings run.phase s with
    | (phase, t) => { t with seq := some { run with phase := phase } }

def seqStep (run : SeqRun) (s : State) : Host.Outcome State Fault Refusal := withController s (seqNext run s)

end Sys2Proof.Machine
end

