-- ==== Sys2Proof/Machine/Calls.lean ====
section
/-! DEFINITION. The host's calls (spec/30_encoding.md R101) run on the state, and what the host asks for next. -/

namespace Sys2Proof.Machine

open Sys2Proof

/-- A `modify_sfr` called with a transform written as data: the transform's own validation comes before any event (R178). -/
def callModifySfr (r : FixedReg) (f : List (Update r.reg)) (s : State) : State :=
  match checkUpdates s.cfg f with
  | some e => s.reply (.done (.err e))
  | none => Op.finish (modifySfr r (transformOf s.cfg f)) (fun _ => .unit) TransportError.toError s

/-- A FIFO modify, likewise: the size of R213 is checked before the modify is called, and so before the index (R178). -/
def callModifyFifo (k : FifoReg) (n : Nat) (f : List (Update k.reg)) (s : State) : State :=
  match checkUpdates s.cfg f with
  | some e => s.reply (.done (.err e))
  | none => Op.finish (modifyFifo k n (transformOf s.cfg f)) (fun _ => .unit) id s

/-- A `read_ram` call: the result and the buffer (R166). -/
def callReadRam (addr : Nat) (buf : List Byte) (s : State) : State :=
  match readRam addr buf s with
  | ((.ok _, buf'), t) => t.reply (.readRam (.ok .unit) buf')
  | ((.err e, buf'), t) => t.reply (.readRam (.err e) buf')

/-- Whether every value a call would set is one its setter accepts (R202, R223; log 18). A `configure` sets the payload size only
when the queue's size is not 0 (R310), and the mode Configuration whatever OPMODE_MAPPED says (log 36). -/
def Call.settable (p : Params) : Call → Bool
  | .modifySfr _ f => f.all (Update.settable p)
  | .modifyFifo _ _ f => f.all (Update.settable p)
  | .configure settings => settings.txq.size == 0 || PayloadSize.settable p settings.txq.payload
  | _ => true

/-- Why a call has no next state: `new` needs handles that no Controller holds (R39, R160); the address lookups are pure and need
nothing (R169; log 17); every other call needs a Controller (R161), and no call sets a value that its setter excludes (R202, R223). -/
def callRefusal (c : Call) (s : State) : Option Refusal :=
  match c with
  | .new h => if s.holds h then some .handlesHeld else none
  | .fifoAddress _ _ => none
  | c => if s.owned then if Call.settable s.cfg c then none else some .notSettable else some .controllerReleased

/-- The state after a call that is not refused. -/
def callNext (c : Call) (s : State) : State :=
  match c with
  | .new h => (construct h s).reply (.done (.ok (.controller h)))
  | .free => (release s).reply (.done (.ok (.handles s.handles)))
  | .resetChip => Op.finish resetChip (fun _ => .unit) TransportError.toError s
  | .readSfr r => Op.finish (readSfr r) Value.word TransportError.toError s
  | .writeSfr r v => Op.finish (writeSfr r v) (fun _ => .unit) TransportError.toError s
  | .modifySfr r f => callModifySfr r f s
  | .readRam addr buf => callReadRam addr buf s
  | .writeRam addr bytes => Op.finish (writeRam addr bytes) (fun _ => .unit) id s
  | .fifoAddress k n => Op.finish (fifoAddress k n) Value.addr id s
  | .readFifo k n => Op.finish (readFifo k n) (Value.reg k.reg) id s
  | .modifyFifo k n f => callModifyFifo k n f s
  | .enableTef count => Op.finish (enableTef count) (fun _ => .unit) TransportError.toError s
  | .configure settings => { s with seq := some ⟨settings, .unconfigured⟩ }

/-- Run one call. -/
def runCall (c : Call) (s : State) : Host.Outcome State Fault Refusal :=
  match callRefusal c s with
  | some r => .refused r
  | none => .next (callNext c s)

/-- What the next step does. -/
inductive Fetched where
  | sequencer (run : SeqRun)
  | idle
  | frame (bytes : List Byte)
  | call (c : Call)
  | use (h : Handles)
  deriving DecidableEq, Repr

/-- The host is single-threaded (R22): a `configure()` in progress goes on; else the first request is taken; with none,
nothing happens (log 21). -/
def fetch (s : State) : Fetched × State :=
  match s.seq with
  | some run => (.sequencer run, s)
  | none =>
    match s.requests with
    | [] => (.idle, s)
    | .frame bytes :: rest => (.frame bytes, { s with requests := rest })
    | .call c :: rest => (.call c, { s with requests := rest })
    | .use h :: rest => (.use h, { s with requests := rest })

/-- The host turns to the Controller on the given handles: no operation, no event (R39, R345; log 35). -/
def runUse (h : Handles) (s : State) : Host.Outcome State Fault Refusal :=
  if s.hasController h then .next (s.focus h) else .refused .controllerReleased

/-- The instruction of a frame run by `run`, or its refusal by name (R98). -/
def runFrame (run : Instr → State → Host.Outcome State Fault Refusal) (bytes : List Byte) (s : State) :
    Host.Outcome State Fault Refusal :=
  match decode s.cfg bytes with
  | .ok i => run i s
  | .error e => .refused (.undecodable e)

/-- The state whose next step runs the given frame. -/
def placeFrame (s : State) (bytes : List Byte) : State :=
  { s with seq := none, requests := .frame bytes :: s.requests }

end Sys2Proof.Machine
end

