-- ==== Sys2Proof/Machine/SpiInstructions.lean ====
section
/-! DEFINITION. The meanings of the five SPI instructions (spec/40_spi_instructions.md R131 to R135). Each sends one frame and gives
the host its result; a failed primitive is an error result, not a stop (R334). -/

namespace Sys2Proof.Machine

open Sys2Proof

/-- RESET (R133): `frame_write(OP_RESET, a, [])`; the block itself sends address 0x000 (R95, log 10). -/
def execReset (a : Addr) (s : State) : Host.Outcome State Fault Refusal :=
  withController s (Op.finish (frameWrite s.cfg.opReset a []) (fun _ => .unit) TransportError.toError s)

/-- READ (R131): `frame_read(OP_READ, a, n)`, whose result is the n payload bytes. -/
def execRead (a : Addr) (n : Nat) (s : State) : Host.Outcome State Fault Refusal :=
  withController s (Op.finish (frameRead s.cfg.opRead a n) Value.bytes TransportError.toError s)

/-- WRITE (R132): `frame_write(OP_WRITE, a, p)`. -/
def execWrite (a : Addr) (payload : List Byte) (s : State) : Host.Outcome State Fault Refusal :=
  withController s (Op.finish (frameWrite s.cfg.opWrite a payload) (fun _ => .unit) TransportError.toError s)

/-- A step that sends a register-only opcode: "emitted only under SFR_OPCODES = RegisterOnly" (R134, R135). -/
def withRegisterOnly (s next : State) : Host.Outcome State Fault Refusal :=
  match s.cfg.sfrOpcodes with
  | .combined => if s.owned then .refused .notRegisterOnly else .refused .controllerReleased
  | .registerOnly => withController s next

/-- READ_SFR (R134): a read frame of 4 bytes, whose result is their little-endian word. -/
def execReadSfr (a : Addr) (s : State) : Host.Outcome State Fault Refusal :=
  withRegisterOnly s
    (Op.finish (frameRead s.cfg.opReadSfr a 4) (fun b => .word (fromLE32 b)) TransportError.toError s)

/-- WRITE_SFR (R135): a write frame whose payload is `LE32(v)`. -/
def execWriteSfr (a : Addr) (v : Word) (s : State) : Host.Outcome State Fault Refusal :=
  withRegisterOnly s (Op.finish (frameWrite s.cfg.opWriteSfr a (le32 v)) (fun _ => .unit) TransportError.toError s)

end Sys2Proof.Machine
end

