-- ==== Sys2Proof/Machine/Dispatch.lean ====
section
/-! DEFINITION. One arm per instruction of spec/opcode_table.json. -/

namespace Sys2Proof.Machine

open Sys2Proof

def exec (i : Instr) (s : State) : Host.Outcome State Fault Refusal :=
  match i with
  | .reset a => Sys2Proof.Machine.execReset a s
  | .read a n => Sys2Proof.Machine.execRead a n s
  | .write a payload => Sys2Proof.Machine.execWrite a payload s
  | .readSfr a => Sys2Proof.Machine.execReadSfr a s
  | .writeSfr a v => Sys2Proof.Machine.execWriteSfr a v s

end Sys2Proof.Machine
end

