-- ==== Sys2Proof/Machine/Step.lean ====
section
/-! DEFINITION. One step of the machine: one request of the host, or one transition of the sequencer (spec/10_state.md R21, R22). -/

namespace Sys2Proof.Machine

open Sys2Proof

/-- One step. -/
def step (s : State) : Host.Outcome State Fault Refusal :=
  match fetch s with
  | (.sequencer run, t) => seqStep run t
  | (.idle, t) => .next t
  | (.frame bytes, t) => runFrame exec bytes t
  | (.call c, t) => runCall c t
  | (.use h, t) => runUse h t

/-- The opcode-table instruction with bits `w`, placed where the next step takes its request (log 1, log 12). -/
def State.withFetchWord (s : State) (nbits w : Nat) : State := placeFrame s (tableFrame s.cfg nbits w)

end Sys2Proof.Machine
end

