-- ==== Sys2Proof/Machine/Asm.lean ====
section
/-! DEFINITION. The text form of the instructions that the spec's tests and programs use (spec/30_encoding.md R100; log 33). -/

namespace Sys2Proof

/-- A number in hexadecimal with at least `digits` digits. -/
def hexText (digits n : Nat) : String :=
  let ds := Nat.toDigits 16 n
  "0x" ++ String.ofList (List.replicate (digits - ds.length) '0' ++ ds.map Char.toUpper)

/-- A byte list, comma separated. -/
def bytesText : List Byte → String
  | [] => ""
  | [b] => hexText 2 b.toNat
  | b :: rest => hexText 2 b.toNat ++ ", " ++ bytesText rest

/-- The text of an instruction (R100). R100 gives RESET no operand and no form for a RESET frame whose address field is not 0: the model
prints RESET and drops the address. DESIGN CHOICE (log 33), safe: no step reads the text. -/
def Instr.text : Instr → String
  | .reset _ => "RESET"
  | .read a n => "READ " ++ hexText 3 a.toNat ++ ", " ++ toString n
  | .write a p => "WRITE " ++ hexText 3 a.toNat ++ ", [" ++ bytesText p ++ "]"
  | .readSfr a => "READ_SFR " ++ hexText 3 a.toNat
  | .writeSfr a v => "WRITE_SFR " ++ hexText 3 a.toNat ++ ", " ++ hexText 8 v.toNat

end Sys2Proof
end

