-- ==== Sys2Proof/Machine/Header.lean ====
section
/-! DEFINITION. The CAN message header codec (spec/43_message_headers.md): pure functions over a fixed byte buffer, with no bus
access (R276). -/

namespace Sys2Proof

/-- A header buffer: exactly 8 bytes for TX and 12 for RX (R33, R260). Every byte pattern is legal. -/
structure Header (k : HdrKind) where
  bytes : List Byte
  size : bytes.length = 4 * k.words
  deriving DecidableEq, Repr

abbrev TxHeader := Header .tx
abbrev RxHeader := Header .rx

/-- `new()`: all zero bytes (R262). -/
def Header.new (k : HdrKind) : Header k := ⟨List.replicate (4 * k.words) 0, List.length_replicate⟩

/-- `from(bytes)`: wraps a buffer of the right length unchanged; another length is refused (R262). -/
def Header.from? (k : HdrKind) (bytes : List Byte) : Option (Header k) :=
  if h : bytes.length = 4 * k.words then some ⟨bytes, h⟩ else none

/-- Word k of a header: `fromLE32(buf[4k .. 4k+3])` (R261). -/
def Header.word {k : HdrKind} (h : Header k) (i : Nat) : Word := fromLE32 ((h.bytes.drop (4 * i)).take 4)

/-- The bytes with `LE32(w)` stored into `buf[4k .. 4k+3]` (R261). -/
def storeWord (bytes : List Byte) (i : Nat) (w : Word) : List Byte :=
  bytes.take (4 * i) ++ le32 w ++ bytes.drop (4 * i + 4)

theorem storeWord_length (bytes : List Byte) (i : Nat) (w : Word) (h : 4 * i + 4 ≤ bytes.length) :
    (storeWord bytes i w).length = bytes.length := by
  simp [storeWord, le32]; omega

/-- Setting word k of a header (R261); a header has no word past its last. -/
def Header.setWord {k : HdrKind} (h : Header k) (i : Nat) (w : Word) : Header k :=
  if hi : 4 * i + 4 ≤ h.bytes.length then ⟨storeWord h.bytes i w, (storeWord_length h.bytes i w hi).trans h.size⟩ else h

/-- `get_F` of a header field (R267). -/
def HField.get (p : Params) {k : HdrKind} (f : HField k) (h : Header k) : BitVec (f.width p) :=
  getBits (h.word (f.word p)) (f.lo p) (f.width p)

/-- `set_F` of a header field (R267): no cross-field validation. -/
def HField.set (p : Params) {k : HdrKind} (f : HField k) (h : Header k) (v : BitVec (f.width p)) : Header k :=
  h.setWord (f.word p) (setBits (h.word (f.word p)) (f.lo p) (f.width p) v)

/-- The one-bit fields as Booleans (R205, R267). -/
def getIde (p : Params) {k : HdrKind} (h : Header k) : Bool := bitToBool (HField.get p .ide h)
def setIde (p : Params) {k : HdrKind} (h : Header k) (b : Bool) : Header k := HField.set p .ide h (boolToBit b)
def getRtr (p : Params) {k : HdrKind} (h : Header k) : Bool := bitToBool (HField.get p .rtr h)
def setRtr (p : Params) {k : HdrKind} (h : Header k) (b : Bool) : Header k := HField.set p .rtr h (boolToBit b)
def getBrs (p : Params) {k : HdrKind} (h : Header k) : Bool := bitToBool (HField.get p .brs h)
def setBrs (p : Params) {k : HdrKind} (h : Header k) (b : Bool) : Header k := HField.set p .brs h (boolToBit b)
def getFdf (p : Params) {k : HdrKind} (h : Header k) : Bool := bitToBool (HField.get p .fdf h)
def setFdf (p : Params) {k : HdrKind} (h : Header k) (b : Bool) : Header k := HField.set p .fdf h (boolToBit b)
def getEsi (p : Params) {k : HdrKind} (h : Header k) : Bool := bitToBool (HField.get p .esi h)
def setEsi (p : Params) {k : HdrKind} (h : Header k) (b : Bool) : Header k := HField.set p .esi h (boolToBit b)

/-- `id(h)` (R268): the 29-bit identifier when IDE is set, else the standard one. -/
def Header.id (p : Params) {k : HdrKind} (h : Header k) : BitVec 29 :=
  if getIde p h then ((HField.get p .sid h).setWidth 29 <<< 18) ||| (HField.get p .eid h).setWidth 29
  else (HField.get p .sid h).setWidth 29

/-- `set_standard_id` (R269): clears EID and IDE. -/
def setStandardId (p : Params) {k : HdrKind} (h : Header k) (i : BitVec 11) : Header k :=
  setIde p (HField.set p .eid (HField.set p .sid h i) (0 : BitVec 18)) false

/-- `set_extended_id` (R269). -/
def setExtendedId (p : Params) {k : HdrKind} (h : Header k) (i : BitVec 29) : Header k :=
  setIde p (HField.set p .eid (HField.set p .sid h (i.extractLsb' 18 11)) (i.extractLsb' 0 18)) true

/-- The receive timestamp: word 2, no conversion (R266, R274). -/
def timestamp (h : RxHeader) : Word := h.word 2

/-- `set_timestamp` (R274). -/
def setTimestamp (h : RxHeader) (t : Word) : RxHeader := h.setWord 2 t

/-- `dlc_to_len` (R270), whatever FDF says. -/
def dlcToLen (d : BitVec 4) : Nat :=
  [0, 1, 2, 3, 4, 5, 6, 7, 8, 12, 16, 20, 24, 32, 48, 64].getD d.toNat 0

/-- `len_to_dlc` (R271): exact; a length not in the table gets no code. -/
def lenToDlc (n : Nat) : Option (BitVec 4) :=
  ([0, 1, 2, 3, 4, 5, 6, 7, 8, 9, 10, 11, 12, 13, 14, 15] : List (BitVec 4)).find? fun d => dlcToLen d = n

end Sys2Proof
end

