-- ==== Sys2Proof/Safety.lean ====
section
/-! DEFINITION. What counts as a safe state and a safe trace, in the terms the claims use. -/

namespace Sys2Proof.Machine

open Sys2Proof

/-- What holds of every Controller between operations: its line is inactive (R136, R37), no frame is open on the wire, and its stub's
memory has its canonical form. -/
structure Line.Idle (l : Line) : Prop where
  csInactive : l.cs = .inactive
  wireEmpty : l.wire = []
  memWf : Memory.wf l.mem

/-- Two Controllers that both exist hold neither bus nor pin in common: each "holds both handles exclusively" (R39). -/
abbrev Line.Exclusive (l m : Line) : Prop :=
  l.owned = true → m.owned = true → l.handles.bus ≠ m.handles.bus ∧ l.handles.pin ≠ m.handles.pin

/-- Between operations every Controller is idle, no two have the same handles, those that exist hold theirs exclusively, and a
`configure()` in progress has its Controller. -/
structure State.Inv (s : State) : Prop where
  idle : ∀ l ∈ s.lines, l.Idle
  distinct : s.lines.Pairwise fun l m => l.handles ≠ m.handles
  exclusive : s.lines.Pairwise Line.Exclusive
  seqOwned : s.seq.isSome = true → s.owned = true

/-- Everything that is the host's or the block's configuration: no frame touches it (R334, R336). -/
structure SameHost (s t : State) : Prop where
  cfg : t.cfg = s.cfg
  owned : t.owned = s.owned
  handles : t.handles = s.handles
  replies : t.replies = s.replies
  requests : t.requests = s.requests
  seq : t.seq = s.seq
  env : t.env = s.env
  others : t.others = s.others

/-! ### The chip-select protocol as a language of traces (R130, R136, R374) -/

/-- Where a trace stands: no frame open, select active with nothing sent yet, or the frame's one primitive call made. -/
inductive FrameState where
  | closed | selected | sent
  deriving DecidableEq, Repr

/-- One event of a legal trace: an inactive-to-active edge, exactly one primitive call, then inactive (R374, R138). -/
def FrameState.next : FrameState → Event → Option FrameState
  | .closed, .pinSet .inactive => some .closed
  | .closed, .pinSet .active => some .selected
  | .closed, .delay _ => some .closed
  | .selected, .write _ _ => some .sent
  | .selected, .transfer _ _ => some .sent
  | .sent, .pinSet .inactive => some .closed
  | _, _ => none

/-- Where a trace ends, if it is legal so far. -/
def frameState (t : List Event) : Option FrameState :=
  t.foldl (fun o e => o.bind fun f => f.next e) (some .closed)

/-- The trace is a sequence of whole frames, with nothing but idle levels and delays between them. -/
abbrev WholeFrames (t : List Event) : Prop := frameState t = some .closed

/-- The events of `cs_ready` from a line at a level: "drive inactive first if currently active, then drive active" (R130). -/
def readyEvents : Level → List Event
  | .active => [.pinSet .inactive, .pinSet .active]
  | .inactive => [.pinSet .active]

/-! ### What goes on the wire -/

/-- The bytes an event sends, if it is a primitive call. -/
def Event.sent : Event → Option (List Byte)
  | .write bytes _ => some bytes
  | .transfer out _ => some out
  | .pinSet _ => none
  | .delay _ => none

/-- The word that opens a frame. -/
def frameWord (bytes : List Byte) : BitVec 16 := fromBE16 (bytes.getD 0 0) (bytes.getD 1 0)

/-- "Every emitted word is exactly one of the five instructions" (R103): what an event sends is a word, of one of the five
opcodes, with its payload; read opcodes go out by transfer, the others by write (R138). -/
def Event.IsInstruction (p : Params) : Event → Prop
  | .write bytes _ => 2 ≤ bytes.length ∧ wordOpcode (frameWord bytes) ∈ p.writeOpcodes
  | .transfer out _ => 2 ≤ out.length ∧ wordOpcode (frameWord out) ∈ p.readOpcodes
  | .pinSet _ => True
  | .delay _ => True

/-- An event of an operation of the Controller: what it sends is RESET's word at address 0x000 (R95), a whole register at an
enumerated SFR's address with the opcode SFR_OPCODES selects (R51, R102), or a RAM access that `ram_ok` admits (R64). "The Controller
cannot emit a frame" to any other address (R53). -/
def Event.ByController (p : Params) : Event → Prop
  | .write bytes _ =>
    bytes = be16 (encodeWord p.opReset 0x000) ∨
    (∃ (r : Sfr) (v : Word), bytes = be16 (encodeWord (sfrWriteOp p) (p.sfrAddrOf r)) ++ le32 v) ∨
    (∃ (a : Addr) (payload : List Byte), ramOk p a.toNat payload.length = true ∧
      bytes = be16 (encodeWord p.opWrite a) ++ payload)
  | .transfer out _ =>
    (∃ r : Sfr, out = be16 (encodeWord (sfrReadOp p) (p.sfrAddrOf r)) ++ List.replicate 4 0) ∨
    (∃ (a : Addr) (n : Nat), ramOk p a.toNat n = true ∧ out = be16 (encodeWord p.opRead a) ++ List.replicate n 0)
  | .pinSet _ => True
  | .delay _ => True

/-- A host that makes no raw frame, and Controllers whose traces are those of their operations. -/
structure State.ControllerOnly (s : State) : Prop where
  noFrame : ∀ bytes, .frame bytes ∉ s.requests
  traces : ∀ l ∈ s.lines, ∀ e ∈ l.trace, e.ByController s.cfg

/-- The bytes an answer clocks in, or nothing when the call failed (R26). -/
def Verdict.bytesIn : Verdict → Option (List Byte)
  | .ok b => some b
  | .fail _ => none

/-- Whether the call succeeded (R25). -/
def Verdict.succeeded : Verdict → Bool
  | .ok _ => true
  | .fail _ => false

/-- The events of one read frame from a line at a level, and of one write frame (R140, R141). -/
def readEvents (l : Level) (out : List Byte) (answer : Option (List Byte)) : List Event :=
  readyEvents l ++ [.transfer out answer, .pinSet .inactive]
def writeEvents (l : Level) (out : List Byte) (ok : Bool) : List Event :=
  readyEvents l ++ [.write out ok, .pinSet .inactive]

/-! ### Errors -/

/-- The error a reply carries, if any. -/
def Reply.error : Reply → Option Error
  | .done (.err e) => some e
  | .done (.ok _) => none
  | .readRam (.err e) _ => some e
  | .readRam (.ok _) _ => none

/-- The table of R331: the codes of the errors each call can return. A modify whose transform is written as data may also
return code 9: its `set_fifo_size` (R213) is part of the call (log 18). -/
def callErrorCodes : Call → List Nat
  | .new _ | .free => []
  | .resetChip | .writeSfr _ _ => [2]
  | .readSfr _ => [1]
  | .modifySfr _ _ => [1, 2, 9]
  | .enableTef _ => [1, 2]
  | .readRam _ _ => [4, 1]
  | .writeRam _ _ => [4, 2]
  | .fifoAddress _ _ => [3]
  | .readFifo _ _ => [3, 1]
  | .modifyFifo _ _ _ => [3, 1, 2, 9]
  | .configure _ => [5, 6, 7, 8]

/-! ### Steps of a `configure()` -/

/-- `k` sequencer steps (R303). -/
def seqIterate (settings : Settings) : Nat → SeqPhase × State → SeqPhase × State
  | 0, x => x
  | k + 1, x => seqIterate settings k (seqTransition settings x.1 x.2)

/-- A terminal state of R301. -/
def SeqPhase.terminal : SeqPhase → Bool
  | .configured => true
  | .failed _ => true
  | _ => false

/-- The frames in a list of events: one primitive call each. -/
def frameCount (t : List Event) : Nat := t.countP fun e => e.sent.isSome

/-- A scripted answer to a poll of C1CON that does not show Configuration mode: six bytes whose register word has another OPMOD, or a
failure, which counts as a word of zero (R305). -/
def NotYetConfigured (p : Params) : Answer → Prop
  | .ok given => given.length = 6 ∧ getOpmod p ⟨fromLE32 (given.drop 2)⟩ ≠ .mode .configuration
  | .fail _ => getOpmod p ⟨0⟩ ≠ .mode .configuration
  | .byEnv => False

/-- A scripted answer to a poll of OSC that does not show PLLRDY (R308). -/
def NotYetLocked (p : Params) : Answer → Prop
  | .ok given => given.length = 6 ∧ RegField.getBool p .osc_PLLRDY ⟨fromLE32 (given.drop 2)⟩ = false
  | .fail _ => True
  | .byEnv => False

/-- What a scripted answer clocks in: nothing when the call fails. -/
def Answer.reading : Answer → Option (List Byte)
  | .ok given => some given
  | .fail _ => none
  | .byEnv => none

/-- The events of failed polls that are not the last: each a read of `out` answered from the list, then Delay(500) (R305, R308). -/
def pollEvents (out : List Byte) : List Answer → List Event
  | [] => []
  | a :: rest => readEvents .inactive out a.reading ++ .delay 500 :: pollEvents out rest

end Sys2Proof.Machine

namespace Sys2Proof

/-! ### The laws of a field (spec/42_register_fields.md R203) -/

/-- The four laws of R203 at one word: `f` a field, `g` another, `v` and `v'` values of `f`. -/
structure RegField.Laws (p : Params) {T : RegType} (f g : RegField T) (t : RegWord T) (v v' : BitVec (f.width p)) : Prop where
  get_set : RegField.get p f (RegField.set p f t v) = v
  get_other : f.Apart p g → RegField.get p g (RegField.set p f t v) = RegField.get p g t
  set_set : RegField.set p f (RegField.set p f t v) v' = RegField.set p f t v'
  set_get : RegField.set p f t (RegField.get p f t) = t

end Sys2Proof
end

