-- ==== Sys2Proof/Certificates/Slice0/Obligations.lean ====
section
/-! DEFINITION. The statements for the provers. Each docstring says which rule of the spec it formalises. A clause about a field that is
the model's own (`script`, `env`, `mem`, `requests`, `replies`) rests on the log entry the docstring names. -/

open Sys2Proof Sys2Proof.Machine

/-! ### Reset, construction and release -/

/-- R370, R38: after construction the line is inactive, the Controller owned, its own PinSet event the only one, and no frame sent. -/
def Obligations.ResetIsTheConstructedController : Prop :=
  State.reset.cs = .inactive ∧ State.reset.owned = true ∧ State.reset.trace = [.pinSet .inactive] ∧
    frameCount State.reset.trace = 0

/-- The invariant, the protocol of traces and the words a Controller may send hold at reset (R37, R38, R136, R374, R53). -/
def Obligations.InvariantHoldsAtReset : Prop :=
  State.reset.Inv ∧ (∀ l ∈ State.reset.lines, WholeFrames l.trace) ∧ State.reset.ControllerOnly

/-- R9, R92, R62, R63, R201: the default parameters are usable, whichever opcodes the OPEN ones are. -/
def Obligations.DefaultParametersAreWellFormed : Prop := Params.Wf Params.default

/-- R160, R38, R39: constructing drives select inactive, owns the given handles, and begins a trace with that one event (log 13); every
Controller on other handles stays as it is. Handles of which a Controller holds the bus or the pin are refused (R39). Log 35, the model's
choice: on the handles of a Controller that was released, in use or waiting, the chip keeps its stub's bytes, its oracle and the rest of
its script. -/
def Obligations.ConstructionOwnsTheHandles : Prop :=
  ∀ (s : State) (h : Handles),
    ((∃ l ∈ s.lines, l.owned = true ∧ (l.handles.bus = h.bus ∨ l.handles.pin = h.pin)) →
      runCall (.new h) s = .refused .handlesHeld) ∧
    ((∀ l ∈ s.lines, l.owned = true → l.handles.bus ≠ h.bus ∧ l.handles.pin ≠ h.pin) →
      ∃ t, runCall (.new h) s = .next t ∧ t.cs = .inactive ∧ t.owned = true ∧ t.handles = h ∧
        t.trace = [.pinSet .inactive] ∧ t.replies = s.replies ++ [.done (.ok (.controller h))] ∧ t.cfg = s.cfg ∧
        t.requests = s.requests ∧ t.seq = s.seq ∧ (∀ l ∈ s.lines, l.handles ≠ h → l ∈ t.lines) ∧
        (h = s.handles → t.mem = s.mem ∧ t.env = s.env ∧ t.script = s.script ∧ t.draws = s.draws ∧ t.others = s.others) ∧
        ((s.lines.Pairwise fun l m => l.handles ≠ m.handles) → ∀ l ∈ s.lines, l.handles = h →
          t.mem = l.mem ∧ t.env = l.env ∧ t.script = l.script ∧ t.draws = l.draws))

/-- R161: releasing drives select inactive, gives the handles back, and changes no field but the line's level, its open frame, the
ownership, the trace and the replies. After it no instruction and no operation runs but a new construction and the pure address lookups;
that the model refuses them by name is its own form of "no further operation on it exists" (log 17). -/
def Obligations.ReleaseEndsTheController : Prop :=
  (∀ s : State, s.owned = true → ∃ t, runCall .free s = .next t ∧ t.cs = .inactive ∧ t.wire = [] ∧ t.owned = false ∧
    t.trace = s.trace ++ [.pinSet .inactive] ∧ t.replies = s.replies ++ [.done (.ok (.handles s.handles))] ∧
    t.cfg = s.cfg ∧ t.handles = s.handles ∧ t.mem = s.mem ∧ t.requests = s.requests ∧ t.seq = s.seq ∧ t.env = s.env ∧
    t.script = s.script ∧ t.draws = s.draws ∧ t.others = s.others) ∧
  (∀ (s : State) (i : Instr), s.owned = false → exec i s = .refused .controllerReleased) ∧
  (∀ (s : State) (c : Call), s.owned = false → (∀ h, c ≠ .new h) → (∀ k n, c ≠ .fifoAddress k n) →
    runCall c s = .refused .controllerReleased)

/-! ### The chip-select protocol -/

/-- R130, R137: the ready edge goes inactive first exactly when the line is active, then active; the reset edge is an event even when
the line is already inactive. Neither touches anything but the line, the wire and the trace. -/
def Obligations.ChipSelectEdges : Prop :=
  (∀ s : State, s.cs = .active →
    csReady s = { s with cs := .active, wire := [], trace := s.trace ++ [.pinSet .inactive, .pinSet .active] }) ∧
  (∀ s : State, s.cs = .inactive →
    csReady s = { s with cs := .active, wire := [], trace := s.trace ++ [.pinSet .active] }) ∧
  (∀ s : State, csReset s = { s with cs := .inactive, wire := [], trace := s.trace ++ [.pinSet .inactive] })

/-! ### Encoding -/

/-- R94, R95, R97, vectors V-ENC-1 to V-ENC-11: words written out from the encoding, as frames, under the default opcodes. -/
def Obligations.SpecWordsDecode : Prop :=
  decode Params.default [0x00, 0x00] = .ok (.reset 0x000) ∧
  decode Params.default [0x0A, 0xBC] = .ok (.reset 0xABC) ∧
  decode Params.default [0x30, 0x00, 0, 0, 0, 0] = .ok (.read 0x000 4) ∧
  decode Params.default [0x3E, 0x00] = .ok (.read 0xE00 0) ∧
  decode Params.default [0x24, 0x00, 0x01, 0x00, 0x00, 0x00] = .ok (.write 0x400 [0x01, 0x00, 0x00, 0x00]) ∧
  decode { Params.default with opReadSfr := 0xA, opWriteSfr := 0xB } [0xAE, 0x00, 0, 0, 0, 0] = .ok (.readSfr 0xE00) ∧
  decode { Params.default with opReadSfr := 0xA, opWriteSfr := 0xB } [0xB0, 0x00, 0x00, 0x00, 0x00, 0x04] =
    .ok (.writeSfr 0x000 0x04000000) ∧
  decode { Params.default with opReadSfr := 0xA, opWriteSfr := 0xC } [0xB0, 0x00] = .error (.notEmitted 0xB 0x000)

/-- R97: "`decode(encode(op, a))` gives back op's instruction and a": for every instruction with every operand, under any
parameters whose five opcodes are distinct, as words and as whole frames. -/
def Obligations.DecodeInvertsEncode : Prop :=
  ∀ p : Params, p.OpcodesDistinct →
    (∀ i : Instr, decode p (encode p i) = .ok i) ∧
    (∀ a : Addr, decodeWord p (encodeWord p.opReset a) = .reset a ∧ decodeWord p (encodeWord p.opRead a) = .read a ∧
      decodeWord p (encodeWord p.opWrite a) = .write a ∧ decodeWord p (encodeWord p.opReadSfr a) = .readSfr a ∧
      decodeWord p (encodeWord p.opWriteSfr a) = .writeSfr a)

/-- The other direction: whatever a frame decodes to, the encoder's frame for it has the same word and the same length, and
is the same frame where the payload is the host's (of a read frame the host's bytes are dummies, log 11). -/
def Obligations.EncodeInvertsDecode : Prop :=
  ∀ (p : Params) (bytes : List Byte) (i : Instr), decode p bytes = .ok i →
    (encode p i).length = bytes.length ∧ (encode p i).take 2 = bytes.take 2 ∧
      match i with
      | .read _ _ | .readSfr _ => True
      | .reset _ | .write _ _ | .writeSfr _ _ => encode p i = bytes

/-- R91: the word is `(zext_16(op) << 12) | zext_16(addr)`, and different operands give different words. -/
def Obligations.EncodeWordIsInjective : Prop :=
  (∀ (op : Opcode) (a : Addr), encodeWord op a = (op.setWidth 16 <<< 12) ||| a.setWidth 16) ∧
  ∀ (op op' : Opcode) (a a' : Addr), encodeWord op a = encodeWord op' a' → op = op' ∧ a = a'

/-- R97, R98, R96: a frame of two bytes or more is rejected as NotEmitted, with its opcode and address, exactly when its opcode is
none of the five; a RESET frame is rejected exactly when it has a payload and an SFR frame exactly when its payload is not 4 bytes
(log 11); and fewer than two bytes are truncated. -/
def Obligations.DecodeRejectsByName : Prop :=
  ∀ (p : Params) (b0 b1 : Byte) (rest : List Byte),
    ((∃ c a, decode p (b0 :: b1 :: rest) = .error (.notEmitted c a)) ↔
      wordOpcode (fromBE16 b0 b1) ∉ [p.opReset, p.opRead, p.opWrite, p.opReadSfr, p.opWriteSfr]) ∧
    (∀ c a, decode p (b0 :: b1 :: rest) = .error (.notEmitted c a) →
      c = wordOpcode (fromBE16 b0 b1) ∧ a = wordAddr (fromBE16 b0 b1)) ∧
    (p.OpcodesDistinct → ∀ n, decode p (b0 :: b1 :: rest) = .error (.payloadLength n) ↔
      n = rest.length ∧ (wordOpcode (fromBE16 b0 b1) = p.opReset ∧ n ≠ 0 ∨
        wordOpcode (fromBE16 b0 b1) ∈ [p.opReadSfr, p.opWriteSfr] ∧ n ≠ 4)) ∧
    decode p (b0 :: b1 :: rest) ≠ .error .truncated ∧
    decode p [b0] = .error .truncated ∧ decode p [] = .error .truncated

/-- R99, R202, R223: an opcode of 16 or more or an address of 0x1000 or more is refused at the boundary; every other is placed unchanged,
with no masking or wrapping. And a modify, of a register or of a FIFO, with a setter among its list that does not take its value is
refused, not truncated (log 18): a number wider than its field, and a mode or a size whose code the parameters leave out (of the sizes
not the fallback, which is a variant). Log 38, the model's choice: that every other setter takes every variant, and a mapped mode or
size, holds here also under parameters that give it a code too wide for its field, which no check looks at and the setter stores the low
bits of; under `Params.CodesOk` no code is too wide. -/
def Obligations.OutOfRangeOperandsAreRefused : Prop :=
  (∀ op addr : Nat,
    (encodeWord? op addr = none ↔ 16 ≤ op ∨ 0x1000 ≤ addr) ∧
    (∀ w, encodeWord? op addr = some w → (wordOpcode w).toNat = op ∧ (wordAddr w).toNat = addr ∧
      w.toNat = op * 0x1000 + addr)) ∧
  (∀ (s : State) (q : FixedReg) (us : List (Update q.reg)), s.owned = true → (∃ u ∈ us, Update.settable s.cfg u = false) →
    runCall (.modifySfr q us) s = .refused .notSettable) ∧
  (∀ (s : State) (k : FifoReg) (n : Nat) (us : List (Update k.reg)), s.owned = true →
    (∃ u ∈ us, Update.settable s.cfg u = false) → runCall (.modifyFifo k n us) s = .refused .notSettable) ∧
  ∀ p : Params,
    (∀ (T : RegType) (f : RegField T) (v : Nat), Update.settable p (.field f v) = false ↔ 2 ^ f.width p ≤ v) ∧
    (∀ m : OpMode, (Update.settable p (.reqop m) = false ↔ OpMode.mapped p (OpMode.code p m) = false) ∧
      (Update.settable p (.opmod m) = false ↔ OpMode.mapped p (OpMode.code p m) = false)) ∧
    (∀ v : PayloadSize,
      (Update.settable p (.txqPlsize v) = false ↔ v ≠ .bytes8 ∧ PayloadSize.mapped p (PayloadSize.code p v) = false) ∧
      (Update.settable p (.fifoPlsize v) = false ↔ v ≠ .bytes8 ∧ PayloadSize.mapped p (PayloadSize.code p v) = false)) ∧
    (∀ (T : RegType) (w : Word), Update.settable p (.word w : Update T) = true) ∧
    (∀ v, Update.settable p (.wft v) = true) ∧ (∀ v, Update.settable p (.txbws v) = true) ∧
    (∀ v, Update.settable p (.clkodiv v) = true) ∧ (∀ v, Update.settable p (.txqTxat v) = true) ∧
    (∀ v, Update.settable p (.fifoTxat v) = true) ∧ (∀ n, Update.settable p (.txqFifoSize n) = true) ∧
    (∀ n, Update.settable p (.fifoFifoSize n) = true)

/-- R11, R54, R55: the register payload is little-endian and comes back as it went, the word big-endian. -/
def Obligations.ByteOrders : Prop :=
  (∀ v : Word, fromLE32 (le32 v) = v ∧ (le32 v).length = 4 ∧
    ∀ k, k < 4 → ((le32 v).getD k 0).toNat = v.toNat / 256 ^ k % 256) ∧
  (∀ bs : List Byte, bs.length = 4 → le32 (fromLE32 bs) = bs) ∧
  (∀ w : BitVec 16, (be16 w).map BitVec.toNat = [w.toNat / 256, w.toNat % 256]) ∧
  (∀ v : Word, native32 .little v = le32 v ∧ native32 .big v = (le32 v).reverse)

/-! ### The instructions: what each sends, returns and changes

`r` is what the environment answers to the bytes sent, at the ready edge. -/

/-- READ (R131, R140, R136, R138): from any state with a Controller it sends one frame, the word and n zero bytes; it returns the n
bytes clocked in after the first two, or SPIRead and no partial result; and the line ends inactive. -/
def Obligations.ReadReturnsThePayload : Prop :=
  ∀ (s : State) (a : Addr) (n : Nat), s.owned = true →
    let out := be16 (encodeWord s.cfg.opRead a) ++ List.replicate n 0
    let r := (envAnswer (csReady s) out).bytesIn
    ∃ t, exec (.read a n) s = .next t ∧ t.cs = .inactive ∧ t.trace = s.trace ++ readEvents s.cs out r ∧
      match r with
      | some bytesIn => bytesIn.length = n + 2 ∧ t.replies = s.replies ++ [.done (.ok (.bytes (bytesIn.drop 2)))]
      | none => t.replies = s.replies ++ [.done (.err .spiRead)]

/-- READ_SFR (R134, R140, R55): under SFR_OPCODES = RegisterOnly, as READ with 4 bytes, whose result is their little-endian word; under
Combined "it is never sent". -/
def Obligations.ReadSfrReturnsTheWord : Prop :=
  ∀ (s : State) (a : Addr), s.owned = true →
    (s.cfg.sfrOpcodes = .registerOnly →
      let out := be16 (encodeWord s.cfg.opReadSfr a) ++ [0, 0, 0, 0]
      let r := (envAnswer (csReady s) out).bytesIn
      ∃ t, exec (.readSfr a) s = .next t ∧ t.cs = .inactive ∧ t.trace = s.trace ++ readEvents s.cs out r ∧
        match r with
        | some bytesIn => bytesIn.length = 6 ∧ t.replies = s.replies ++ [.done (.ok (.word (fromLE32 (bytesIn.drop 2))))]
        | none => t.replies = s.replies ++ [.done (.err .spiRead)]) ∧
    (s.cfg.sfrOpcodes = .combined → exec (.readSfr a) s = .refused .notRegisterOnly)

/-- WRITE (R132, R141, R136, R138): one frame, the word and the payload unchanged; it returns nothing, or SPIWrite. -/
def Obligations.WriteSendsThePayload : Prop :=
  ∀ (s : State) (a : Addr) (p : List Byte), s.owned = true →
    let out := be16 (encodeWord s.cfg.opWrite a) ++ p
    let ok := (envAnswer (csReady s) out).succeeded
    ∃ t, exec (.write a p) s = .next t ∧ t.cs = .inactive ∧ t.trace = s.trace ++ writeEvents s.cs out ok ∧
      t.replies = s.replies ++ [.done (if ok then .ok .unit else .err .spiWrite)]

/-- WRITE_SFR (R135, R141, R55): under SFR_OPCODES = RegisterOnly one frame, the word and the value's four bytes, low byte first; under
Combined it is not emitted. -/
def Obligations.WriteSfrSendsTheValue : Prop :=
  ∀ (s : State) (a : Addr) (v : Word), s.owned = true →
    (s.cfg.sfrOpcodes = .registerOnly →
      let out := be16 (encodeWord s.cfg.opWriteSfr a) ++
        [v.extractLsb' 0 8, v.extractLsb' 8 8, v.extractLsb' 16 8, v.extractLsb' 24 8]
      let ok := (envAnswer (csReady s) out).succeeded
      ∃ t, exec (.writeSfr a v) s = .next t ∧ t.cs = .inactive ∧ t.trace = s.trace ++ writeEvents s.cs out ok ∧
        t.replies = s.replies ++ [.done (if ok then .ok .unit else .err .spiWrite)]) ∧
    (s.cfg.sfrOpcodes = .combined → exec (.writeSfr a v) s = .refused .notRegisterOnly)

/-- RESET (R133, R95, R372): one frame that is the two bytes of the word; the operation `reset_chip` sends address 0x000. -/
def Obligations.ResetSendsTheWordAlone : Prop :=
  (∀ (s : State) (a : Addr), s.owned = true →
    let out := be16 (encodeWord s.cfg.opReset a)
    let ok := (envAnswer (csReady s) out).succeeded
    ∃ t, exec (.reset a) s = .next t ∧ t.cs = .inactive ∧ t.owned = true ∧
      t.trace = s.trace ++ writeEvents s.cs out ok ∧
      t.replies = s.replies ++ [.done (if ok then .ok .unit else .err .spiWrite)]) ∧
  (∀ s : State, runCall .resetChip s = exec (.reset 0x000) s)

/-- The frame of the five instructions (R133 to R136, R334, R336, R39): the parameters, the Controller, its handles, every other
Controller, the host's calls, any `configure()` and the oracle are unchanged; the line is inactive with no frame open; exactly one
result is returned and one scripted answer used; and where any answer is possible the stub's array is not touched. -/
def Obligations.InstructionsLeaveTheRestUnchanged : Prop :=
  ∀ (i : Instr) (s t : State), exec i s = .next t →
    t.cfg = s.cfg ∧ t.owned = s.owned ∧ t.handles = s.handles ∧ t.others = s.others ∧ t.requests = s.requests ∧
    t.seq = s.seq ∧ t.env = s.env ∧ t.cs = .inactive ∧ t.wire = [] ∧ t.script = s.script.tail ∧
    (∃ r, t.replies = s.replies ++ [.done r]) ∧ (s.env = .any → t.mem = s.mem)

/-- R77: RESET, READ and READ_SFR change no byte of the stub's array, whatever fails. -/
def Obligations.LoadsAndResetKeepEveryByte : Prop :=
  ∀ s t : State, s.cfg.OpcodesDistinct →
    (∀ a, exec (.reset a) s = .next t → ∀ x, Memory.get t.mem x = Memory.get s.mem x) ∧
    (∀ a n, exec (.read a n) s = .next t → ∀ x, Memory.get t.mem x = Memory.get s.mem x) ∧
    (∀ a, exec (.readSfr a) s = .next t → ∀ x, Memory.get t.mem x = Memory.get s.mem x)

/-- R77, R59: WRITE and WRITE_SFR change only the bytes of their payload, `(a + k) mod 4096`. -/
def Obligations.StoresKeepEveryOtherByte : Prop :=
  ∀ s t : State, Memory.wf s.mem →
    (∀ (a : Addr) (p : List Byte), exec (.write a p) s = .next t →
      ∀ x, (∀ k, k < p.length → x ≠ (a.toNat + k) % 4096) → Memory.get t.mem x = Memory.get s.mem x) ∧
    (∀ (a : Addr) (v : Word), exec (.writeSfr a v) s = .next t →
      ∀ x, (∀ k, k < 4 → x ≠ (a.toNat + k) % 4096) → Memory.get t.mem x = Memory.get s.mem x)

/-- R77: against the reference stub with nothing scripted, WRITE and WRITE_SFR succeed and store each byte where it belongs (a payload
longer than the space would overwrite itself). WRITE_SFR runs under SFR_OPCODES = RegisterOnly (R135). -/
def Obligations.StubStoresThePayload : Prop :=
  ∀ s : State, s.owned = true → s.env = .stub → s.script = [] → Memory.wf s.mem →
    (∀ (a : Addr) (p : List Byte), p.length ≤ 4096 → ∃ t, exec (.write a p) s = .next t ∧
      t.replies = s.replies ++ [.done (.ok .unit)] ∧
      ∀ k, k < p.length → Memory.get t.mem ((a.toNat + k) % 4096) = p.getD k 0) ∧
    (s.cfg.sfrOpcodes = .registerOnly → ∀ (a : Addr) (v : Word), ∃ t, exec (.writeSfr a v) s = .next t ∧
      t.replies = s.replies ++ [.done (.ok .unit)] ∧
      ∀ k, k < 4 → Memory.get t.mem ((a.toNat + k) % 4096) = (le32 v).getD k 0)

/-- R77: against the reference stub with nothing scripted, READ returns the array's bytes from its address on, wrapping at 0xFFF, and
READ_SFR, under SFR_OPCODES = RegisterOnly (R134), their word. -/
def Obligations.StubReturnsItsBytes : Prop :=
  ∀ s : State, s.owned = true → s.env = .stub → s.script = [] → s.cfg.OpcodesDistinct →
    (∀ (a : Addr) (n : Nat), ∃ t, exec (.read a n) s = .next t ∧
      t.replies = s.replies ++
        [.done (.ok (.bytes ((List.range n).map fun k => Memory.get s.mem ((a.toNat + k) % 4096))))]) ∧
    (s.cfg.sfrOpcodes = .registerOnly → ∀ a : Addr, ∃ t, exec (.readSfr a) s = .next t ∧
      t.replies = s.replies ++
        [.done (.ok (.word (fromLE32 ((List.range 4).map fun k => Memory.get s.mem ((a.toNat + k) % 4096)))))])

/-- R25, R335: a WRITE that fails after `n` bytes returns SPIWrite, the stub holding that prefix and nothing more. -/
def Obligations.FailedWriteLeavesAPrefix : Prop :=
  ∀ (s : State) (a : Addr) (p : List Byte) (n : Nat) (rest : List Answer), s.owned = true → s.env = .stub →
    s.script = .fail n :: rest → Memory.wf s.mem → p.length ≤ 4096 →
    ∃ t, exec (.write a p) s = .next t ∧ t.replies = s.replies ++ [.done (.err .spiWrite)] ∧ t.cs = .inactive ∧
      (∀ k, k < p.length → k + 2 < n → Memory.get t.mem ((a.toNat + k) % 4096) = p.getD k 0) ∧
      (∀ x, (∀ k, k < p.length → k + 2 < n → x ≠ (a.toNat + k) % 4096) → Memory.get t.mem x = Memory.get s.mem x)

/-- R28, R26, R131 to R135 (log 3): a scripted answer decides the outcome of each instruction, whichever oracle stands behind it: on
an answer `Ok` each completes with its result, and on `Err` READ and READ_SFR end in SPIRead and the others in SPIWrite (READ_SFR and
WRITE_SFR under SFR_OPCODES = RegisterOnly). -/
def Obligations.ScriptedAnswersDecideTheOutcome : Prop :=
  ∀ (s : State) (rest : List Answer), s.owned = true →
    (∀ given : List Byte, s.script = .ok given :: rest →
      (∀ (a : Addr) (n : Nat), given.length = n + 2 → ∃ t, exec (.read a n) s = .next t ∧ t.script = rest ∧
        t.replies = s.replies ++ [.done (.ok (.bytes (given.drop 2)))]) ∧
      (∀ a : Addr, s.cfg.sfrOpcodes = .registerOnly → given.length = 6 → ∃ t, exec (.readSfr a) s = .next t ∧ t.script = rest ∧
        t.replies = s.replies ++ [.done (.ok (.word (fromLE32 (given.drop 2))))]) ∧
      (∀ (i : Instr), (∃ a, i = .reset a) ∨ (∃ a p, i = .write a p) ∨ (∃ a v, i = .writeSfr a v) ∧ s.cfg.sfrOpcodes = .registerOnly →
        ∃ t, exec i s = .next t ∧ t.script = rest ∧ t.replies = s.replies ++ [.done (.ok .unit)])) ∧
    (∀ k : Nat, s.script = .fail k :: rest →
      (∀ (i : Instr), (∃ a n, i = .read a n) ∨ (∃ a, i = .readSfr a) ∧ s.cfg.sfrOpcodes = .registerOnly →
        ∃ t, exec i s = .next t ∧ t.script = rest ∧ t.replies = s.replies ++ [.done (.err .spiRead)]) ∧
      (∀ (i : Instr), (∃ a, i = .reset a) ∨ (∃ a p, i = .write a p) ∨ (∃ a v, i = .writeSfr a v) ∧ s.cfg.sfrOpcodes = .registerOnly →
        ∃ t, exec i s = .next t ∧ t.script = rest ∧ t.replies = s.replies ++ [.done (.err .spiWrite)]))

/-! ### The step -/

/-- A step runs the decoded instruction: with no `configure()` in progress and a frame at the head of the host's calls that decodes
to `i`, the step is exec of `i` with that call taken (log 1). -/
def Obligations.StepRunsTheDecodedInstruction : Prop :=
  (∀ (s : State) (bytes : List Byte) (rest : List Request) (i : Instr), s.seq = none →
    s.requests = .frame bytes :: rest → decode s.cfg bytes = .ok i → step s = exec i { s with requests := rest }) ∧
  (∀ (s : State) (nbits w : Nat) (i : Instr), decode s.cfg (tableFrame s.cfg nbits w) = .ok i →
    step (s.withFetchWord nbits w) = exec i { s with seq := none })

/-- What else a step does: a frame that is no instruction is refused by name (R98), an operation is called, the host turns to another
Controller that exists, with no event (R39, R345; log 35), and a host that asks for nothing leaves everything as it is (log 21). A
`configure()` goes on by one transition of R301 a step (log 20), and from a terminal state it returns its result and is not retained
(R302, R303, R35). -/
def Obligations.StepServesTheHost : Prop :=
  (∀ (s : State) (bytes : List Byte) (rest : List Request) (e : DecodeError), s.seq = none →
    s.requests = .frame bytes :: rest → decode s.cfg bytes = .error e → step s = .refused (.undecodable e)) ∧
  (∀ (s : State) (c : Call) (rest : List Request), s.seq = none → s.requests = .call c :: rest →
    step s = runCall c { s with requests := rest }) ∧
  (∀ (s : State) (h : Handles) (rest : List Request), s.seq = none → s.requests = .use h :: rest →
    ((∃ l ∈ s.lines, l.owned = true ∧ l.handles = h) → ∃ t, step s = .next t ∧ t.handles = h ∧ t.requests = rest ∧
      t.replies = s.replies ∧ t.cfg = s.cfg ∧ t.seq = none ∧ t.line ∈ s.lines) ∧
    ((∀ l ∈ s.lines, l.owned = true → l.handles ≠ h) → step s = .refused .controllerReleased)) ∧
  (∀ (s : State) (run : SeqRun), s.seq = some run → step s = seqStep run s ∧
    (s.owned = true → run.phase.terminal = false → ∀ phase t, seqTransition run.settings run.phase s = (phase, t) →
      step s = .next { t with seq := some ⟨run.settings, phase⟩ }) ∧
    (s.owned = true → run.phase = .configured →
      step s = .next { s with replies := s.replies ++ [.done (.ok .unit)], seq := none }) ∧
    (∀ e : ConfigError, s.owned = true → run.phase = .failed e →
      step s = .next { s with replies := s.replies ++ [.done (.err e.toError)], seq := none }) ∧
    (s.owned = false → step s = .refused .controllerReleased)) ∧
  (∀ s : State, s.seq = none → s.requests = [] → step s = .next s)

/-- R136, R37, R50, R39: every step keeps, for every Controller, the line inactive between operations, the wire closed and the stub's
memory canonical and inside its 4096 bytes; the Controllers' handles distinct and held exclusively; and a running `configure()` with
its Controller. -/
def Obligations.StepKeepsTheInvariant : Prop := ∀ s t : State, s.Inv → step s = .next t → t.Inv

/-- R374, R136, R138, R179: on every step from lines that are inactive, the trace of every Controller stays a sequence of whole frames:
an inactive-to-active edge, exactly one primitive call, and the line inactive again. -/
def Obligations.StepKeepsWholeFrames : Prop :=
  ∀ s t : State, (∀ l ∈ s.lines, l.cs = .inactive ∧ WholeFrames l.trace) → step s = .next t →
    ∀ l ∈ t.lines, l.cs = .inactive ∧ WholeFrames l.trace

/-- R103, R98, R134, R135: "Every emitted word is exactly one of the five instructions", of every Controller, from every state, on every
step; and READ_SFR and WRITE_SFR are among them only under SFR_OPCODES = RegisterOnly. -/
def Obligations.StepEmitsOnlyInstructions : Prop :=
  ∀ s t : State, (∀ l ∈ s.lines, ∀ e ∈ l.trace, e.IsInstruction s.cfg) → step s = .next t →
    ∀ l ∈ t.lines, ∀ e ∈ l.trace, e.IsInstruction t.cfg

/-- R53, R51, R52, R64, R95, R102: with no raw frame among the host's calls, every step keeps the traces of all Controllers to RESET's
word at 0x000, whole registers at enumerated SFRs' addresses, and READ and WRITE frames whose address and length `ram_ok` admits. -/
def Obligations.ControllerReachesOnlySfrsAndRam : Prop :=
  ∀ s t : State, s.ControllerOnly → step s = .next t → t.ControllerOnly

/-- R69, R29, R13, R58: a step never takes back an event or a result, serves the host's calls in their order, and changes no parameter
and no Controller's oracle. Only a construction begins a new trace, on its own handles (log 13). -/
def Obligations.StepOnlyAppends : Prop :=
  ∀ s t : State, (s.lines.Pairwise fun l m => l.handles ≠ m.handles) → step s = .next t →
    t.cfg = s.cfg ∧ s.replies <+: t.replies ∧
    (t.requests = s.requests ∨ s.seq = none ∧ t.requests = s.requests.tail) ∧
    ∀ l ∈ s.lines, (∀ rest, s.requests ≠ .call (.new l.handles) :: rest) →
      ∃ m ∈ t.lines, m.handles = l.handles ∧ m.env = l.env ∧ l.trace <+: m.trace

/-- R39, R345: "Two Controllers share no state of the block". A step that is no construction and no turn to another Controller leaves every
other one as it is, and does the same whatever the others are; a turn changes none; and a construction changes none on other handles. -/
def Obligations.ControllersAreIndependent : Prop :=
  (∀ s t : State, s.seq.isSome = true ∨
      ((∀ h rest, s.requests ≠ .use h :: rest) ∧ ∀ h rest, s.requests ≠ .call (.new h) :: rest) → step s = .next t →
    t.others = s.others ∧
    ∀ others : List Line, step { s with others := others } = .next { t with others := others }) ∧
  (∀ (s t : State) (h : Handles) (rest : List Request), (s.lines.Pairwise fun l m => l.handles ≠ m.handles) →
    s.seq = none → s.requests = .use h :: rest → step s = .next t → ∀ l, l ∈ t.lines ↔ l ∈ s.lines) ∧
  (∀ (s t : State) (h : Handles) (rest : List Request), s.seq = none → s.requests = .call (.new h) :: rest →
    step s = .next t → ∀ l ∈ s.lines, l.handles ≠ h → l ∈ t.lines)

/-! ### The Controller's operations -/

/-- R64, R65: the RAM bounds under both bound rules, and an access outside them: it returns InvalidRAMAddress with the start
address and changes nothing, the caller's buffer included. -/
def Obligations.RamBoundsComeBeforeTheBus : Prop :=
  (∀ (p : Params) (addr len : Nat), p.ramBound = .endInclusiveOfBFE →
    (ramOk p addr len = true ↔ 0x400 ≤ addr ∧ addr + len ≤ 0xBFF)) ∧
  (∀ (p : Params) (addr len : Nat), p.ramBound = .endInclusiveOfBFF →
    (ramOk p addr len = true ↔ 0x400 ≤ addr ∧ addr + len ≤ 0xC00)) ∧
  (∀ (s : State) (addr : Nat) (buf : List Byte), s.owned = true → ramOk s.cfg addr buf.length = false →
    runCall (.readRam addr buf) s =
      .next { s with replies := s.replies ++ [.readRam (.err (.invalidRamAddress addr)) buf] }) ∧
  (∀ (s : State) (addr : Nat) (bytes : List Byte), s.owned = true → ramOk s.cfg addr bytes.length = false →
    runCall (.writeRam addr bytes) s =
      .next { s with replies := s.replies ++ [.done (.err (.invalidRamAddress addr))] })

/-- R166, R167, R99, R56: in bounds, `read_ram` sends one READ frame at its own address, not a truncated one, and gives the caller
the payload bytes with no swap; on SPIRead the buffer keeps its length and holds any bytes (log 16). `write_ram` sends one WRITE
frame with the bytes as given. READ_SFR and WRITE_SFR are never used. -/
def Obligations.RamAccessesSendTheirBytes : Prop :=
  (∀ (s : State) (addr : Nat) (buf : List Byte), s.owned = true → ramOk s.cfg addr buf.length = true →
    ∃ a : Addr, a.toNat = addr ∧
      let out := be16 (encodeWord s.cfg.opRead a) ++ List.replicate buf.length 0
      let r := (envAnswer (csReady s) out).bytesIn
      ∃ t, runCall (.readRam addr buf) s = .next t ∧ t.trace = s.trace ++ readEvents s.cs out r ∧
        match r with
        | some bytesIn => bytesIn.length = buf.length + 2 ∧
            t.replies = s.replies ++ [.readRam (.ok .unit) (bytesIn.drop 2)]
        | none => ∃ any, any.length = buf.length ∧ t.replies = s.replies ++ [.readRam (.err .spiRead) any]) ∧
  (∀ (s : State) (addr : Nat) (bytes : List Byte), s.owned = true → ramOk s.cfg addr bytes.length = true →
    ∃ a : Addr, a.toNat = addr ∧
      let out := be16 (encodeWord s.cfg.opWrite a) ++ bytes
      let ok := (envAnswer (csReady s) out).succeeded
      ∃ t, runCall (.writeRam addr bytes) s = .next t ∧ t.trace = s.trace ++ writeEvents s.cs out ok ∧
        t.replies = s.replies ++ [.done (if ok then .ok .unit else .err .spiWrite)])

/-- R162, R163, R102: `read_sfr` and `write_sfr` send one frame at the register's address with the opcode pair SFR_OPCODES selects. -/
def Obligations.SfrAccessesUseTheSelectedOpcodes : Prop :=
  ∀ (s : State) (q : Sfr), s.owned = true →
    let rop := if s.cfg.sfrOpcodes = .combined then s.cfg.opRead else s.cfg.opReadSfr
    let wop := if s.cfg.sfrOpcodes = .combined then s.cfg.opWrite else s.cfg.opWriteSfr
    (let out := be16 (encodeWord rop (s.cfg.sfrAddrOf q)) ++ [0, 0, 0, 0]
     let r := (envAnswer (csReady s) out).bytesIn
     ∃ t, runCall (.readSfr q) s = .next t ∧ t.trace = s.trace ++ readEvents s.cs out r ∧
      match r with
      | some bytesIn => t.replies = s.replies ++ [.done (.ok (.word (fromLE32 (bytesIn.drop 2))))]
      | none => t.replies = s.replies ++ [.done (.err .spiRead)]) ∧
    (∀ v : Word,
      let out := be16 (encodeWord wop (s.cfg.sfrAddrOf q)) ++ le32 v
      let ok := (envAnswer (csReady s) out).succeeded
      ∃ t, runCall (.writeSfr q v) s = .next t ∧ t.trace = s.trace ++ writeEvents s.cs out ok ∧
        t.replies = s.replies ++ [.done (if ok then .ok .unit else .err .spiWrite)])

/-- R164, R165, R67: `modify_sfr` with any transform, as the environment answers: when it fails the read, the result is SPIRead and the
read frame is all there is; when it clocks in `bytesIn`, the write of the transform of the value read, of that value alone, is always
sent, and its answer at that state decides the result. And a call whose transform is a list of setters that all accept their values (log
18) does that with the setters applied in order, and returns it; one of them a size of 0, it returns InvalidFIFOSize(0), with no event
(R213, R178). -/
def Obligations.ModifyWritesTheTransformOfWhatItRead : Prop :=
  ∀ (s : State) (q : FixedReg),
    let a := s.cfg.sfrAddrOf q.sfr
    let out := be16 (encodeWord (sfrReadOp s.cfg) a) ++ [0, 0, 0, 0]
    let wr := fun w : Word => be16 (encodeWord (sfrWriteOp s.cfg) a) ++ le32 w
    let ok := fun w : Word => (envAnswer (csReady (readSfr q.sfr s).2) (wr w)).succeeded
    (∀ f : RegWord q.reg → RegWord q.reg,
      match (envAnswer (csReady s) out).bytesIn with
      | none => ∃ t, modifySfr q f s = (.err .spiRead, t) ∧ t.trace = s.trace ++ readEvents s.cs out none
      | some bytesIn =>
        let w := (f ⟨fromLE32 (bytesIn.drop 2)⟩).bits
        bytesIn.length = 6 ∧ ∃ t, modifySfr q f s = ((if ok w then .ok () else .err .spiWrite), t) ∧
          t.trace = s.trace ++ readEvents s.cs out (some bytesIn) ++ writeEvents .inactive (wr w) (ok w)) ∧
    (∀ us : List (Update q.reg), s.owned = true → us.all (Update.settable s.cfg) = true →
      (∀ e, checkUpdates s.cfg us = some e → e = .invalidFifoSize 0 ∧
        runCall (.modifySfr q us) s = .next { s with replies := s.replies ++ [.done (.err e)] }) ∧
      (checkUpdates s.cfg us = none →
        match (envAnswer (csReady s) out).bytesIn with
        | none => ∃ t, runCall (.modifySfr q us) s = .next t ∧ t.trace = s.trace ++ readEvents s.cs out none ∧
            t.replies = s.replies ++ [.done (.err .spiRead)]
        | some bytesIn =>
          ∃ w t, applyUpdates s.cfg us ⟨fromLE32 (bytesIn.drop 2)⟩ = .ok ⟨w⟩ ∧ runCall (.modifySfr q us) s = .next t ∧
            t.trace = s.trace ++ readEvents s.cs out (some bytesIn) ++ writeEvents .inactive (wr w) (ok w) ∧
            t.replies = s.replies ++ [.done (if ok w then .ok .unit else .err .spiWrite)]))

/-- R168, R172 to R175: a FIFO modify outside 1..31 returns InvalidFIFO(n) and changes nothing; inside, it reads and writes the register
of that FIFO as `modify_sfr` does, as the environment answers. A call with a list of setters does the same with the setters applied in
order; a size of 0 among them comes before the index (R178; log 18). -/
def Obligations.FifoModifyChecksTheIndexFirst : Prop :=
  ∀ (s : State) (k : FifoReg) (n : Nat),
    (∀ f : RegWord k.reg → RegWord k.reg, n = 0 ∨ 31 < n → modifyFifo k n f s = (.err (.invalidFifo n), s)) ∧
    (∀ us : List (Update k.reg), s.owned = true → us.all (Update.settable s.cfg) = true →
      (∀ e, checkUpdates s.cfg us = some e → e = .invalidFifoSize 0 ∧
        runCall (.modifyFifo k n us) s = .next { s with replies := s.replies ++ [.done (.err e)] }) ∧
      (checkUpdates s.cfg us = none → n = 0 ∨ 31 < n →
        runCall (.modifyFifo k n us) s = .next { s with replies := s.replies ++ [.done (.err (.invalidFifo n))] })) ∧
    (∀ i : Fin 31, n = i.val + 1 →
      let a := s.cfg.sfrAddrOf (k.sfr i)
      let out := be16 (encodeWord (sfrReadOp s.cfg) a) ++ [0, 0, 0, 0]
      let wr := fun w : Word => be16 (encodeWord (sfrWriteOp s.cfg) a) ++ le32 w
      let ok := fun w : Word => (envAnswer (csReady (readSfr (k.sfr i) s).2) (wr w)).succeeded
      (∀ f : RegWord k.reg → RegWord k.reg,
        match (envAnswer (csReady s) out).bytesIn with
        | none => ∃ t, modifyFifo k n f s = (.err .spiRead, t) ∧ t.trace = s.trace ++ readEvents s.cs out none
        | some bytesIn =>
          let w := (f ⟨fromLE32 (bytesIn.drop 2)⟩).bits
          bytesIn.length = 6 ∧ ∃ t, modifyFifo k n f s = ((if ok w then .ok () else .err .spiWrite), t) ∧
            t.trace = s.trace ++ readEvents s.cs out (some bytesIn) ++ writeEvents .inactive (wr w) (ok w)) ∧
      (∀ us : List (Update k.reg), s.owned = true → us.all (Update.settable s.cfg) = true → checkUpdates s.cfg us = none →
        match (envAnswer (csReady s) out).bytesIn with
        | none => ∃ t, runCall (.modifyFifo k n us) s = .next t ∧ t.trace = s.trace ++ readEvents s.cs out none ∧
            t.replies = s.replies ++ [.done (.err .spiRead)]
        | some bytesIn =>
          ∃ w t, applyUpdates s.cfg us ⟨fromLE32 (bytesIn.drop 2)⟩ = .ok ⟨w⟩ ∧ runCall (.modifyFifo k n us) s = .next t ∧
            t.trace = s.trace ++ readEvents s.cs out (some bytesIn) ++ writeEvents .inactive (wr w) (ok w) ∧
            t.replies = s.replies ++ [.done (if ok w then .ok .unit else .err .spiWrite)]))

/-- R168, R170, R171, R174: a FIFO read outside 1..31 returns InvalidFIFO(n) and changes nothing; inside, it returns the word of that
FIFO's register, or SPIRead. -/
def Obligations.FifoReadChecksTheIndexFirst : Prop :=
  ∀ (s : State) (k : FifoReg) (n : Nat), s.owned = true →
    (n = 0 ∨ 31 < n → runCall (.readFifo k n) s =
      .next { s with replies := s.replies ++ [.done (.err (.invalidFifo n))] }) ∧
    (∀ i : Fin 31, n = i.val + 1 →
      let out := be16 (encodeWord (sfrReadOp s.cfg) (s.cfg.sfrAddrOf (k.sfr i))) ++ [0, 0, 0, 0]
      let r := (envAnswer (csReady s) out).bytesIn
      ∃ t, runCall (.readFifo k n) s = .next t ∧ t.trace = s.trace ++ readEvents s.cs out r ∧
        match r with
        | some bytesIn => t.replies = s.replies ++ [.done (.ok (.reg k.reg ⟨fromLE32 (bytesIn.drop 2)⟩))]
        | none => t.replies = s.replies ++ [.done (.err .spiRead)])

/-- R61, R169: with the default SFR_ADDR the FIFO lookups give 0x050 + 12n, 0x054 + 12n and 0x058 + 12n for n in 1..31, and
InvalidFIFO(n) for every other n. They are pure; as calls, with or without a Controller (log 17), they add their reply and nothing else:
the address of that FIFO's register, and for n outside 1..31 InvalidFIFO(n). -/
def Obligations.FifoLookupsFollowTheFormula : Prop :=
  (∀ (p : Params) (n : Nat), p.sfrAddr = [] →
    (1 ≤ n → n ≤ 31 →
      fifoRegAddress p .control n = .ok (BitVec.ofNat 12 (0x050 + 12 * n)) ∧
      fifoRegAddress p .status n = .ok (BitVec.ofNat 12 (0x054 + 12 * n)) ∧
      fifoRegAddress p .userAddress n = .ok (BitVec.ofNat 12 (0x058 + 12 * n)))) ∧
  (∀ (p : Params) (k : FifoReg) (n : Nat), n = 0 ∨ 31 < n → fifoRegAddress p k n = .err (.invalidFifo n)) ∧
  (∀ (s : State) (k : FifoReg) (n : Nat), (fifoAddress k n s).2 = s ∧
    (∀ i : Fin 31, n = i.val + 1 → runCall (.fifoAddress k n) s =
      .next { s with replies := s.replies ++ [.done (.ok (.addr (s.cfg.sfrAddrOf (k.sfr i))))] }) ∧
    (n = 0 ∨ 31 < n → runCall (.fifoAddress k n) s =
      .next { s with replies := s.replies ++ [.done (.err (.invalidFifo n))] }))

/-- R62: the 93 addresses the FIFO lookups return are pairwise distinct, and distinct from every other entry of the table of R60: the
other registers, the reserved row 0x04C and the object RAM 0x400..0xBFF; and each one is met by one number and one kind of register. So
under the default table, which is `Params.SfrAddrOk`, and under every SFR_ADDR that is ("A model that changes SFR_ADDR must keep this
property"). -/
def Obligations.FifoLookupsAreDistinct : Prop :=
  (∀ p : Params, p.sfrAddr = [] → p.SfrAddrOk) ∧
  ∀ (p : Params) (k : FifoReg) (n : Nat) (a : Addr), p.SfrAddrOk → fifoRegAddress p k n = .ok a →
    (∀ (k' : FifoReg) (n' : Nat), fifoRegAddress p k' n' = .ok a → k' = k ∧ n' = n) ∧
    (∀ r : Sfr, (∀ (k' : FifoReg) (i : Fin 31), r ≠ k'.sfr i) → p.sfrAddrOf r ≠ a) ∧
    a ≠ 0x04C ∧ (a.toNat < 0x400 ∨ 0xBFF < a.toNat)

/-- R177: `enable_transmit_event_fifo(k)`, reading `c` from C1CON and `v` from C1TEFCON: it writes C1CON with STEF set and C1TEFCON with
the count ORed into bits 27:24, in that order. "A failure stops at that frame": a failed read returns SPIRead and a failed write SPIWrite,
with the frames so far and no more, so a failure in the C1CON modify sends no C1TEFCON frame. -/
def Obligations.EnableTefSetsStefAndOrsTheCount : Prop :=
  ∀ (s : State) (k : BitVec 4) (c v : Word) (rest : List Answer) (x y : List Byte) (m : Nat), s.owned = true →
    s.cs = .inactive → s.cfg.regLayout = [] →
    let con := s.cfg.sfrAddrOf .c1con
    let tef := s.cfg.sfrAddrOf .c1tefcon
    let rd := fun a : Addr => readEvents .inactive (be16 (encodeWord (sfrReadOp s.cfg) a) ++ [0, 0, 0, 0])
    let wr := fun (a : Addr) (w : Word) => writeEvents .inactive (be16 (encodeWord (sfrWriteOp s.cfg) a) ++ le32 w)
    let reads := fun w : Word => (0 :: 0 :: le32 w : List Byte)
    let ends := fun (r : Result Error Value) (events : List Event) =>
      ∃ t, runCall (.enableTef k) s = .next t ∧ t.replies = s.replies ++ [.done r] ∧ t.trace = s.trace ++ events
    let modify := rd con (some (reads c)) ++ wr con (c ||| 0x00080000) true
    let w := v ||| (k.setWidth 32 <<< 24)
    (s.script = .ok (reads c) :: .ok x :: .ok (reads v) :: .ok y :: rest →
      ends (.ok .unit) (modify ++ rd tef (some (reads v)) ++ wr tef w true)) ∧
    (s.script = .fail m :: rest → ends (.err .spiRead) (rd con none)) ∧
    (s.script = .ok (reads c) :: .fail m :: rest →
      ends (.err .spiWrite) (rd con (some (reads c)) ++ wr con (c ||| 0x00080000) false)) ∧
    (s.script = .ok (reads c) :: .ok x :: .fail m :: rest → ends (.err .spiRead) (modify ++ rd tef none)) ∧
    (s.script = .ok (reads c) :: .ok x :: .ok (reads v) :: .fail m :: rest →
      ends (.err .spiWrite) (modify ++ rd tef (some (reads v)) ++ wr tef w false))

/-- R331, R330: each call returns only the errors of its row, and a `configure()` only codes 5 to 8. -/
def Obligations.CallsReturnOnlyTheirErrors : Prop :=
  (∀ (c : Call) (s t : State) (r : Reply) (e : Error), runCall c s = .next t → t.replies = s.replies ++ [r] →
    r.error = some e → e.code ∈ callErrorCodes c) ∧
  (∀ (run : SeqRun) (s t : State) (r : Reply) (e : Error), seqStep run s = .next t → t.replies = s.replies ++ [r] →
    r.error = some e → e.code ∈ [5, 6, 7, 8])

/-- R336, R334, R178, R333: after any error of a call the Controller is as before it: owned (but for the pure lookups, which need none),
with its handles, its parameters, its line inactive again; no other Controller has changed and no `configure()` is begun. And a call
that returns a validation error (codes 3, 4, 9) has changed nothing at all but given that reply: no event, no frame. -/
def Obligations.ErrorsLeaveTheControllerAsItWas : Prop :=
  ∀ (c : Call) (s t : State) (r : Reply) (e : Error), s.cs = .inactive → runCall c s = .next t →
    t.replies = s.replies ++ [r] → r.error = some e →
    (t.owned = s.owned ∧ ((∀ k n, c ≠ .fifoAddress k n) → t.owned = true) ∧ t.cs = .inactive ∧ t.handles = s.handles ∧
      t.cfg = s.cfg ∧ t.others = s.others ∧ t.requests = s.requests ∧ t.seq = s.seq ∧ t.env = s.env) ∧
    (e.code ∈ [3, 4, 9] → t = { s with replies := s.replies ++ [r] })

/-! ### Register fields -/

/-- R203, R202, R225: the four laws of get and set, for every field of every register word under every REG_LAYOUT that keeps both fields
in their word; the last two laws under any at all (of a field that leaves its word: log 38, the model's choice); and a setter preserves
every bit outside its field, unimplemented ones included. -/
def Obligations.FieldLaws : Prop :=
  ∀ (p : Params) (T : RegType) (f g : RegField T) (t : RegWord T) (v v' : BitVec (f.width p)),
    (f.InWord p → g.InWord p → RegField.Laws p f g t v v') ∧
    RegField.set p f (RegField.set p f t v) v' = RegField.set p f t v' ∧
    RegField.set p f t (RegField.get p f t) = t ∧
    ∀ i, i < f.lo p ∨ f.lo p + f.width p ≤ i → (RegField.set p f t v).bits.getLsbD i = t.bits.getLsbD i

/-- R204, W2: "For every enumerated register field, `set(v)` then `get()` returns v, for every valid v": a mode or size that may be set,
and every variant of the other fields, under every REG_LAYOUT, code tables included (log 34). -/
def Obligations.SymbolicFieldsRoundTrip : Prop :=
  ∀ p : Params, p.RegLayoutOk →
    (∀ t m, OpMode.settable p m = true → getReqop p (setReqop p t m) = .mode m ∧ getOpmod p (setOpmod p t m) = .mode m) ∧
    (∀ t v, getWft p (setWft p t v) = v) ∧ (∀ t v, getTxbws p (setTxbws p t v) = v) ∧
    (∀ t v, getClkodiv p (setClkodiv p t v) = v) ∧
    (∀ t v, getTxqTxat p (setTxqTxat p t v) = v) ∧ (∀ t v, getFifoTxat p (setFifoTxat p t v) = v) ∧
    (∀ t v, PayloadSize.settable p v = true → getTxqPlsize p (setTxqPlsize p t v) = v) ∧
    (∀ t v, PayloadSize.settable p v = true → getFifoPlsize p (setFifoPlsize p t v) = v)

/-- R32, R204, R207, R211, R212, R209: a code outside its field's mapped set, or of no variant, reads as the field's fallback. TXAT reads
UnlimitedRetries for every code but those of the other two variants, and TXBWS Delay4096 for every code but those of the other twelve:
under the default tables the codes 2 and 3, and 12 to 15. PLSIZE reads the smallest size exactly for
its own code, for a code outside PLSIZE_MAPPED and for one of no variant (log 34, log 37). Log 38, the model's choice: where the
parameters give two variants one code, it reads as the first of them in the order of the field's table; under `Params.CodesOk` none do. -/
def Obligations.UnmappedCodesReadAsTheFallback : Prop :=
  ∀ (p : Params),
    (∀ t, getOpmod p t = .unknown ↔ OpMode.mapped p (RegField.get p .chip_OPMOD t).toNat = false ∨
      ∀ m, OpMode.code p m ≠ (RegField.get p .chip_OPMOD t).toNat) ∧
    (∀ t, getReqop p t = .unknown ↔ OpMode.mapped p (RegField.get p .chip_REQOP t).toNat = false ∨
      ∀ m, OpMode.code p m ≠ (RegField.get p .chip_REQOP t).toNat) ∧
    (∀ t, getTxqTxat p t = .unlimitedRetries ↔
      ∀ v, v ≠ .unlimitedRetries → Retransmission.code p v ≠ (RegField.get p .txq_TXAT t).toNat) ∧
    (∀ t, getFifoTxat p t = .unlimitedRetries ↔
      ∀ v, v ≠ .unlimitedRetries → Retransmission.code p v ≠ (RegField.get p .fifo_TXAT t).toNat) ∧
    (∀ t, getTxqPlsize p t = .bytes8 ↔ PayloadSize.mapped p (RegField.get p .txq_PLSIZE t).toNat = false ∨
      PayloadSize.code p .bytes8 = (RegField.get p .txq_PLSIZE t).toNat ∨
      ∀ v, PayloadSize.code p v ≠ (RegField.get p .txq_PLSIZE t).toNat) ∧
    (∀ t, getFifoPlsize p t = .bytes8 ↔ PayloadSize.mapped p (RegField.get p .fifo_PLSIZE t).toNat = false ∨
      PayloadSize.code p .bytes8 = (RegField.get p .fifo_PLSIZE t).toNat ∨
      ∀ v, PayloadSize.code p v ≠ (RegField.get p .fifo_PLSIZE t).toNat) ∧
    (∀ t, getTxbws p t = .delay4096 ↔ ∀ v, v ≠ .delay4096 → TxDelay.code p v ≠ (RegField.get p .chip_TXBWS t).toNat)

/-- R213, R214: of TxQueueControl and FifoControl alike, a depth of 0 is rejected and every other is stored as `min(size, 32) − 1`; the
depth read is the stored code plus 1, 1 to 32, and reads back `min(size, 32)` after a set. -/
def Obligations.FifoDepthIsClampedAndZeroRejected : Prop :=
  ∀ p : Params, p.RegLayoutOk → ∀ size : Nat,
    (∀ t, (setTxqFifoSize p t size = .err (.invalidFifoSize 0) ↔ size = 0) ∧
      (∀ t', setTxqFifoSize p t size = .ok t' ↔
        1 ≤ size ∧ t' = RegField.set p .txq_FSIZE t (BitVec.ofNat _ (min size 32 - 1))) ∧
      (∀ t', setTxqFifoSize p t size = .ok t' → txqFifoSize p t' = min size 32) ∧
      txqFifoSize p t = (RegField.get p .txq_FSIZE t).toNat + 1 ∧ 1 ≤ txqFifoSize p t ∧ txqFifoSize p t ≤ 32) ∧
    (∀ t, (setFifoSize p t size = .err (.invalidFifoSize 0) ↔ size = 0) ∧
      (∀ t', setFifoSize p t size = .ok t' ↔
        1 ≤ size ∧ t' = RegField.set p .fifo_FSIZE t (BitVec.ofNat _ (min size 32 - 1))) ∧
      (∀ t', setFifoSize p t size = .ok t' → fifoSize p t' = min size 32) ∧
      fifoSize p t = (RegField.get p .fifo_FSIZE t).toNat + 1 ∧ 1 ≤ fifoSize p t ∧ fifoSize p t ≤ 32)

/-! ### Message headers -/

/-- R267, R203, R262, R274, R275: the four laws of R203 for the fields of a header, of both kinds. A field is read back as set and no other
field moves, under any header layout without overlaps, words and bits (93 G29; log 9), with no cross-field validation; under any at all
(of one that is not `Params.HdrLayoutOk`: log 9, the model's choice) the last set wins, setting what was read gives the same header, and
a setter preserves every bit outside its field, SID11 and the reserved bits among them. The timestamp is word 2 of an RX header, read and replaced whole. -/
def Obligations.HeaderFieldLaws : Prop :=
  (∀ p : Params, p.HdrLayoutOk → ∀ (k : HdrKind) (f g : HField k) (h : Header k) (v : BitVec (f.width p)),
    HField.get p f (HField.set p f h v) = v ∧
    (f ≠ g → HField.get p g (HField.set p f h v) = HField.get p g h)) ∧
  (∀ (p : Params) (k : HdrKind) (f : HField k) (h : Header k) (v v' : BitVec (f.width p)),
    HField.set p f (HField.set p f h v) v' = HField.set p f h v' ∧
    HField.set p f h (HField.get p f h) = h ∧
    (∀ j, j ≠ f.word p → (HField.set p f h v).word j = h.word j) ∧
    (∀ i, i < f.lo p ∨ f.lo p + f.width p ≤ i →
      ((HField.set p f h v).word (f.word p)).getLsbD i = (h.word (f.word p)).getLsbD i)) ∧
  (∀ (p : Params) (h : RxHeader) (t : Word), timestamp h = h.word 2 ∧ timestamp (setTimestamp h t) = t ∧
    timestamp h = HField.get p .timestamp h ∧ setTimestamp h t = HField.set p .timestamp h t)

/-- R268, R269: an identifier is read back as written, standard and extended; the standard write clears EID and IDE, the extended one
splits the identifier; DLC, ESI, FDF, BRS and RTR stay. -/
def Obligations.IdentifiersRoundTrip : Prop :=
  ∀ p : Params, p.HdrLayoutOk → ∀ (k : HdrKind) (h : Header k),
    (∀ i : BitVec 11, Header.id p (setStandardId p h i) = i.setWidth 29 ∧ HField.get p .sid (setStandardId p h i) = i ∧
      HField.get p .eid (setStandardId p h i) = (0 : BitVec 18) ∧ getIde p (setStandardId p h i) = false ∧
      ∀ f ∈ [HField.dlc, .esi, .fdf, .brs, .rtr], HField.get p f (setStandardId p h i) = HField.get p f h) ∧
    (∀ i : BitVec 29, Header.id p (setExtendedId p h i) = i ∧
      (HField.get p .sid (setExtendedId p h i)).toNat = i.toNat / 2 ^ 18 ∧
      (HField.get p .eid (setExtendedId p h i)).toNat = i.toNat % 2 ^ 18 ∧ getIde p (setExtendedId p h i) = true ∧
      ∀ f ∈ [HField.dlc, .esi, .fdf, .brs, .rtr], HField.get p f (setExtendedId p h i) = HField.get p f h)

/-- R270, R271: the length table, strictly rising, and its exact inverse: a length not in the table gets no code. -/
def Obligations.LengthTableIsExact : Prop :=
  (List.range 16).map (fun d => dlcToLen (BitVec.ofNat 4 d)) = [0, 1, 2, 3, 4, 5, 6, 7, 8, 12, 16, 20, 24, 32, 48, 64] ∧
  (∀ (n : Nat) (d : BitVec 4), lenToDlc n = some d ↔ dlcToLen d = n) ∧
  (∀ n : Nat, lenToDlc n = none ↔ ∀ d, dlcToLen d ≠ n)

/-! ### The sequencer -/

/-- R301, R304, R305, R207, R312: the way from Unconfigured to VerifyingComms. RequestingConfigMode, when the chip answers `c`, is one
read and one write of C1CON: the word written has Configuration's code in REQOP, 0b100 by default, and every other bit of `c`. It goes on
to the first poll, and a failed read or write ends it in Other. The code is written also where OPMODE_MAPPED leaves it out (log 36, the
model's choice). In AwaitingConfigMode, with the first k readings not Configuration (a failed transfer counts as zero), it succeeds at
read k+1 for k up to 4, having read C1CON k+1 times with Delay(500) after each failed read; and with five such readings it ends in
ConfigurationModeTimeout after exactly 5 reads of C1CON and 4 delays. -/
def Obligations.ConfigModePollingBudget : Prop :=
  ∀ (settings : Settings) (s : State),
    let con := s.cfg.sfrAddrOf .c1con
    let rd := be16 (encodeWord (sfrReadOp s.cfg) con) ++ [0, 0, 0, 0]
    let wr := fun w : Word => be16 (encodeWord (sfrWriteOp s.cfg) con) ++ le32 w
    let req := RegField.chip_REQOP
    seqTransition settings .unconfigured s = (.requestingConfigMode, s) ∧
    (∀ (c : Word) (rest : List Answer), s.cs = .inactive → s.cfg.RegLayoutOk → ∃ w : Word,
      (RegField.get s.cfg req ⟨w⟩).toNat = OpMode.code s.cfg .configuration ∧
      (s.cfg.opmodeCode = [] → (RegField.get s.cfg req ⟨w⟩).toNat = 0b100) ∧
      (OpMode.settable s.cfg .configuration = true → getReqop s.cfg ⟨w⟩ = .mode .configuration) ∧
      (∀ i, i < req.lo s.cfg ∨ req.lo s.cfg + req.width s.cfg ≤ i → w.getLsbD i = c.getLsbD i) ∧
      (∀ x : List Byte, s.script = .ok (0 :: 0 :: le32 c) :: .ok x :: rest →
        ∃ t, seqTransition settings .requestingConfigMode s = (.awaitingConfigMode 1, t) ∧ t.script = rest ∧
          t.trace = s.trace ++ readEvents .inactive rd (some (0 :: 0 :: le32 c)) ++ writeEvents .inactive (wr w) true) ∧
      (∀ m : Nat, s.script = .ok (0 :: 0 :: le32 c) :: .fail m :: rest →
        ∃ t, seqTransition settings .requestingConfigMode s = (.failed (.other .spiWrite), t) ∧ t.script = rest ∧
          t.trace = s.trace ++ readEvents .inactive rd (some (0 :: 0 :: le32 c)) ++ writeEvents .inactive (wr w) false) ∧
      (∀ m : Nat, s.script = .fail m :: rest →
        ∃ t, seqTransition settings .requestingConfigMode s = (.failed (.other .spiRead), t) ∧ t.script = rest ∧
          t.trace = s.trace ++ readEvents .inactive rd none)) ∧
    (∀ l rest : List Answer, s.cs = .inactive → (∀ a ∈ l, NotYetConfigured s.cfg a) → l.length ≤ 4 →
      (∀ good : List Byte, s.script = l ++ .ok good :: rest → good.length = 6 →
        getOpmod s.cfg ⟨fromLE32 (good.drop 2)⟩ = .mode .configuration →
        ∃ t, seqIterate settings (l.length + 1) (.awaitingConfigMode 1, s) = (.verifyingComms 0, t) ∧
          t.trace = s.trace ++ pollEvents rd l ++ readEvents .inactive rd (some good)) ∧
      (∀ last : Answer, l.length = 4 → s.script = l ++ last :: rest → NotYetConfigured s.cfg last →
        ∃ t, seqIterate settings 5 (.awaitingConfigMode 1, s) = (.failed .configurationModeTimeout, t) ∧
          t.trace = s.trace ++ pollEvents rd l ++ readEvents .inactive rd last.reading))

/-- R308, R312: AwaitingPLL, likewise with up to 3 reads of OSC and 2 delays, and PLLNotReady. -/
def Obligations.PllPollingBudget : Prop :=
  ∀ (settings : Settings) (s : State) (l rest : List Answer), s.cs = .inactive → (∀ a ∈ l, NotYetLocked s.cfg a) →
    l.length ≤ 2 →
    let rd := be16 (encodeWord (sfrReadOp s.cfg) (s.cfg.sfrAddrOf .osc)) ++ [0, 0, 0, 0]
    (∀ good : List Byte, s.script = l ++ .ok good :: rest → good.length = 6 →
      RegField.getBool s.cfg .osc_PLLRDY ⟨fromLE32 (good.drop 2)⟩ = true →
      ∃ t, seqIterate settings (l.length + 1) (.awaitingPll 1, s) = (.programmingIo, t) ∧
        t.trace = s.trace ++ pollEvents rd l ++ readEvents .inactive rd (some good)) ∧
    (∀ last : Answer, l.length = 2 → s.script = l ++ last :: rest → NotYetLocked s.cfg last →
      ∃ t, seqIterate settings 3 (.awaitingPll 1, s) = (.failed .pllNotReady, t) ∧
        t.trace = s.trace ++ pollEvents rd l ++ readEvents .inactive rd last.reading)

/-- R306, R301: VerifyingComms at one bit of the echo test, when its write succeeds and its read clocks in `given`: the pattern is written
at 0x400, and a payload that differs ends in SPIFailedRAMEcho, an equal one goes on to the next bit, and from bit 31 to the oscillator. A
failed write or read ends in Other. -/
def Obligations.EchoTestJudgesEachBit : Prop :=
  ∀ (settings : Settings) (s : State) (bit : Nat) (x given : List Byte) (rest : List Answer) (m : Nat), s.cs = .inactive →
    let pat := native32 s.cfg.hostEndian ((1 : Word) <<< bit)
    let wr := be16 (encodeWord s.cfg.opWrite 0x400) ++ pat
    let rd := be16 (encodeWord s.cfg.opRead 0x400) ++ [0, 0, 0, 0]
    (s.script = .ok x :: .ok given :: rest → given.length = 6 →
      ∃ t, seqTransition settings (.verifyingComms bit) s =
          (if given.drop 2 = pat then (if bit < 31 then .verifyingComms (bit + 1) else .programmingOscillator)
            else .failed .spiFailedRamEcho, t) ∧
        t.trace = s.trace ++ writeEvents .inactive wr true ++ readEvents .inactive rd (some given)) ∧
    (s.script = .fail m :: rest → ∃ t, seqTransition settings (.verifyingComms bit) s = (.failed (.other .spiWrite), t) ∧
      t.trace = s.trace ++ writeEvents .inactive wr false) ∧
    (s.script = .ok x :: .fail m :: rest →
      ∃ t, seqTransition settings (.verifyingComms bit) s = (.failed (.other .spiRead), t) ∧
        t.trace = s.trace ++ writeEvents .inactive wr true ++ readEvents .inactive rd none)

/-- R307, R301, R308, R202, R225: ProgrammingOscillator, when the chip answers `o`: one read and one write of OSC; the word written has
PLLEN and the clock divider from Settings and OSCDIS cleared, and every other bit of `o`, unimplemented ones included; and AwaitingPLL
follows exactly when the PLL was requested on. The divider is SCLKDIV, or CLKODIV with the codes of Div1 and Div2 (log 19). A failed read
or write ends it in Other. -/
def Obligations.OscillatorTransformSetsThreeFields : Prop :=
  ∀ (settings : Settings) (s : State) (o : Word) (rest : List Answer), s.cs = .inactive → s.cfg.RegLayoutOk →
    let osc := settings.osc
    let divider : RegField .oscillator := match s.cfg.clockDivider with
      | .sclkdiv => .osc_SCLKDIV
      | .clkodiv => .osc_CLKODIV
    let rd := be16 (encodeWord (sfrReadOp s.cfg) (s.cfg.sfrAddrOf .osc)) ++ [0, 0, 0, 0]
    let wr := fun w : Word => be16 (encodeWord (sfrWriteOp s.cfg) (s.cfg.sfrAddrOf .osc)) ++ le32 w
    ∃ w : Word, RegField.getBool s.cfg .osc_PLLEN ⟨w⟩ = osc.pllEnable ∧ RegField.getBool s.cfg .osc_OSCDIS ⟨w⟩ = false ∧
      (s.cfg.clockDivider = .sclkdiv → RegField.getBool s.cfg .osc_SCLKDIV ⟨w⟩ = osc.clockDivideBy2) ∧
      (s.cfg.clockDivider = .clkodiv → getClkodiv s.cfg ⟨w⟩ = (if osc.clockDivideBy2 then .div2 else .div1)) ∧
      (∀ i, (∀ f ∈ [.osc_PLLEN, .osc_OSCDIS, divider], RegField.Outside s.cfg f i) → w.getLsbD i = o.getLsbD i) ∧
      (∀ f : RegField .oscillator, f ∉ [.osc_PLLEN, .osc_OSCDIS, divider] →
        RegField.get s.cfg f ⟨w⟩ = RegField.get s.cfg f ⟨o⟩) ∧
      (∀ x : List Byte, s.script = .ok (0 :: 0 :: le32 o) :: .ok x :: rest →
        ∃ t, seqTransition settings .programmingOscillator s =
            (if osc.pllEnable then .awaitingPll 1 else .programmingIo, t) ∧
          t.trace = s.trace ++ readEvents .inactive rd (some (0 :: 0 :: le32 o)) ++ writeEvents .inactive (wr w) true) ∧
      (∀ m : Nat, s.script = .ok (0 :: 0 :: le32 o) :: .fail m :: rest →
        ∃ t, seqTransition settings .programmingOscillator s = (.failed (.other .spiWrite), t) ∧
          t.trace = s.trace ++ readEvents .inactive rd (some (0 :: 0 :: le32 o)) ++ writeEvents .inactive (wr w) false) ∧
      (∀ m : Nat, s.script = .fail m :: rest →
        ∃ t, seqTransition settings .programmingOscillator s = (.failed (.other .spiRead), t) ∧
          t.trace = s.trace ++ readEvents .inactive rd none)

/-- R309, R301: ProgrammingIO writes one word to IOCON, plainly, with no read: the six settings of Settings, and 0 in every other bit.
As the environment answers, it goes on to the TX queue or ends in Other. -/
def Obligations.IoWordIsBuiltFromZero : Prop :=
  ∀ (settings : Settings) (s : State), s.cs = .inactive → s.cfg.RegLayoutOk →
    let io := settings.io
    ∃ w : Word,
      RegField.getBool s.cfg .io_XSTBYEN ⟨w⟩ = io.standbyEnable ∧
      RegField.getBool s.cfg .io_TXCANOD ⟨w⟩ = io.txcanOpenDrain ∧
      RegField.getBool s.cfg .io_INTOD ⟨w⟩ = io.intOpenDrain ∧
      RegField.getBool s.cfg .io_SOF ⟨w⟩ = io.sofOnClko ∧
      RegField.getBool s.cfg .io_PM0 ⟨w⟩ = io.gpio0Mode ∧
      RegField.getBool s.cfg .io_PM1 ⟨w⟩ = io.gpio1Mode ∧
      (∀ f ∈ [RegField.io_GPIO1, .io_GPIO0, .io_LAT1, .io_LAT0, .io_TRIS1, .io_TRIS0],
        (RegField.get s.cfg f ⟨w⟩).toNat = 0) ∧
      (∀ i, (∀ f ∈ [.io_XSTBYEN, .io_TXCANOD, .io_INTOD, .io_SOF, .io_PM0, .io_PM1], RegField.Outside s.cfg f i) →
        w.getLsbD i = false) ∧
      let wr := be16 (encodeWord (sfrWriteOp s.cfg) (s.cfg.sfrAddrOf .iocon)) ++ le32 w
      let ok := (envAnswer (csReady s) wr).succeeded
      ∃ t, seqTransition settings .programmingIo s = ((if ok then .programmingTxQueue else .failed (.other .spiWrite)), t) ∧
        t.trace = s.trace ++ writeEvents .inactive wr ok

/-- R310: "issuing the corrective write only if the current hardware bit disagrees". The reconcile of a C1CON that reads `c` sends the read
and, when the word wanted differs from `c`, one write of it. The word wanted has TXQEN set to "in use"; with TEF_RECONCILE_BIT = some b it
has bit b set, last, to the negation of "in use"; every other bit is that of `c`. So nothing is written exactly when those one or two bits
agree already. A failed read ends it in SPIRead with no write, and a failed corrective write in SPIWrite. -/
def Obligations.ReconcileWritesOnlyOnDisagreement : Prop :=
  ∀ (s : State) (inUse : Bool) (c : Word) (rest : List Answer), s.cs = .inactive → s.cfg.RegLayoutOk →
    let con := s.cfg.sfrAddrOf .c1con
    let rd := readEvents .inactive (be16 (encodeWord (sfrReadOp s.cfg) con) ++ [0, 0, 0, 0])
    let wr := fun w : Word => writeEvents .inactive (be16 (encodeWord (sfrWriteOp s.cfg) con) ++ le32 w)
    let txqen := RegField.lo s.cfg .chip_TXQEN
    let ends := fun (r : Result TransportError Unit) (events : List Event) =>
      ∃ t, reconcile inUse s = (r, t) ∧ t.trace = s.trace ++ events
    ∃ w, w = (reconcileWord s.cfg inUse ⟨c⟩).bits ∧
      (s.cfg.tefReconcileBit = none →
        RegField.getBool s.cfg .chip_TXQEN ⟨w⟩ = inUse ∧ (∀ i, i ≠ txqen → w.getLsbD i = c.getLsbD i) ∧
        (w = c ↔ RegField.getBool s.cfg .chip_TXQEN ⟨c⟩ = inUse)) ∧
      (∀ b : Fin 32, s.cfg.tefReconcileBit = some b →
        w.getLsbD b.val = !inUse ∧ (b.val ≠ txqen → RegField.getBool s.cfg .chip_TXQEN ⟨w⟩ = inUse) ∧
        (∀ i, i ≠ txqen → i ≠ b.val → w.getLsbD i = c.getLsbD i) ∧
        (w = c ↔ c.getLsbD b.val = (!inUse) ∧ (b.val = txqen ∨ RegField.getBool s.cfg .chip_TXQEN ⟨c⟩ = inUse))) ∧
      (w = c → s.script = .ok (0 :: 0 :: le32 c) :: rest → ends (.ok ()) (rd (some (0 :: 0 :: le32 c)))) ∧
      (∀ x, w ≠ c → s.script = .ok (0 :: 0 :: le32 c) :: .ok x :: rest →
        ends (.ok ()) (rd (some (0 :: 0 :: le32 c)) ++ wr w true)) ∧
      (∀ m, w ≠ c → s.script = .ok (0 :: 0 :: le32 c) :: .fail m :: rest →
        ends (.err .spiWrite) (rd (some (0 :: 0 :: le32 c)) ++ wr w false)) ∧
      (∀ m, s.script = .fail m :: rest → ends (.err .spiRead) (rd none))

/-- R310, R301, R311, R202, R225, W8: ProgrammingTxQueue with a queue of size 0, when the chip answers `q` for C1TXQCON and `c` for C1CON:
one read and one write of C1TXQCON, which sets retransmission and priority and leaves every other bit as read, FSIZE and PLSIZE among
them; one read of C1CON, and the corrective write only if the word disagrees with "disabled"; no second C1TXQCON write. A failed read or
write ends it in Other, with the events up to that frame and no more. -/
def Obligations.ZeroSizeQueueProgramsNoDepth : Prop :=
  ∀ (settings : Settings) (s : State) (q c : Word) (rest : List Answer), s.cs = .inactive → settings.txq.size = 0 →
    s.cfg.RegLayoutOk →
    let queue := settings.txq
    let txq := s.cfg.sfrAddrOf .c1txqcon
    let con := s.cfg.sfrAddrOf .c1con
    let rd := fun a : Addr => readEvents .inactive (be16 (encodeWord (sfrReadOp s.cfg) a) ++ [0, 0, 0, 0])
    let wr := fun (a : Addr) (w : Word) => writeEvents .inactive (be16 (encodeWord (sfrWriteOp s.cfg) a) ++ le32 w)
    let reads := fun w : Word => (0 :: 0 :: le32 w : List Byte)
    let want := (reconcileWord s.cfg false ⟨c⟩).bits
    let ends := fun (phase : SeqPhase) (events : List Event) =>
      ∃ t, seqTransition settings .programmingTxQueue s = (phase, t) ∧ t.trace = s.trace ++ events
    ∃ w : Word, getTxqTxat s.cfg ⟨w⟩ = queue.retransmission ∧
      (RegField.get s.cfg .txq_TXPRI ⟨w⟩).toNat = queue.priority.toNat ∧
      (∀ i, (∀ f ∈ [.txq_TXAT, .txq_TXPRI], RegField.Outside s.cfg f i) → w.getLsbD i = q.getLsbD i) ∧
      (∀ f : RegField .txQueueControl, f ∉ [.txq_TXAT, .txq_TXPRI] → RegField.get s.cfg f ⟨w⟩ = RegField.get s.cfg f ⟨q⟩) ∧
      (∀ m, s.script = .fail m :: rest → ends (.failed (.other .spiRead)) (rd txq none)) ∧
      (∀ m, s.script = .ok (reads q) :: .fail m :: rest →
        ends (.failed (.other .spiWrite)) (rd txq (some (reads q)) ++ wr txq w false)) ∧
      let modify := rd txq (some (reads q)) ++ wr txq w true
      (∀ x m, s.script = .ok (reads q) :: .ok x :: .fail m :: rest →
        ends (.failed (.other .spiRead)) (modify ++ rd con none)) ∧
      (∀ x, want = c → s.script = .ok (reads q) :: .ok x :: .ok (reads c) :: rest →
        ends .configured (modify ++ rd con (some (reads c)))) ∧
      (∀ x y, want ≠ c → s.script = .ok (reads q) :: .ok x :: .ok (reads c) :: .ok y :: rest →
        ends .configured (modify ++ rd con (some (reads c)) ++ wr con want true)) ∧
      (∀ x m, want ≠ c → s.script = .ok (reads q) :: .ok x :: .ok (reads c) :: .fail m :: rest →
        ends (.failed (.other .spiWrite)) (modify ++ rd con (some (reads c)) ++ wr con want false))

/-- R310, R301, R311, R212, R213, R211, R215, R202, R225: ProgrammingTxQueue with a queue of nonzero size: a first modify of C1TXQCON with
retransmission and priority, a second with depth and payload of the word then read, every other bit as read in each, then the reconcile
with "in use". A failed read or write ends it in Other, with the events up to that frame and no more. -/
def Obligations.SizedQueueProgramsDepthAndPayload : Prop :=
  ∀ (settings : Settings) (s : State) (q q' c : Word) (rest : List Answer), s.cs = .inactive → settings.txq.size ≠ 0 →
    s.cfg.RegLayoutOk →
    let queue := settings.txq
    let txq := s.cfg.sfrAddrOf .c1txqcon
    let con := s.cfg.sfrAddrOf .c1con
    let rd := fun a : Addr => readEvents .inactive (be16 (encodeWord (sfrReadOp s.cfg) a) ++ [0, 0, 0, 0])
    let wr := fun (a : Addr) (w : Word) => writeEvents .inactive (be16 (encodeWord (sfrWriteOp s.cfg) a) ++ le32 w)
    let reads := fun w : Word => (0 :: 0 :: le32 w : List Byte)
    let want := (reconcileWord s.cfg true ⟨c⟩).bits
    let ends := fun (phase : SeqPhase) (events : List Event) =>
      ∃ t, seqTransition settings .programmingTxQueue s = (phase, t) ∧ t.trace = s.trace ++ events
    ∃ w w' : Word, getTxqTxat s.cfg ⟨w⟩ = queue.retransmission ∧
      (RegField.get s.cfg .txq_TXPRI ⟨w⟩).toNat = queue.priority.toNat ∧
      (∀ i, (∀ f ∈ [.txq_TXAT, .txq_TXPRI], RegField.Outside s.cfg f i) → w.getLsbD i = q.getLsbD i) ∧
      (∀ f : RegField .txQueueControl, f ∉ [.txq_TXAT, .txq_TXPRI] → RegField.get s.cfg f ⟨w⟩ = RegField.get s.cfg f ⟨q⟩) ∧
      txqFifoSize s.cfg ⟨w'⟩ = min queue.size 32 ∧
      (RegField.get s.cfg .txq_PLSIZE ⟨w'⟩).toNat = PayloadSize.code s.cfg queue.payload ∧
      (∀ i, (∀ f ∈ [.txq_FSIZE, .txq_PLSIZE], RegField.Outside s.cfg f i) → w'.getLsbD i = q'.getLsbD i) ∧
      (∀ f : RegField .txQueueControl, f ∉ [.txq_FSIZE, .txq_PLSIZE] →
        RegField.get s.cfg f ⟨w'⟩ = RegField.get s.cfg f ⟨q'⟩) ∧
      (∀ m, s.script = .fail m :: rest → ends (.failed (.other .spiRead)) (rd txq none)) ∧
      (∀ m, s.script = .ok (reads q) :: .fail m :: rest →
        ends (.failed (.other .spiWrite)) (rd txq (some (reads q)) ++ wr txq w false)) ∧
      let modify := rd txq (some (reads q)) ++ wr txq w true
      (∀ x m, s.script = .ok (reads q) :: .ok x :: .fail m :: rest →
        ends (.failed (.other .spiRead)) (modify ++ rd txq none)) ∧
      (∀ x m, s.script = .ok (reads q) :: .ok x :: .ok (reads q') :: .fail m :: rest →
        ends (.failed (.other .spiWrite)) (modify ++ rd txq (some (reads q')) ++ wr txq w' false)) ∧
      let both := modify ++ rd txq (some (reads q')) ++ wr txq w' true
      (∀ x x' m, s.script = .ok (reads q) :: .ok x :: .ok (reads q') :: .ok x' :: .fail m :: rest →
        ends (.failed (.other .spiRead)) (both ++ rd con none)) ∧
      (∀ x x', want = c → s.script = .ok (reads q) :: .ok x :: .ok (reads q') :: .ok x' :: .ok (reads c) :: rest →
        ends .configured (both ++ rd con (some (reads c)))) ∧
      (∀ x x' y, want ≠ c →
        s.script = .ok (reads q) :: .ok x :: .ok (reads q') :: .ok x' :: .ok (reads c) :: .ok y :: rest →
        ends .configured (both ++ rd con (some (reads c)) ++ wr con want true)) ∧
      (∀ x x' m, want ≠ c →
        s.script = .ok (reads q) :: .ok x :: .ok (reads q') :: .ok x' :: .ok (reads c) :: .fail m :: rest →
        ends (.failed (.other .spiWrite)) (both ++ rd con (some (reads c)) ++ wr con want false))

/-- R303, R302, R35: the call `configure(settings)` on an owned Controller begins a run at Unconfigured and does nothing else; one that
would set an unmapped payload size, of a queue that is used, is refused (R223; log 18), and one whose code is mapped but
too wide for its field is not (log 38, the model's choice). "Once started it runs to a terminal state":
whatever the environment answers, it returns exactly one result within 46 steps (one transition of R301, one poll or one echo bit a step,
log 20), and nothing of it is retained. -/
def Obligations.ConfigureAlwaysReturns : Prop :=
  (∀ (s : State) (settings : Settings), s.owned = true →
    (settings.txq.size = 0 ∨ PayloadSize.settable s.cfg settings.txq.payload = true →
      runCall (.configure settings) s = .next { s with seq := some ⟨settings, .unconfigured⟩ }) ∧
    (settings.txq.size ≠ 0 → PayloadSize.settable s.cfg settings.txq.payload = false →
      runCall (.configure settings) s = .refused .notSettable)) ∧
  (∀ (s : State) (settings : Settings), s.owned = true → s.seq = some ⟨settings, .unconfigured⟩ →
    ∃ k, k ≤ 46 ∧ ∃ t : State, Host.Core.run Sys2Proof.core k s = .next t ∧ t.seq = none ∧ t.owned = true ∧
      t.requests = s.requests ∧
      ∃ r, t.replies = s.replies ++ [.done r] ∧
        (r = .ok .unit ∨ ∃ e : ConfigError, r = .err e.toError))
end

