-- ==== Sys2Proof/Laws/Bits.lean ====
section
/-! SUPPORT. The laws of the generic bit fields and of the byte helpers (spec/42_register_fields.md R203, spec/00_scope.md R11). -/

namespace Sys2Proof

/-! ### Bit fields -/

@[simp] theorem getLsbD_fieldMask (lo n i : Nat) :
    (fieldMask lo n).getLsbD i = (decide (i < 32) && decide (lo ≤ i) && decide (i - lo < n)) := by
  rw [fieldMask, BitVec.getLsbD_shiftLeft, BitVec.getLsbD_ofNat, Nat.testBit_two_pow_sub_one]
  by_cases h1 : i < 32 <;> by_cases h2 : lo ≤ i <;> by_cases h3 : i - lo < n <;> (simp [h1, h2, h3]; try omega)

/-- Bit `i` of a word after a field is set: the field's bits inside it, the old bits elsewhere. -/
theorem getLsbD_setBits (v : Word) (lo n : Nat) (x : BitVec n) (i : Nat) (hi : i < 32) :
    (setBits v lo n x).getLsbD i = if lo ≤ i ∧ i - lo < n then x.getLsbD (i - lo) else v.getLsbD i := by
  have hx : n ≤ i - lo → x.getLsbD (i - lo) = false := fun h => BitVec.getLsbD_of_ge _ _ h
  have h32 : i - lo < 32 := by omega
  simp only [setBits, BitVec.getLsbD_or, BitVec.getLsbD_and, BitVec.getLsbD_not, getLsbD_fieldMask,
    BitVec.getLsbD_shiftLeft, BitVec.getLsbD_setWidth, hi, h32]
  by_cases h2 : lo ≤ i
  · by_cases h3 : i - lo < n
    · simp [h2, h3]
    · simp [h2, h3, hx (by omega)]
  · simp [h2]

theorem getLsbD_getBits (v : Word) (lo n i : Nat) (hi : i < n) : (getBits v lo n).getLsbD i = v.getLsbD (lo + i) := by
  simp [getBits, hi]

/-- Law 1 of R203. -/
theorem getBits_setBits (v : Word) (lo n : Nat) (x : BitVec n) (h : lo + n ≤ 32) :
    getBits (setBits v lo n x) lo n = x := by
  refine BitVec.eq_of_getLsbD_eq fun i hi => ?_
  rw [getLsbD_getBits _ _ _ _ hi, getLsbD_setBits _ _ _ _ _ (by omega)]
  simp [hi]

/-- Law 2 of R203. -/
theorem getBits_setBits_apart (v : Word) (lo n lo' n' : Nat) (x : BitVec n) (h : lo' + n' ≤ 32)
    (hd : lo + n ≤ lo' ∨ lo' + n' ≤ lo) : getBits (setBits v lo n x) lo' n' = getBits v lo' n' := by
  refine BitVec.eq_of_getLsbD_eq fun i hi => ?_
  rw [getLsbD_getBits _ _ _ _ hi, getLsbD_getBits _ _ _ _ hi, getLsbD_setBits _ _ _ _ _ (by omega), if_neg (by omega)]

/-- Law 3 of R203. -/
theorem setBits_setBits (v : Word) (lo n : Nat) (x y : BitVec n) :
    setBits (setBits v lo n x) lo n y = setBits v lo n y := by
  refine BitVec.eq_of_getLsbD_eq fun i hi => ?_
  rw [getLsbD_setBits _ _ _ _ _ hi, getLsbD_setBits _ _ _ _ _ hi, getLsbD_setBits _ _ _ _ _ hi]
  split <;> rfl

/-- Law 4 of R203. -/
theorem setBits_getBits (v : Word) (lo n : Nat) : setBits v lo n (getBits v lo n) = v := by
  refine BitVec.eq_of_getLsbD_eq fun i hi => ?_
  rw [getLsbD_setBits _ _ _ _ _ hi]
  split
  · rename_i h; rw [getLsbD_getBits _ _ _ _ h.2]; congr 1; omega
  · rfl

/-- A setter preserves every bit outside its field (R202, R225). -/
theorem getLsbD_setBits_outside (v : Word) (lo n : Nat) (x : BitVec n) (i : Nat) (h : i < lo ∨ lo + n ≤ i) :
    (setBits v lo n x).getLsbD i = v.getLsbD i := by
  by_cases hi : i < 32
  · rw [getLsbD_setBits _ _ _ _ _ hi, if_neg (by omega)]
  · rw [BitVec.getLsbD_of_ge _ _ (by omega), BitVec.getLsbD_of_ge _ _ (by omega)]

/-- A set that changes nothing is one of what was there. -/
theorem setBits_eq_self_iff (v : Word) (lo n : Nat) (x : BitVec n) (h : lo + n ≤ 32) :
    setBits v lo n x = v ↔ getBits v lo n = x :=
  ⟨fun e => by rw [← e, getBits_setBits _ _ _ _ h], fun e => by rw [← e, setBits_getBits]⟩

/-- Each bit of a word after `set_bit` (R310). -/
theorem getLsbD_setBit {T : RegType} (t : RegWord T) (b : Fin 32) (x : Bool) (i : Nat) :
    (setBit t b x).bits.getLsbD i = if i = b.val then x else t.bits.getLsbD i := by
  split
  · rename_i h
    subst h
    rw [setBit, getLsbD_setBits _ _ _ _ _ b.isLt, if_pos (by omega), Nat.sub_self]
    cases x <;> rfl
  · exact getLsbD_setBits_outside _ _ _ _ _ (by omega)

/-! ### Bytes -/

@[simp] theorem be16_length (w : BitVec 16) : (be16 w).length = 2 := rfl
@[simp] theorem le32_length (v : Word) : (le32 v).length = 4 := rfl

@[simp] theorem native32_length (e : Endian) (v : Word) : (native32 e v).length = 4 := by cases e <;> rfl

/-- A byte of a concatenation of lists, read back from the 16-bit word. -/
theorem fromBE16_be16 (w : BitVec 16) :
    fromBE16 (w.extractLsb' 8 8) (w.extractLsb' 0 8) = w := by
  refine BitVec.eq_of_getLsbD_eq fun i hi => ?_
  rw [fromBE16, BitVec.getLsbD_append]
  by_cases h : i < 8
  · simp [h]
  · have : i - 8 < 8 := by omega
    simp [h, this]; congr 1; omega

@[simp] theorem fromBE16_getD_be16 (w : BitVec 16) (rest : List Byte) :
    fromBE16 ((be16 w ++ rest).getD 0 0) ((be16 w ++ rest).getD 1 0) = w := fromBE16_be16 w

theorem getLsbD_fromLE32 (b0 b1 b2 b3 : Byte) (i : Nat) (hi : i < 32) :
    (fromLE32 [b0, b1, b2, b3]).getLsbD i =
      if i < 8 then b0.getLsbD i else if i < 16 then b1.getLsbD (i - 8)
      else if i < 24 then b2.getLsbD (i - 16) else b3.getLsbD (i - 24) := by
  have hb : ∀ (b : Byte) (j : Nat), 8 ≤ j → b.getLsbD j = false := fun b j h => BitVec.getLsbD_of_ge _ _ h
  simp only [fromLE32, List.getD_cons_zero, List.getD_cons_succ, BitVec.getLsbD_or, BitVec.getLsbD_shiftLeft,
    BitVec.getLsbD_setWidth, hi]
  by_cases h1 : i < 8
  · simp [h1, show i < 16 by omega, show i < 24 by omega]
  · by_cases h2 : i < 16
    · simp [h1, h2, show i < 24 by omega, hb b0 i (by omega)]
      intro _; omega
    · by_cases h3 : i < 24
      · simp [h1, h2, h3, hb b0 i (by omega), hb b1 (i - 8) (by omega)]
        omega
      · simp [h1, h2, h3, hb b0 i (by omega), hb b1 (i - 8) (by omega), hb b2 (i - 16) (by omega)]
        omega

@[simp] theorem fromLE32_le32 (v : Word) : fromLE32 (le32 v) = v := by
  refine BitVec.eq_of_getLsbD_eq fun i hi => ?_
  rw [le32, getLsbD_fromLE32 _ _ _ _ _ hi]
  split
  · simp [*]
  · split
    · rw [BitVec.getLsbD_extractLsb', show 8 + (i - 8) = i by omega, decide_eq_true (by omega), Bool.true_and]
    · split
      · rw [BitVec.getLsbD_extractLsb', show 16 + (i - 16) = i by omega, decide_eq_true (by omega), Bool.true_and]
      · rw [BitVec.getLsbD_extractLsb', show 24 + (i - 24) = i by omega, decide_eq_true (by omega), Bool.true_and]

theorem le32_fromLE32 (bs : List Byte) (h : bs.length = 4) : le32 (fromLE32 bs) = bs := by
  obtain ⟨b0, b1, b2, b3, rfl⟩ : ∃ b0 b1 b2 b3, bs = [b0, b1, b2, b3] := by
    match bs, h with
    | [b0, b1, b2, b3], _ => exact ⟨b0, b1, b2, b3, rfl⟩
  simp only [le32, List.cons.injEq, and_true]
  refine ⟨?_, ?_, ?_, ?_⟩ <;> refine BitVec.eq_of_getLsbD_eq fun i hi => ?_ <;>
    rw [BitVec.getLsbD_extractLsb', getLsbD_fromLE32 _ _ _ _ _ (by omega)]
  · simp [hi]
  · simp [hi, show ¬ 8 + i < 8 by omega, show 8 + i < 16 by omega]
  · simp [hi, show ¬ 16 + i < 8 by omega, show ¬ 16 + i < 16 by omega, show 16 + i < 24 by omega]
  · simp [hi, show ¬ 24 + i < 8 by omega, show ¬ 24 + i < 16 by omega, show ¬ 24 + i < 24 by omega]

/-! ### The instruction word -/

@[simp] theorem wordOpcode_encodeWord (op : Opcode) (a : Addr) : wordOpcode (encodeWord op a) = op := by
  refine BitVec.eq_of_getLsbD_eq fun i hi => ?_
  simp [wordOpcode, encodeWord, hi, show 12 + i < 16 by omega]

@[simp] theorem wordAddr_encodeWord (op : Opcode) (a : Addr) : wordAddr (encodeWord op a) = a := by
  refine BitVec.eq_of_getLsbD_eq fun i hi => ?_
  simp [wordAddr, encodeWord, hi]; omega

end Sys2Proof
end

