-- ==== Sys2Proof/Laws/Fields.lean ====
section
/-! SUPPORT. The laws of the typed register fields, the enumerated fields, FIFO depth and the header fields
(spec/42_register_fields.md R203 to R214, spec/43_message_headers.md R261, R267). -/

namespace Sys2Proof

open Sys2Proof.Machine

theorem RegField.mem_all {T : RegType} (f : RegField T) : f ∈ RegField.all T := by cases f <;> decide

theorem HField.mem_all {k : HdrKind} (f : HField k) : f ∈ HField.all k := by
  cases k <;> cases f <;> decide

theorem Params.RegLayoutOk.field_inWord {p : Params} (h : p.RegLayoutOk) {T : RegType} (f : RegField T) : f.InWord p :=
  h.inWord T f f.mem_all

theorem Params.RegLayoutOk.field_apart {p : Params} (h : p.RegLayoutOk) {T : RegType} {f g : RegField T} (hne : f ≠ g) :
    f.Apart p g := h.apart T f f.mem_all g g.mem_all hne

theorem Params.RegLayoutOk.flag_width {p : Params} (h : p.RegLayoutOk) {T : RegType} (f : RegField T) (hf : f.defaultWidth = 1) :
    f.width p = 1 := h.flags T f f.mem_all hf

theorem Params.HdrLayoutOk.inWord {p : Params} (h : p.HdrLayoutOk) {k : HdrKind} (f : HField k) : f.InWord p :=
  (h k).1 f f.mem_all

theorem Params.HdrLayoutOk.apart {p : Params} (h : p.HdrLayoutOk) {k : HdrKind} {f g : HField k} (hne : f ≠ g) :
    f.Apart p g := (h k).2 f f.mem_all g g.mem_all hne

theorem RegField.width_pos (p : Params) {T : RegType} (f : RegField T) : 0 < f.width p := Nat.succ_pos _

/-- A field's bits are `lo` to `lo + width − 1`. -/
theorem RegField.lo_add_width (p : Params) {T : RegType} {f : RegField T} (h : f.InWord p) : f.lo p + f.width p = f.hi p + 1 := by
  have := h.1; unfold RegField.width; omega

/-- Law 1 for a typed field, wherever a layout that keeps it in its word puts it. -/
theorem RegField.get_set_same (p : Params) {T : RegType} (f : RegField T) (h : f.InWord p) (t : RegWord T)
    (v : BitVec (f.width p)) : RegField.get p f (RegField.set p f t v) = v :=
  getBits_setBits _ _ _ _ (by have := f.lo_add_width p h; have := h.2; omega)

/-- Law 2 for two typed fields that lie apart. -/
theorem RegField.get_set_apart (p : Params) {T : RegType} (f g : RegField T) (hf : f.InWord p) (hg : g.InWord p)
    (ha : f.Apart p g) (t : RegWord T) (v : BitVec (f.width p)) :
    RegField.get p g (RegField.set p f t v) = RegField.get p g t := by
  have h1 := f.lo_add_width p hf
  have h2 := g.lo_add_width p hg
  have := hg.2
  exact getBits_setBits_apart _ _ _ _ _ _ (by omega) (by omega)

/-- Laws 3 and 4 for a typed field, under every layout. -/
theorem RegField.set_set (p : Params) {T : RegType} (f : RegField T) (t : RegWord T) (v w : BitVec (f.width p)) :
    RegField.set p f (RegField.set p f t v) w = RegField.set p f t w :=
  congrArg RegWord.mk (setBits_setBits _ _ _ _ _)

theorem RegField.set_get (p : Params) {T : RegType} (f : RegField T) (t : RegWord T) :
    RegField.set p f t (RegField.get p f t) = t := congrArg RegWord.mk (setBits_getBits _ _ _)

/-- A number that fits is read back as it was set. -/
theorem RegField.get_setNat (p : Params) {T : RegType} (f : RegField T) (h : f.InWord p) (t : RegWord T) {v : Nat}
    (hv : v < 2 ^ f.width p) : (RegField.get p f (RegField.setNat p f t v)).toNat = v := by
  rw [RegField.setNat, RegField.get_set_same p f h, BitVec.toNat_ofNat, Nat.mod_eq_of_lt hv]

/-- A Boolean is read back as it was set (R205). -/
theorem RegField.getBool_setBool (p : Params) {T : RegType} (f : RegField T) (h : f.InWord p) (t : RegWord T) (b : Bool) :
    RegField.getBool p f (RegField.setBool p f t b) = b := by
  rw [RegField.getBool, RegField.setBool, RegField.get_set_same p f h]
  cases b
  · simpa using (f.width_pos p).ne'
  · simp

/-- The other fields, after a number or a Boolean was set. -/
theorem RegField.get_setNat_apart (p : Params) {T : RegType} (f g : RegField T) (hf : f.InWord p) (hg : g.InWord p)
    (ha : f.Apart p g) (t : RegWord T) (v : Nat) : RegField.get p g (RegField.setNat p f t v) = RegField.get p g t :=
  RegField.get_set_apart p f g hf hg ha t _

theorem RegField.get_setBool_apart (p : Params) {T : RegType} (f g : RegField T) (hf : f.InWord p) (hg : g.InWord p)
    (ha : f.Apart p g) (t : RegWord T) (b : Bool) : RegField.get p g (RegField.setBool p f t b) = RegField.get p g t :=
  RegField.get_set_apart p f g hf hg ha t _

/-- A one-bit field is the bit at its place (R205). -/
theorem RegField.getBool_eq_bit (p : Params) {T : RegType} (f : RegField T) (hw : f.width p = 1) (t : RegWord T) :
    RegField.getBool p f t = t.bits.getLsbD (f.lo p) := by
  have key : ∀ (n : Nat), n = 1 → (getBits t.bits (f.lo p) n == 1) = t.bits.getLsbD (f.lo p) := by
    rintro _ rfl
    have h : (getBits t.bits (f.lo p) 1).getLsbD 0 = t.bits.getLsbD (f.lo p) := getLsbD_getBits _ _ _ _ (by decide)
    rw [← h]
    have : ∀ x : BitVec 1, (x == 1) = x.getLsbD 0 := by decide
    exact this _
  exact key _ hw

/-- Each bit of a word after a one-bit field was set (R205, R202). -/
theorem RegField.getLsbD_setBool (p : Params) {T : RegType} (f : RegField T) (hf : f.InWord p) (hw : f.width p = 1)
    (t : RegWord T) (b : Bool) (i : Nat) :
    (RegField.setBool p f t b).bits.getLsbD i = if i = f.lo p then b else t.bits.getLsbD i := by
  split
  · rename_i h
    rw [h, ← RegField.getBool_eq_bit p f hw, RegField.getBool_setBool p f hf]
  · exact getLsbD_setBits_outside _ _ _ _ _ (by rw [hw]; omega)

/-! ### Code tables: every decode inverts its code (R204) -/

/-- The inverse of an injective code table. -/
theorem variantOf_code {V : Type} {all : List V} {code : V → Nat} (h : (all.map code).Nodup) {v : V} (hv : v ∈ all) :
    variantOf all code (code v) = some v := by
  unfold variantOf
  induction all with
  | nil => cases hv
  | cons a rest ih =>
    rw [List.map_cons, List.nodup_cons] at h
    rcases List.mem_cons.1 hv with rfl | hv
    · simp
    · have : code a ≠ code v := fun e => h.1 (e ▸ List.mem_map_of_mem hv)
      rw [List.find?_cons_of_neg (by simpa using this)]
      exact ih h.2 hv

theorem OpMode.mem_all (m : OpMode) : m ∈ OpMode.all := by cases m <;> decide
theorem WakeFilter.mem_all (m : WakeFilter) : m ∈ WakeFilter.all := by cases m <;> decide
theorem TxDelay.mem_all (m : TxDelay) : m ∈ TxDelay.all := by cases m <;> decide
theorem Retransmission.mem_all (m : Retransmission) : m ∈ Retransmission.all := by cases m <;> decide
theorem PayloadSize.mem_all (m : PayloadSize) : m ∈ PayloadSize.all := by cases m <;> decide
theorem ClockOut.mem_all (m : ClockOut) : m ∈ ClockOut.all := by cases m <;> decide

theorem decodeOpMode_code {p : Params} (h : p.CodesOk) {m : OpMode} (hm : OpMode.settable p m = true) :
    decodeOpMode p (OpMode.code p m) = .mode m := by
  rw [decodeOpMode, if_pos (show OpMode.mapped p (OpMode.code p m) = true from hm), variantOf_code h.opmode.1 m.mem_all]

theorem decodeWakeFilter_code {p : Params} (h : p.CodesOk) (m : WakeFilter) :
    decodeWakeFilter p (WakeFilter.code p m) = m := by
  rw [decodeWakeFilter, variantOf_code h.wft.1 m.mem_all]; rfl

theorem decodeTxDelay_code {p : Params} (h : p.CodesOk) (m : TxDelay) : decodeTxDelay p (TxDelay.code p m) = m := by
  rw [decodeTxDelay, variantOf_code h.txbws.1 m.mem_all]; rfl

theorem decodeRetransmission_code {p : Params} (h : p.CodesOk) (m : Retransmission) :
    decodeRetransmission p (Retransmission.code p m) = m := by
  rw [decodeRetransmission, variantOf_code h.txat.1 m.mem_all]; rfl

theorem decodePayloadSize_code {p : Params} (h : p.CodesOk) {m : PayloadSize} (hm : PayloadSize.settable p m = true) :
    decodePayloadSize p (PayloadSize.code p m) = m := by
  rw [decodePayloadSize, variantOf_code h.plsize.1 m.mem_all]
  simp only [PayloadSize.settable, Bool.or_eq_true, beq_iff_eq] at hm
  rcases hm with rfl | hm
  · split <;> rfl
  · rw [if_pos hm]; rfl

theorem decodeClockOut_code {p : Params} (h : p.CodesOk) (m : ClockOut) : decodeClockOut p (ClockOut.code p m) = m := by
  rw [decodeClockOut, variantOf_code h.clkodiv.1 m.mem_all]; rfl

/-! ### Transforms written as data -/

/-- Whether one setter fails does not depend on the word it is applied to. -/
theorem Update.apply_err_iff (p : Params) {T : RegType} (u : Update T) (t t' : RegWord T) (e : Error) :
    Update.apply p u t = .err e ↔ Update.apply p u t' = .err e := by
  cases u <;> simp only [Update.apply, setTxqFifoSize, setFifoSize] <;> (try split) <;> simp

theorem Update.apply_ok_of_ok (p : Params) {T : RegType} (u : Update T) (t t' : RegWord T) {x : RegWord T}
    (h : Update.apply p u t = .ok x) : ∃ y, Update.apply p u t' = .ok y := by
  cases hy : Update.apply p u t' with
  | ok y => exact ⟨y, rfl⟩
  | err e => rw [Update.apply_err_iff p u t' t] at hy; rw [h] at hy; cases hy

/-- Nor does that of a list of them: so the check made on the zero word speaks for every word (R178). -/
theorem applyUpdates_err_iff (p : Params) {T : RegType} (us : List (Update T)) : ∀ (t t' : RegWord T) (e : Error),
    applyUpdates p us t = .err e ↔ applyUpdates p us t' = .err e := by
  induction us with
  | nil => intro t t' e; simp [applyUpdates]
  | cons u rest ih =>
    intro t t' e
    simp only [applyUpdates]
    cases h : Update.apply p u t with
    | ok x =>
      obtain ⟨y, hy⟩ := Update.apply_ok_of_ok p u t t' h
      rw [hy]; exact ih x y e
    | err e' => rw [(Update.apply_err_iff p u t t' e').1 h]

/-- A transform that passed its check is the list of its setters, on every word: "pure; cannot fail" (R164). -/
theorem applyUpdates_of_check (p : Params) {T : RegType} (us : List (Update T)) (h : checkUpdates p us = none)
    (t : RegWord T) : applyUpdates p us t = .ok (transformOf p us t) := by
  unfold transformOf
  cases ha : applyUpdates p us t with
  | ok x => rfl
  | err e =>
    rw [applyUpdates_err_iff p us t ⟨0⟩] at ha
    rw [checkUpdates, ha] at h
    cases h

/-- The only error of a list of setters is that of `set_fifo_size` (R213, R331). -/
theorem applyUpdates_err (p : Params) {T : RegType} (us : List (Update T)) : ∀ {t : RegWord T} {e : Error},
    applyUpdates p us t = .err e → e = .invalidFifoSize 0 := by
  induction us with
  | nil => intro t e h; cases h
  | cons u rest ih =>
    intro t e h
    simp only [applyUpdates] at h
    split at h
    · exact ih h
    · rename_i hu
      cases h
      cases u <;> simp only [Update.apply, setTxqFifoSize, setFifoSize] at hu <;> (try split at hu) <;> cases hu
      all_goals rfl

theorem checkUpdates_err {p : Params} {T : RegType} {us : List (Update T)} {e : Error} (h : checkUpdates p us = some e) :
    e = .invalidFifoSize 0 := by
  unfold checkUpdates at h
  split at h
  · cases h
  · rename_i hu; cases h; exact applyUpdates_err p us hu

/-! ### Header words -/

theorem Header.size_ge {k : HdrKind} (h : Header k) {i : Nat} (hi : i < k.words) : 4 * i + 4 ≤ h.bytes.length := by
  rw [h.size]; omega

theorem Header.setWord_bytes {k : HdrKind} (h : Header k) (i : Nat) (w : Word) (hi : 4 * i + 4 ≤ h.bytes.length) :
    (h.setWord i w).bytes = storeWord h.bytes i w := by simp [Header.setWord, hi]

/-- Word k after it was set (R261). -/
theorem Header.word_setWord {k : HdrKind} (h : Header k) (i : Nat) (w : Word) (hi : 4 * i + 4 ≤ h.bytes.length) :
    (h.setWord i w).word i = w := by
  have hl : (h.bytes.take (4 * i)).length = 4 * i := by simp; omega
  have : ((storeWord h.bytes i w).drop (4 * i)).take 4 = le32 w := by
    unfold storeWord
    rw [List.append_assoc, List.drop_append, List.drop_eq_nil_of_le (by omega), hl]
    simp only [List.nil_append, Nat.sub_self, List.drop_zero]
    exact List.take_left' rfl
  rw [Header.word, Header.setWord_bytes h i w hi, this, fromLE32_le32]

/-- A header has no word past its last. -/
theorem Header.setWord_none {k : HdrKind} (h : Header k) (i : Nat) (w : Word) (hi : ¬ 4 * i + 4 ≤ h.bytes.length) :
    h.setWord i w = h := by rw [Header.setWord, dif_neg hi]

/-- Another word after one was set. -/
theorem Header.word_setWord_other {k : HdrKind} (h : Header k) (i j : Nat) (w : Word) (hij : i ≠ j) :
    (h.setWord i w).word j = h.word j := by
  by_cases hi : 4 * i + 4 ≤ h.bytes.length
  · have hl : (h.bytes.take (4 * i)).length = 4 * i := by simp; omega
    have : ((storeWord h.bytes i w).drop (4 * j)).take 4 = (h.bytes.drop (4 * j)).take 4 := by
      unfold storeWord
      rcases Nat.lt_or_gt_of_ne hij with hlt | hgt
      · rw [List.append_assoc, List.drop_append, List.drop_eq_nil_of_le (by omega), hl, List.nil_append,
          List.drop_append, List.drop_eq_nil_of_le (by simp; omega), List.nil_append, List.drop_drop]
        simp only [le32_length]
        congr 2; omega
      · rw [List.append_assoc, List.drop_append_of_le_length (by omega), List.take_append_of_le_length (by simp; omega),
          List.drop_take, List.take_take]
        congr 1; omega
    rw [Header.word, Header.word, Header.setWord_bytes h i w hi, this]
  · rw [Header.setWord_none _ _ _ hi]

/-- Setting a word to what it is, and setting it twice (R261). -/
theorem Header.setWord_word {k : HdrKind} (h : Header k) (i : Nat) : h.setWord i (h.word i) = h := by
  unfold Header.setWord
  split
  · rename_i hi
    have hb : storeWord h.bytes i (h.word i) = h.bytes := by
      rw [storeWord, Header.word, le32_fromLE32 _ (by simp; omega), List.append_assoc, ← List.drop_drop,
        List.take_append_drop, List.take_append_drop]
    cases h
    simp only [Header.mk.injEq]
    exact hb
  · rfl

theorem Header.setWord_setWord {k : HdrKind} (h : Header k) (i : Nat) (v w : Word) :
    (h.setWord i v).setWord i w = h.setWord i w := by
  by_cases hi : 4 * i + 4 ≤ h.bytes.length
  · have hl : (h.bytes.take (4 * i)).length = 4 * i := by simp; omega
    have e : ∀ (x y : Header k), x.bytes = y.bytes → x = y := fun x y hxy => by cases x; cases y; cases hxy; rfl
    refine e _ _ ?_
    have hi' : 4 * i + 4 ≤ (h.setWord i v).bytes.length := by
      rw [Header.setWord_bytes _ _ _ hi, storeWord_length _ _ _ hi]; exact hi
    rw [Header.setWord_bytes _ _ _ hi', Header.setWord_bytes _ _ _ hi, Header.setWord_bytes _ _ _ hi]
    unfold storeWord
    rw [List.append_assoc (h.bytes.take (4 * i)), List.take_left' hl]
    congr 1
    rw [List.drop_append, List.drop_eq_nil_of_le (by omega), hl, List.nil_append]
    rw [show 4 * i + 4 - 4 * i = (le32 v).length by rw [le32_length]; omega, List.drop_left]
  · rw [Header.setWord_none _ _ _ hi]

/-! ### Header fields -/

@[simp] theorem HField.get_set_same (p : Params) {k : HdrKind} (f : HField k) (hf : f.InWord p) (h : Header k)
    (v : BitVec (f.width p)) : HField.get p f (HField.set p f h v) = v := by
  rw [HField.get, HField.set, Header.word_setWord _ _ _ (h.size_ge hf.1), getBits_setBits _ _ _ _ hf.2]

theorem HField.get_set_apart (p : Params) {k : HdrKind} (f g : HField k) (hg : g.InWord p) (ha : f.Apart p g)
    (h : Header k) (v : BitVec (f.width p)) : HField.get p g (HField.set p f h v) = HField.get p g h := by
  rw [HField.get, HField.get, HField.set]
  by_cases hw : f.word p = g.word p
  · rcases ha with ha | ha
    · exact absurd hw ha
    · rw [hw, Header.word_setWord _ _ _ (h.size_ge hg.1), getBits_setBits_apart _ _ _ _ _ _ hg.2 ha]
  · rw [Header.word_setWord_other _ _ _ _ hw]

/-- Laws 3 and 4 of R203 for a header field, under every layout (R267). -/
theorem HField.set_set (p : Params) {k : HdrKind} (f : HField k) (h : Header k) (v w : BitVec (f.width p)) :
    HField.set p f (HField.set p f h v) w = HField.set p f h w := by
  unfold HField.set
  by_cases hi : 4 * f.word p + 4 ≤ h.bytes.length
  · rw [Header.word_setWord _ _ _ hi, setBits_setBits, Header.setWord_setWord]
  · simp only [Header.setWord_none _ _ _ hi]

theorem HField.set_get (p : Params) {k : HdrKind} (f : HField k) (h : Header k) :
    HField.set p f h (HField.get p f h) = h := by
  rw [HField.set, HField.get, setBits_getBits, Header.setWord_word]

/-- A setter preserves every bit outside its field, under every layout (R262, R275). -/
theorem HField.getLsbD_set_outside (p : Params) {k : HdrKind} (f : HField k) (h : Header k) (v : BitVec (f.width p)) (i : Nat)
    (hi : i < f.lo p ∨ f.lo p + f.width p ≤ i) :
    ((HField.set p f h v).word (f.word p)).getLsbD i = (h.word (f.word p)).getLsbD i := by
  unfold HField.set
  by_cases hw : 4 * f.word p + 4 ≤ h.bytes.length
  · rw [Header.word_setWord _ _ _ hw, getLsbD_setBits_outside _ _ _ _ _ hi]
  · rw [Header.setWord_none _ _ _ hw]

/-- The timestamp is word 2, whole, under every layout (R266, R274). -/
theorem HField.timestamp_place (p : Params) : HField.place p .timestamp = (2, 0) := by
  unfold HField.place
  rw [List.find?_eq_none.2 (by simp [HField.movable])]; rfl

theorem timestamp_eq_get (p : Params) (h : RxHeader) : timestamp h = HField.get p .timestamp h := by
  unfold HField.get HField.word HField.lo
  rw [HField.timestamp_place]
  exact (BitVec.eq_of_getLsbD_eq fun i hi => by rw [getLsbD_getBits _ _ _ _ hi, Nat.zero_add]; rfl)

theorem setTimestamp_eq_set (p : Params) (h : RxHeader) (t : Word) : setTimestamp h t = HField.set p .timestamp h t := by
  unfold HField.set HField.word HField.lo
  rw [HField.timestamp_place]
  exact congrArg (h.setWord 2) (BitVec.eq_of_getLsbD_eq fun i hi => by
    rw [getLsbD_setBits _ _ _ _ _ hi, if_pos ⟨Nat.zero_le i, hi⟩]; rfl)

end Sys2Proof
end

