-- ==== Sys2Proof/Laws/Memory.lean ====
section
/-! SUPPORT. The laws of the stub's memory: read after write, and the canonical form kept by every operation
(spec/20_memory.md R77). -/

namespace Sys2Proof.Machine

open Sys2Proof

theorem Memory.get_cons (a : Nat) (b : Byte) (m : Memory) (x : Nat)
    (h : ∀ c ∈ m, a < c.1) :
    Memory.get (Memory.cons a b m) x = if x = a then b else Memory.get m x := by
  have hm : ∀ m : Memory, (∀ c ∈ m, a < c.1) → Memory.get m a = unlistedByte := by
    intro m
    induction m with
    | nil => intro _; rfl
    | cons c rest ih =>
      intro h
      have := h c (by simp)
      simp only [Memory.get]
      rw [if_neg (by omega)]
      exact ih fun d hd => h d (by simp [hd])
  unfold Memory.cons
  split
  · rename_i hb
    split
    · rename_i hx; rw [hx, hb, hm m h]
    · rfl
  · simp [Memory.get]

/-- Read after write, at the same address and at another. -/
theorem Memory.get_set (m : Memory) (a : Nat) (b : Byte) (x : Nat) (h : m.Pairwise fun c d => c.1 < d.1) :
    Memory.get (Memory.set m a b) x = if x = a then b else Memory.get m x := by
  induction m with
  | nil => simp only [Memory.set]; exact Memory.get_cons a b [] x (by simp)
  | cons c rest ih =>
    obtain ⟨k, v⟩ := c
    have hr := List.pairwise_cons.1 h
    simp only [Memory.set]
    split
    · exact Memory.get_cons a b _ x (by
        intro d hd
        rcases List.mem_cons.1 hd with rfl | hd
        · assumption
        · have := hr.1 d hd; simp at this; omega)
    · split
      · rename_i hak
        subst hak
        rw [Memory.get_cons a b rest x (fun d hd => hr.1 d hd)]
        simp only [Memory.get]
        split <;> rfl
      · rename_i h1 h2
        simp only [Memory.get]
        rw [ih hr.2]
        by_cases hx : x = k
        · simp [hx]; omega
        · simp [hx]

theorem Memory.mem_cons {a : Nat} {b : Byte} {m : Memory} {c : Host.Cell} (h : c ∈ Memory.cons a b m) :
    (c = (a, b) ∧ b ≠ unlistedByte) ∨ c ∈ m := by
  unfold Memory.cons at h
  split at h
  · exact .inr h
  · rcases List.mem_cons.1 h with h | h
    · exact .inl ⟨h, ‹_›⟩
    · exact .inr h

/-- Every cell after a write is the one written, or an old one. -/
theorem Memory.mem_set {m : Memory} {a : Nat} {b : Byte} {c : Host.Cell} (h : c ∈ Memory.set m a b) :
    (c = (a, b) ∧ b ≠ unlistedByte) ∨ c ∈ m := by
  induction m with
  | nil => exact Memory.mem_cons h
  | cons d rest ih =>
    obtain ⟨k, v⟩ := d
    simp only [Memory.set] at h
    split at h
    · exact Memory.mem_cons h
    · split at h
      · exact (Memory.mem_cons h).imp id fun h => List.mem_cons_of_mem _ h
      · rcases List.mem_cons.1 h with h | h
        · exact .inr (by simp [h])
        · exact (ih h).imp id fun h => List.mem_cons_of_mem _ h

theorem Memory.pairwise_cons_of (a : Nat) (b : Byte) (m : Memory) (h : ∀ c ∈ m, a < c.1)
    (hp : m.Pairwise fun c d => c.1 < d.1) : (Memory.cons a b m).Pairwise fun c d => c.1 < d.1 := by
  unfold Memory.cons
  split
  · exact hp
  · exact List.pairwise_cons.2 ⟨h, hp⟩

theorem Memory.pairwise_set (m : Memory) (a : Nat) (b : Byte) (hp : m.Pairwise fun c d => c.1 < d.1) :
    (Memory.set m a b).Pairwise fun c d => c.1 < d.1 := by
  induction m with
  | nil => exact Memory.pairwise_cons_of a b [] (by simp) List.Pairwise.nil
  | cons c rest ih =>
    obtain ⟨k, v⟩ := c
    have hr := List.pairwise_cons.1 hp
    simp only [Memory.set]
    split
    · refine Memory.pairwise_cons_of a b _ (fun d hd => ?_) hp
      rcases List.mem_cons.1 hd with rfl | hd
      · assumption
      · have := hr.1 d hd; simp at this; omega
    · split
      · rename_i h; subst h; exact Memory.pairwise_cons_of a b rest hr.1 hr.2
      · refine List.pairwise_cons.2 ⟨fun d hd => ?_, ih hr.2⟩
        rcases Memory.mem_set hd with ⟨rfl, _⟩ | hd
        · show k < a; omega
        · exact hr.1 d hd

/-- A write keeps the canonical form. -/
theorem Memory.wf_set {m : Memory} (h : Memory.wf m) (a : Nat) (ha : a < 4096) (b : Byte) :
    Memory.wf (Memory.set m a b) := by
  refine ⟨Memory.pairwise_set m a b h.1, fun c hc => ?_⟩
  rcases Memory.mem_set hc with ⟨rfl, hb⟩ | hc
  · exact ⟨hb, ha⟩
  · exact h.2 c hc

theorem Memory.wf_empty : Memory.wf [] := by decide

/-! ### The stub -/

theorem stubAddr_lt (w : BitVec 16) (k : Nat) : stubAddr w k < 4096 := Nat.mod_lt _ (by decide)

theorem stubStore_wf (p : Params) {m : Memory} (h : Memory.wf m) (wire : List Byte) (b : Byte) :
    Memory.wf (stubStore p m wire b) := by
  unfold stubStore
  split
  · exact h
  · split
    · exact Memory.wf_set h _ (stubAddr_lt _ _) b
    · exact h

/-- What the stub receives keeps the canonical form. -/
theorem stubReceive_wf (p : Params) (out : List Byte) : ∀ {m : Memory} (wire : List Byte),
    Memory.wf m → Memory.wf (stubReceive p m wire out) := by
  induction out with
  | nil => intro m _ h; exact h
  | cons b rest ih => intro m wire h; exact ih _ (stubStore_wf p h wire b)

@[simp] theorem stubAnswer_length (p : Params) (out : List Byte) : ∀ (m : Memory) (wire : List Byte),
    (stubAnswer p m wire out).length = out.length := by
  induction out with
  | nil => intros; rfl
  | cons b rest ih => intro m wire; simp [stubAnswer, ih]

theorem wireWord_append (wire rest : List Byte) (h : 2 ≤ wire.length) : wireWord (wire ++ rest) = wireWord wire := by
  match wire, h with
  | _ :: _ :: _, _ => rfl

/-- The stub after the payload `out` of a frame whose word is already on the wire: byte `j` stored where it belongs,
every other address as before. -/
theorem stubReceive_payload_other (p : Params) (out : List Byte) : ∀ (m : Memory) (wire : List Byte),
    2 ≤ wire.length → Memory.wf m → ∀ x,
    (∀ j, j < out.length → x ≠ stubAddr (wireWord wire) (wire.length - 2 + j)) →
    Memory.get (stubReceive p m wire out) x = Memory.get m x := by
  induction out with
  | nil => intros; rfl
  | cons b rest ih =>
    intro m wire hw hm x hx
    simp only [stubReceive]
    rw [ih _ _ (by simp; omega) (stubStore_wf p hm wire b) x]
    · unfold stubStore
      rw [if_neg (by omega)]
      split
      · rw [Memory.get_set _ _ _ _ hm.1, if_neg (by simpa using hx 0 (by simp))]
      · rfl
    · intro j hj
      rw [wireWord_append _ _ hw]
      have := hx (j + 1) (by simpa using hj)
      rwa [show (wire ++ [b]).length - 2 + j = wire.length - 2 + (j + 1) by simp; omega]

/-- A frame whose opcode stores nothing leaves the array as it was. -/
theorem stubReceive_payload_loads (p : Params) (out : List Byte) : ∀ (m : Memory) (wire : List Byte),
    2 ≤ wire.length → stubStores p (wireWord wire) = false → stubReceive p m wire out = m := by
  induction out with
  | nil => intros; rfl
  | cons b rest ih =>
    intro m wire hw hs
    simp only [stubReceive]
    rw [ih _ _ (by simp; omega) (by rw [wireWord_append _ _ hw]; exact hs)]
    simp [stubStore, hs]

/-- The bytes of a storing frame's payload, each at its address, when the payload does not reach round the whole space. -/
theorem stubReceive_payload_stored (p : Params) (out : List Byte) : ∀ (m : Memory) (wire : List Byte),
    2 ≤ wire.length → Memory.wf m → stubStores p (wireWord wire) = true → out.length ≤ 4096 →
    ∀ j, j < out.length →
      Memory.get (stubReceive p m wire out) (stubAddr (wireWord wire) (wire.length - 2 + j)) = out.getD j 0 := by
  induction out with
  | nil => intro m wire _ _ _ _ j hj; simp at hj
  | cons b rest ih =>
    intro m wire hw hm hs hl j hj
    simp only [stubReceive]
    have hw' : wireWord (wire ++ [b]) = wireWord wire := wireWord_append _ _ hw
    have hlen : (wire ++ [b]).length - 2 = wire.length - 2 + 1 := by simp; omega
    rcases j with _ | j
    · rw [stubReceive_payload_other p rest _ _ (by simp; omega) (stubStore_wf p hm wire b)]
      · simp only [stubStore]
        rw [if_neg (by omega), if_pos hs, Memory.get_set _ _ _ _ hm.1, if_pos (by simp)]
        rfl
      · intro k hk
        rw [hw', hlen]
        simp only [stubAddr]
        simp at hl
        omega
    · have := ih (stubStore p m wire b) (wire ++ [b]) (by simp; omega) (stubStore_wf p hm wire b) (by rw [hw']; exact hs)
        (by simp at hl; omega) j (by simpa using hj)
      rw [hw', hlen, show wire.length - 2 + 1 + j = wire.length - 2 + (j + 1) by omega] at this
      rw [this]; simp

/-- What the stub clocks in during the payload of a loading frame: its array's bytes. -/
theorem stubAnswer_payload (p : Params) (out : List Byte) : ∀ (m : Memory) (wire : List Byte),
    2 ≤ wire.length → stubLoads p (wireWord wire) = true → stubStores p (wireWord wire) = false →
    stubAnswer p m wire out =
      (List.range out.length).map fun j => Memory.get m (stubAddr (wireWord wire) (wire.length - 2 + j)) := by
  induction out with
  | nil => intros; rfl
  | cons b rest ih =>
    intro m wire hw hl hs
    have hw' : wireWord (wire ++ [b]) = wireWord wire := wireWord_append _ _ hw
    have hst : stubStore p m wire b = m := by simp [stubStore, hs]
    simp only [stubAnswer, List.length_cons, List.range_succ_eq_map, List.map_cons, List.map_map]
    rw [hst, ih m (wire ++ [b]) (by simp; omega) (by rw [hw']; exact hl) (by rw [hw']; exact hs), hw']
    simp only [stubByteIn]
    rw [if_neg (by omega), if_pos hl]
    simp only [Nat.add_zero, List.cons.injEq, true_and]
    refine List.map_congr_left fun j _ => ?_
    simp only [Function.comp, List.length_append, List.length_cons, List.length_nil]
    congr 2; omega

end Sys2Proof.Machine
end

