-- ==== Sys2Proof/Laws/State.lean ====
section
/-! SUPPORT. What each update of the state does to each field; every one is true by rfl. -/

namespace Sys2Proof.Machine

open Sys2Proof

/-! ### log -/

@[simp] theorem log_cfg (e : Event) (s : State) : (State.log e s).cfg = s.cfg := rfl
@[simp] theorem log_cs (e : Event) (s : State) : (State.log e s).cs = s.cs := rfl
@[simp] theorem log_owned (e : Event) (s : State) : (State.log e s).owned = s.owned := rfl
@[simp] theorem log_handles (e : Event) (s : State) : (State.log e s).handles = s.handles := rfl
@[simp] theorem log_trace (e : Event) (s : State) : (State.log e s).trace = s.trace ++ [e] := rfl
@[simp] theorem log_replies (e : Event) (s : State) : (State.log e s).replies = s.replies := rfl
@[simp] theorem log_requests (e : Event) (s : State) : (State.log e s).requests = s.requests := rfl
@[simp] theorem log_seq (e : Event) (s : State) : (State.log e s).seq = s.seq := rfl
@[simp] theorem log_env (e : Event) (s : State) : (State.log e s).env = s.env := rfl
@[simp] theorem log_script (e : Event) (s : State) : (State.log e s).script = s.script := rfl
@[simp] theorem log_mem (e : Event) (s : State) : (State.log e s).mem = s.mem := rfl
@[simp] theorem log_wire (e : Event) (s : State) : (State.log e s).wire = s.wire := rfl
@[simp] theorem log_draws (e : Event) (s : State) : (State.log e s).draws = s.draws := rfl
@[simp] theorem log_others (e : Event) (s : State) : (State.log e s).others = s.others := rfl

/-! ### pinSet -/

@[simp] theorem pinSet_cfg (l : Level) (s : State) : (pinSet l s).cfg = s.cfg := rfl
@[simp] theorem pinSet_cs (l : Level) (s : State) : (pinSet l s).cs = l := rfl
@[simp] theorem pinSet_owned (l : Level) (s : State) : (pinSet l s).owned = s.owned := rfl
@[simp] theorem pinSet_handles (l : Level) (s : State) : (pinSet l s).handles = s.handles := rfl
@[simp] theorem pinSet_trace (l : Level) (s : State) : (pinSet l s).trace = s.trace ++ [.pinSet l] := rfl
@[simp] theorem pinSet_replies (l : Level) (s : State) : (pinSet l s).replies = s.replies := rfl
@[simp] theorem pinSet_requests (l : Level) (s : State) : (pinSet l s).requests = s.requests := rfl
@[simp] theorem pinSet_seq (l : Level) (s : State) : (pinSet l s).seq = s.seq := rfl
@[simp] theorem pinSet_env (l : Level) (s : State) : (pinSet l s).env = s.env := rfl
@[simp] theorem pinSet_script (l : Level) (s : State) : (pinSet l s).script = s.script := rfl
@[simp] theorem pinSet_mem (l : Level) (s : State) : (pinSet l s).mem = s.mem := rfl
@[simp] theorem pinSet_wire (l : Level) (s : State) : (pinSet l s).wire = [] := rfl
@[simp] theorem pinSet_draws (l : Level) (s : State) : (pinSet l s).draws = s.draws := rfl
@[simp] theorem pinSet_others (l : Level) (s : State) : (pinSet l s).others = s.others := rfl

/-! ### csReset -/

@[simp] theorem csReset_cfg (s : State) : (csReset s).cfg = s.cfg := rfl
@[simp] theorem csReset_cs (s : State) : (csReset s).cs = .inactive := rfl
@[simp] theorem csReset_owned (s : State) : (csReset s).owned = s.owned := rfl
@[simp] theorem csReset_handles (s : State) : (csReset s).handles = s.handles := rfl
@[simp] theorem csReset_trace (s : State) : (csReset s).trace = s.trace ++ [.pinSet .inactive] := rfl
@[simp] theorem csReset_replies (s : State) : (csReset s).replies = s.replies := rfl
@[simp] theorem csReset_requests (s : State) : (csReset s).requests = s.requests := rfl
@[simp] theorem csReset_seq (s : State) : (csReset s).seq = s.seq := rfl
@[simp] theorem csReset_env (s : State) : (csReset s).env = s.env := rfl
@[simp] theorem csReset_script (s : State) : (csReset s).script = s.script := rfl
@[simp] theorem csReset_mem (s : State) : (csReset s).mem = s.mem := rfl
@[simp] theorem csReset_wire (s : State) : (csReset s).wire = [] := rfl
@[simp] theorem csReset_draws (s : State) : (csReset s).draws = s.draws := rfl
@[simp] theorem csReset_others (s : State) : (csReset s).others = s.others := rfl

/-! ### afterCall -/

@[simp] theorem afterCall_cfg (s : State) (b : List Byte) : (s.afterCall b).cfg = s.cfg := rfl
@[simp] theorem afterCall_cs (s : State) (b : List Byte) : (s.afterCall b).cs = s.cs := rfl
@[simp] theorem afterCall_owned (s : State) (b : List Byte) : (s.afterCall b).owned = s.owned := rfl
@[simp] theorem afterCall_handles (s : State) (b : List Byte) : (s.afterCall b).handles = s.handles := rfl
@[simp] theorem afterCall_trace (s : State) (b : List Byte) : (s.afterCall b).trace = s.trace := rfl
@[simp] theorem afterCall_replies (s : State) (b : List Byte) : (s.afterCall b).replies = s.replies := rfl
@[simp] theorem afterCall_requests (s : State) (b : List Byte) : (s.afterCall b).requests = s.requests := rfl
@[simp] theorem afterCall_seq (s : State) (b : List Byte) : (s.afterCall b).seq = s.seq := rfl
@[simp] theorem afterCall_env (s : State) (b : List Byte) : (s.afterCall b).env = s.env := rfl
@[simp] theorem afterCall_script (s : State) (b : List Byte) : (s.afterCall b).script = s.script.tail := rfl
@[simp] theorem afterCall_mem (s : State) (b : List Byte) : (s.afterCall b).mem = (match s.env with | .stub => stubReceive s.cfg s.mem s.wire b | .any => s.mem) := rfl
@[simp] theorem afterCall_wire (s : State) (b : List Byte) : (s.afterCall b).wire = s.wire ++ b := rfl
@[simp] theorem afterCall_draws (s : State) (b : List Byte) : (s.afterCall b).draws = s.draws + 1 := rfl
@[simp] theorem afterCall_others (s : State) (b : List Byte) : (s.afterCall b).others = s.others := rfl

/-! ### reply -/

@[simp] theorem reply_cfg (s : State) (r : Reply) : (s.reply r).cfg = s.cfg := rfl
@[simp] theorem reply_cs (s : State) (r : Reply) : (s.reply r).cs = s.cs := rfl
@[simp] theorem reply_owned (s : State) (r : Reply) : (s.reply r).owned = s.owned := rfl
@[simp] theorem reply_handles (s : State) (r : Reply) : (s.reply r).handles = s.handles := rfl
@[simp] theorem reply_trace (s : State) (r : Reply) : (s.reply r).trace = s.trace := rfl
@[simp] theorem reply_replies (s : State) (r : Reply) : (s.reply r).replies = s.replies ++ [r] := rfl
@[simp] theorem reply_requests (s : State) (r : Reply) : (s.reply r).requests = s.requests := rfl
@[simp] theorem reply_seq (s : State) (r : Reply) : (s.reply r).seq = s.seq := rfl
@[simp] theorem reply_env (s : State) (r : Reply) : (s.reply r).env = s.env := rfl
@[simp] theorem reply_script (s : State) (r : Reply) : (s.reply r).script = s.script := rfl
@[simp] theorem reply_mem (s : State) (r : Reply) : (s.reply r).mem = s.mem := rfl
@[simp] theorem reply_wire (s : State) (r : Reply) : (s.reply r).wire = s.wire := rfl
@[simp] theorem reply_draws (s : State) (r : Reply) : (s.reply r).draws = s.draws := rfl
@[simp] theorem reply_others (s : State) (r : Reply) : (s.reply r).others = s.others := rfl

/-! ### delayUs -/

@[simp] theorem delayUs_cfg (n : Nat) (s : State) : (delayUs n s).cfg = s.cfg := rfl
@[simp] theorem delayUs_cs (n : Nat) (s : State) : (delayUs n s).cs = s.cs := rfl
@[simp] theorem delayUs_owned (n : Nat) (s : State) : (delayUs n s).owned = s.owned := rfl
@[simp] theorem delayUs_handles (n : Nat) (s : State) : (delayUs n s).handles = s.handles := rfl
@[simp] theorem delayUs_trace (n : Nat) (s : State) : (delayUs n s).trace = s.trace ++ [.delay n] := rfl
@[simp] theorem delayUs_replies (n : Nat) (s : State) : (delayUs n s).replies = s.replies := rfl
@[simp] theorem delayUs_requests (n : Nat) (s : State) : (delayUs n s).requests = s.requests := rfl
@[simp] theorem delayUs_seq (n : Nat) (s : State) : (delayUs n s).seq = s.seq := rfl
@[simp] theorem delayUs_env (n : Nat) (s : State) : (delayUs n s).env = s.env := rfl
@[simp] theorem delayUs_script (n : Nat) (s : State) : (delayUs n s).script = s.script := rfl
@[simp] theorem delayUs_mem (n : Nat) (s : State) : (delayUs n s).mem = s.mem := rfl
@[simp] theorem delayUs_wire (n : Nat) (s : State) : (delayUs n s).wire = s.wire := rfl
@[simp] theorem delayUs_draws (n : Nat) (s : State) : (delayUs n s).draws = s.draws := rfl
@[simp] theorem delayUs_others (n : Nat) (s : State) : (delayUs n s).others = s.others := rfl

/-! ### release -/

@[simp] theorem release_cfg (s : State) : (release s).cfg = s.cfg := rfl
@[simp] theorem release_cs (s : State) : (release s).cs = .inactive := rfl
@[simp] theorem release_owned (s : State) : (release s).owned = false := rfl
@[simp] theorem release_handles (s : State) : (release s).handles = s.handles := rfl
@[simp] theorem release_trace (s : State) : (release s).trace = s.trace ++ [.pinSet .inactive] := rfl
@[simp] theorem release_replies (s : State) : (release s).replies = s.replies := rfl
@[simp] theorem release_requests (s : State) : (release s).requests = s.requests := rfl
@[simp] theorem release_seq (s : State) : (release s).seq = s.seq := rfl
@[simp] theorem release_env (s : State) : (release s).env = s.env := rfl
@[simp] theorem release_script (s : State) : (release s).script = s.script := rfl
@[simp] theorem release_mem (s : State) : (release s).mem = s.mem := rfl
@[simp] theorem release_wire (s : State) : (release s).wire = [] := rfl
@[simp] theorem release_draws (s : State) : (release s).draws = s.draws := rfl
@[simp] theorem release_others (s : State) : (release s).others = s.others := rfl

/-! ### withLine, line -/

@[simp] theorem withLine_line (s : State) : s.withLine s.line = s := rfl
@[simp] theorem line_withLine (s : State) (l : Line) : (s.withLine l).line = l := rfl
@[simp] theorem line_cs (s : State) : s.line.cs = s.cs := rfl
@[simp] theorem line_owned (s : State) : s.line.owned = s.owned := rfl
@[simp] theorem line_handles (s : State) : s.line.handles = s.handles := rfl
@[simp] theorem line_trace (s : State) : s.line.trace = s.trace := rfl
@[simp] theorem line_mem (s : State) : s.line.mem = s.mem := rfl
@[simp] theorem line_wire (s : State) : s.line.wire = s.wire := rfl
@[simp] theorem line_env (s : State) : s.line.env = s.env := rfl
@[simp] theorem line_script (s : State) : s.line.script = s.script := rfl
@[simp] theorem line_draws (s : State) : s.line.draws = s.draws := rfl

/-! ### focus -/

@[simp] theorem focus_self (s : State) : s.focus s.handles = s := if_pos rfl
@[simp] theorem focus_cfg (h : Handles) (s : State) : (s.focus h).cfg = s.cfg := by unfold State.focus; split <;> rfl
@[simp] theorem focus_replies (h : Handles) (s : State) : (s.focus h).replies = s.replies := by
  unfold State.focus; split <;> rfl
@[simp] theorem focus_requests (h : Handles) (s : State) : (s.focus h).requests = s.requests := by
  unfold State.focus; split <;> rfl
@[simp] theorem focus_seq (h : Handles) (s : State) : (s.focus h).seq = s.seq := by unfold State.focus; split <;> rfl
@[simp] theorem focus_handles (h : Handles) (s : State) : (s.focus h).handles = h := by
  unfold State.focus
  split
  · exact (‹h = s.handles›).symm
  · show ((s.others.find? fun l => l.handles == h).getD (Line.fresh s.env h)).handles = h
    cases hf : s.others.find? fun l => l.handles == h with
    | none => rfl
    | some l => simpa using List.find?_some hf

/-! ### construct -/

@[simp] theorem construct_cfg (h : Handles) (s : State) : (construct h s).cfg = s.cfg := focus_cfg h s
@[simp] theorem construct_cs (h : Handles) (s : State) : (construct h s).cs = .inactive := rfl
@[simp] theorem construct_owned (h : Handles) (s : State) : (construct h s).owned = true := rfl
@[simp] theorem construct_handles (h : Handles) (s : State) : (construct h s).handles = h := focus_handles h s
@[simp] theorem construct_trace (h : Handles) (s : State) : (construct h s).trace = [.pinSet .inactive] := rfl
@[simp] theorem construct_replies (h : Handles) (s : State) : (construct h s).replies = s.replies := focus_replies h s
@[simp] theorem construct_requests (h : Handles) (s : State) : (construct h s).requests = s.requests := focus_requests h s
@[simp] theorem construct_seq (h : Handles) (s : State) : (construct h s).seq = s.seq := focus_seq h s
@[simp] theorem construct_env (h : Handles) (s : State) : (construct h s).env = (s.focus h).env := rfl
@[simp] theorem construct_script (h : Handles) (s : State) : (construct h s).script = (s.focus h).script := rfl
@[simp] theorem construct_mem (h : Handles) (s : State) : (construct h s).mem = (s.focus h).mem := rfl
@[simp] theorem construct_wire (h : Handles) (s : State) : (construct h s).wire = [] := rfl
@[simp] theorem construct_draws (h : Handles) (s : State) : (construct h s).draws = (s.focus h).draws := rfl
@[simp] theorem construct_others (h : Handles) (s : State) : (construct h s).others = (s.focus h).others := rfl

/-! ### csReady: two shapes, by the level found (R130) -/

theorem csReady_inactive (s : State) (h : s.cs = .inactive) : csReady s = pinSet .active s := by
  simp [csReady, pinLevel, h]

theorem csReady_active (s : State) (h : s.cs = .active) : csReady s = pinSet .active (pinSet .inactive s) := by
  simp [csReady, pinLevel, h]

@[simp] theorem csReady_cfg (s : State) : (csReady s).cfg = s.cfg := by
  unfold csReady; split <;> rfl
@[simp] theorem csReady_cs (s : State) : (csReady s).cs = .active := rfl
@[simp] theorem csReady_owned (s : State) : (csReady s).owned = s.owned := by
  unfold csReady; split <;> rfl
@[simp] theorem csReady_handles (s : State) : (csReady s).handles = s.handles := by
  unfold csReady; split <;> rfl
@[simp] theorem csReady_trace (s : State) : (csReady s).trace = s.trace ++ readyEvents s.cs := by cases h : s.cs <;> simp [csReady, pinLevel, readyEvents, h]
@[simp] theorem csReady_replies (s : State) : (csReady s).replies = s.replies := by
  unfold csReady; split <;> rfl
@[simp] theorem csReady_requests (s : State) : (csReady s).requests = s.requests := by
  unfold csReady; split <;> rfl
@[simp] theorem csReady_seq (s : State) : (csReady s).seq = s.seq := by
  unfold csReady; split <;> rfl
@[simp] theorem csReady_env (s : State) : (csReady s).env = s.env := by
  unfold csReady; split <;> rfl
@[simp] theorem csReady_script (s : State) : (csReady s).script = s.script := by
  unfold csReady; split <;> rfl
@[simp] theorem csReady_mem (s : State) : (csReady s).mem = s.mem := by
  unfold csReady; split <;> rfl
@[simp] theorem csReady_wire (s : State) : (csReady s).wire = [] := rfl
@[simp] theorem csReady_draws (s : State) : (csReady s).draws = s.draws := by
  unfold csReady; split <;> rfl
@[simp] theorem csReady_others (s : State) : (csReady s).others = s.others := by
  unfold csReady; split <;> rfl

end Sys2Proof.Machine
end

