-- ==== Sys2Proof/Laws/Ops.lean ====
section
/-! SUPPORT. One lemma for each shared operation that says everything it can do; the provers cite these instead of
unfolding. -/

namespace Sys2Proof.Machine

open Sys2Proof

/-! ### The environment -/

@[simp] theorem fitBytes_length (given : List Byte) (free : Nat → Byte) (n : Nat) :
    (fitBytes given free n).length = n := by simp [fitBytes]

/-- A script's bytes are clocked in as they are, when they are as many as were sent. -/
theorem fitBytes_exact (given : List Byte) (free : Nat → Byte) : fitBytes given free given.length = given := by
  refine List.ext_getElem (by simp) fun i h1 h2 => ?_
  simp [fitBytes, h2]

theorem oracleAnswer_length {s : State} {out bytesIn : List Byte} (h : oracleAnswer s out = .ok bytesIn) :
    bytesIn.length = out.length := by
  unfold oracleAnswer at h
  split at h
  · cases h; simp
  · split at h
    · cases h
    · cases h; simp

/-- "On `Ok`, `length(in) = length(out)`" (R26). -/
theorem envAnswer_length {s : State} {out bytesIn : List Byte} (h : envAnswer s out = .ok bytesIn) :
    bytesIn.length = out.length := by
  unfold envAnswer at h
  split at h
  · cases h; simp
  · cases h
  · exact oracleAnswer_length h
  · exact oracleAnswer_length h

/-! ### What every frame leaves alone -/

theorem SameHost.refl (s : State) : SameHost s s := ⟨rfl, rfl, rfl, rfl, rfl, rfl, rfl, rfl⟩

theorem SameHost.trans {s t u : State} (h : SameHost s t) (k : SameHost t u) : SameHost s u :=
  ⟨k.cfg.trans h.cfg, k.owned.trans h.owned, k.handles.trans h.handles, k.replies.trans h.replies,
    k.requests.trans h.requests, k.seq.trans h.seq, k.env.trans h.env, k.others.trans h.others⟩

/-- The stub's memory after a frame's bytes `sent` reached the wire. -/
def memAfter (s : State) (sent : List Byte) : Memory :=
  match s.env with
  | .stub => stubReceive s.cfg s.mem [] sent
  | .any => s.mem

theorem memAfter_wf {s : State} (h : Memory.wf s.mem) (sent : List Byte) : Memory.wf (memAfter s sent) := by
  unfold memAfter
  split
  · exact stubReceive_wf _ _ _ h
  · exact h

/-- What one frame leaves: `sent` is what reached the chip, `ev` its one primitive event (R140, R141). -/
structure FrameRun (s t : State) (sent : List Byte) (ev : Event) : Prop where
  host : SameHost s t
  cs : t.cs = .inactive
  wire : t.wire = []
  trace : t.trace = s.trace ++ (readyEvents s.cs ++ [ev, .pinSet .inactive])
  draws : t.draws = s.draws + 1
  script : t.script = s.script.tail
  mem : t.mem = memAfter s sent

theorem frameRun_intro (s : State) (sent : List Byte) (ev : Event) :
    FrameRun s (csReset (State.log ev ((csReady s).afterCall sent))) sent ev := by
  refine ⟨⟨by simp, by simp, by simp, by simp, by simp, by simp, by simp, by simp⟩, by simp, by simp, by simp, by simp, by simp, ?_⟩
  cases h : s.env <;> simp [memAfter, h]

/-- The answer a frame gets is that of the environment at the ready edge. -/
theorem frameRead_eq (op : Opcode) (a : Addr) (n : Nat) (s : State) :
    frameRead op a n s =
      match envAnswer (csReady s) (readFrameBytes op a n) with
      | .ok bytesIn =>
        (.ok (bytesIn.drop 2), csReset (State.log (.transfer (readFrameBytes op a n) (some bytesIn))
          ((csReady s).afterCall (readFrameBytes op a n))))
      | .fail k =>
        (.err .spiRead, csReset (State.log (.transfer (readFrameBytes op a n) none)
          ((csReady s).afterCall ((readFrameBytes op a n).take k)))) := by
  unfold frameRead spiTransfer
  cases h : envAnswer (csReady s) (readFrameBytes op a n) <;> simp [Verdict.sent, Op.pure, Op.raise]

theorem frameWrite_eq (op : Opcode) (a : Addr) (p : List Byte) (s : State) :
    frameWrite op a p s =
      match envAnswer (csReady s) (writeFrameBytes op a p) with
      | .ok _ =>
        (.ok (), csReset (State.log (.write (writeFrameBytes op a p) true)
          ((csReady s).afterCall (writeFrameBytes op a p))))
      | .fail k =>
        (.err .spiWrite, csReset (State.log (.write (writeFrameBytes op a p) false)
          ((csReady s).afterCall ((writeFrameBytes op a p).take k)))) := by
  unfold frameWrite spiWrite
  cases h : envAnswer (csReady s) (writeFrameBytes op a p) <;> simp [Verdict.sent, Op.pure, Op.raise]

@[simp] theorem readFrameBytes_length (op : Opcode) (a : Addr) (n : Nat) : (readFrameBytes op a n).length = n + 2 := by
  simp [readFrameBytes]; omega

@[simp] theorem writeFrameBytes_length (op : Opcode) (a : Addr) (p : List Byte) :
    (writeFrameBytes op a p).length = p.length + 2 := by simp [writeFrameBytes]; omega

/-- Everything a read frame can do (R140). -/
theorem frameRead_spec (op : Opcode) (a : Addr) (n : Nat) (s : State) :
    (∃ bytesIn t, envAnswer (csReady s) (readFrameBytes op a n) = .ok bytesIn ∧ bytesIn.length = n + 2 ∧
      frameRead op a n s = (.ok (bytesIn.drop 2), t) ∧
      FrameRun s t (readFrameBytes op a n) (.transfer (readFrameBytes op a n) (some bytesIn))) ∨
    (∃ k t, envAnswer (csReady s) (readFrameBytes op a n) = .fail k ∧ frameRead op a n s = (.err .spiRead, t) ∧
      FrameRun s t ((readFrameBytes op a n).take k) (.transfer (readFrameBytes op a n) none)) := by
  rw [frameRead_eq]
  cases h : envAnswer (csReady s) (readFrameBytes op a n) with
  | ok bytesIn => exact .inl ⟨_, _, rfl, by simpa using envAnswer_length h, rfl, frameRun_intro _ _ _⟩
  | fail k => exact .inr ⟨_, _, rfl, rfl, frameRun_intro _ _ _⟩

/-- Everything a write frame can do (R141). -/
theorem frameWrite_spec (op : Opcode) (a : Addr) (p : List Byte) (s : State) :
    (∃ bytesIn t, envAnswer (csReady s) (writeFrameBytes op a p) = .ok bytesIn ∧ frameWrite op a p s = (.ok (), t) ∧
      FrameRun s t (writeFrameBytes op a p) (.write (writeFrameBytes op a p) true)) ∨
    (∃ k t, envAnswer (csReady s) (writeFrameBytes op a p) = .fail k ∧ frameWrite op a p s = (.err .spiWrite, t) ∧
      FrameRun s t ((writeFrameBytes op a p).take k) (.write (writeFrameBytes op a p) false)) := by
  rw [frameWrite_eq]
  cases h : envAnswer (csReady s) (writeFrameBytes op a p) with
  | ok bytesIn => exact .inl ⟨_, _, rfl, rfl, frameRun_intro _ _ _⟩
  | fail k => exact .inr ⟨_, _, rfl, rfl, frameRun_intro _ _ _⟩

/-! ### Bind, map, finish -/

theorem Op.bind_ok {ε α β : Type} {m : Op ε α} {k : α → Op ε β} {s t : State} {a : α} (h : m s = (.ok a, t)) :
    Op.bind m k s = k a t := by simp [Op.bind, h]

theorem Op.bind_err {ε α β : Type} {m : Op ε α} {k : α → Op ε β} {s t : State} {e : ε} (h : m s = (.err e, t)) :
    Op.bind m k s = (.err e, t) := by simp [Op.bind, h]

theorem Op.map_ok {ε ε' α β : Type} {f : α → β} {g : ε → ε'} {m : Op ε α} {s t : State} {a : α}
    (h : m s = (.ok a, t)) : Op.map f g m s = (.ok (f a), t) := by simp [Op.map, h]

theorem Op.map_err {ε ε' α β : Type} {f : α → β} {g : ε → ε'} {m : Op ε α} {s t : State} {e : ε}
    (h : m s = (.err e, t)) : Op.map f g m s = (.err (g e), t) := by simp [Op.map, h]

theorem Op.finish_ok {ε α : Type} {m : Op ε α} {f : α → Value} {g : ε → Error} {s t : State} {a : α}
    (h : m s = (.ok a, t)) : Op.finish m f g s = t.reply (.done (.ok (f a))) := by simp [Op.finish, h]

theorem Op.finish_err {ε α : Type} {m : Op ε α} {f : α → Value} {g : ε → Error} {s t : State} {e : ε}
    (h : m s = (.err e, t)) : Op.finish m f g s = t.reply (.done (.err (g e))) := by simp [Op.finish, h]

/-- A result with a bind that succeeded came from two that did. -/
theorem Op.bind_eq_ok {ε α β : Type} {m : Op ε α} {k : α → Op ε β} {s u : State} {b : β}
    (h : Op.bind m k s = (.ok b, u)) : ∃ a t, m s = (.ok a, t) ∧ k a t = (.ok b, u) := by
  unfold Op.bind at h
  split at h
  · rename_i a t hm; exact ⟨a, t, hm, h⟩
  · cases h

/-- A finished operation gives the host exactly one reply, and leaves the rest as the operation did. -/
theorem Op.finish_eq {ε α : Type} (m : Op ε α) (f : α → Value) (g : ε → Error) (s : State) :
    ∃ r, Op.finish m f g s = (m s).2.reply (.done r) := by
  unfold Op.finish
  split <;> rename_i h <;> rw [h] <;> exact ⟨_, rfl⟩

theorem withController_next {s next t : State} :
    withController s next = .next t ↔ s.owned = true ∧ t = next := by
  unfold withController
  split
  · rename_i h; exact ⟨fun k => ⟨h, by cases k; rfl⟩, fun k => by rw [k.2]⟩
  · rename_i h; exact ⟨(nomatch ·), fun k => absurd k.1 h⟩

/-! ### Traces -/

theorem foldl_frameState_none (t : List Event) :
    t.foldl (fun o e => o.bind fun f => FrameState.next f e) (none : Option FrameState) = none := by
  induction t with
  | nil => rfl
  | cons e rest ih => exact ih

/-- Whole frames one after another are whole frames. -/
theorem WholeFrames.append {a b : List Event} (ha : WholeFrames a) (hb : WholeFrames b) : WholeFrames (a ++ b) := by
  unfold WholeFrames frameState at *
  rw [List.foldl_append, ha, hb]

theorem wholeFrames_nil : WholeFrames [] := rfl
theorem wholeFrames_idle : WholeFrames [.pinSet .inactive] := rfl
theorem wholeFrames_delay (n : Nat) : WholeFrames [.delay n] := rfl
theorem wholeFrames_transfer (out : List Byte) (r : Option (List Byte)) :
    WholeFrames (readyEvents .inactive ++ [.transfer out r, .pinSet .inactive]) := rfl
theorem wholeFrames_write (out : List Byte) (ok : Bool) :
    WholeFrames (readyEvents .inactive ++ [.write out ok, .pinSet .inactive]) := rfl

/-! ### What every operation keeps -/

/-- The relation of a state to the one an operation leaves: the host's part untouched, the line inactive again, the memory in its
form, and whole frames of the five instructions appended to the trace. -/
structure Quiet (s t : State) : Prop where
  host : SameHost s t
  cs : s.cs = .inactive → t.cs = .inactive
  wire : s.wire = [] → t.wire = []
  mem : Memory.wf s.mem → Memory.wf t.mem
  trace : ∃ evs, t.trace = s.trace ++ evs ∧ (s.cs = .inactive → WholeFrames evs) ∧ ∀ e ∈ evs, e.IsInstruction s.cfg

theorem Quiet.refl (s : State) : Quiet s s :=
  ⟨SameHost.refl s, id, id, id, [], by simp, fun _ => rfl, by simp⟩

theorem Quiet.trans {s t u : State} (h : Quiet s t) (k : Quiet t u) : Quiet s u := by
  obtain ⟨e1, ht, hw1, hi1⟩ := h.trace
  obtain ⟨e2, hu, hw2, hi2⟩ := k.trace
  refine ⟨h.host.trans k.host, k.cs ∘ h.cs, k.wire ∘ h.wire, k.mem ∘ h.mem, e1 ++ e2, ?_, ?_, ?_⟩
  · rw [hu, ht, List.append_assoc]
  · exact fun hc => (hw1 hc).append (hw2 (h.cs hc))
  · intro e he
    rcases List.mem_append.1 he with he | he
    · exact hi1 e he
    · have := hi2 e he
      rwa [h.host.cfg] at this

@[simp] theorem frameWord_encode (op : Opcode) (a : Addr) (rest : List Byte) :
    frameWord (be16 (encodeWord op a) ++ rest) = encodeWord op a := fromBE16_getD_be16 _ _

theorem readyEvents_isInstruction (l : Level) (p : Params) : ∀ e ∈ readyEvents l, e.IsInstruction p := by
  cases l <;> simp [readyEvents, Event.IsInstruction]

theorem FrameRun.quiet {s t : State} {sent : List Byte} {ev : Event} (h : FrameRun s t sent ev)
    (hw : WholeFrames (readyEvents .inactive ++ [ev, .pinSet .inactive])) (hi : ev.IsInstruction s.cfg) : Quiet s t := by
  refine ⟨h.host, fun _ => h.cs, fun _ => h.wire, fun hm => h.mem ▸ memAfter_wf hm sent, _, h.trace, ?_, ?_⟩
  · intro hc; rw [hc]; exact hw
  · intro e he
    rcases List.mem_append.1 he with he | he
    · exact readyEvents_isInstruction _ _ e he
    · simp only [List.mem_cons, List.not_mem_nil, or_false] at he
      rcases he with rfl | rfl
      · exact hi
      · trivial

/-- A read frame with a read opcode. -/
theorem frameRead_quiet {op : Opcode} {s : State} (h : op ∈ s.cfg.readOpcodes) (a : Addr) (n : Nat) :
    Quiet s (frameRead op a n s).2 := by
  have hi : ∀ r, (Event.transfer (readFrameBytes op a n) r).IsInstruction s.cfg := by
    intro r
    refine ⟨by simp, ?_⟩
    rw [readFrameBytes, frameWord_encode, wordOpcode_encodeWord]
    exact h
  rcases frameRead_spec op a n s with ⟨b, t, _, _, he, hr⟩ | ⟨k, t, _, he, hr⟩ <;> rw [he] <;>
    exact hr.quiet (wholeFrames_transfer _ _) (hi _)

/-- A write frame with a write opcode or RESET. -/
theorem frameWrite_quiet {op : Opcode} {s : State} (h : op ∈ s.cfg.writeOpcodes)
    (a : Addr) (p : List Byte) : Quiet s (frameWrite op a p s).2 := by
  have hi : ∀ ok, (Event.write (writeFrameBytes op a p) ok).IsInstruction s.cfg := by
    intro ok
    refine ⟨by simp, ?_⟩
    rw [writeFrameBytes, frameWord_encode, wordOpcode_encodeWord]
    exact h
  rcases frameWrite_spec op a p s with ⟨b, t, _, he, hr⟩ | ⟨k, t, _, he, hr⟩ <;> rw [he] <;>
    exact hr.quiet (wholeFrames_write _ _) (hi _)

theorem delayUs_quiet (n : Nat) (s : State) : Quiet s (delayUs n s) :=
  ⟨⟨rfl, rfl, rfl, rfl, rfl, rfl, rfl, rfl⟩, id, id, id, [.delay n], rfl, fun _ => rfl, by simp [Event.IsInstruction]⟩

theorem Op.bind_quiet {ε α β : Type} {m : Op ε α} {k : α → Op ε β} {s : State} (h : Quiet s (m s).2)
    (hk : ∀ a, Quiet (m s).2 (k a (m s).2).2) : Quiet s (Op.bind m k s).2 := by
  cases hm : m s with
  | mk r t =>
    rw [hm] at h hk
    cases r with
    | ok a => rw [Op.bind_ok hm]; exact h.trans (hk a)
    | err e => rw [Op.bind_err hm]; exact h

@[simp] theorem Op.map_state {ε ε' α β : Type} (f : α → β) (g : ε → ε') (m : Op ε α) (s : State) :
    (Op.map f g m s).2 = (m s).2 := by
  cases hm : m s with
  | mk r t => cases r <;> simp [Op.map, hm]

end Sys2Proof.Machine
end

