-- ==== Sys2Proof/Laws/PerInstr.lean ====
section
/-! SUPPORT. Statements made per instruction, one lemma for each constructor of Instr. -/

namespace Sys2Proof.Laws.FrameShape

open Sys2Proof

/-- R96: a frame is the instruction's word, big-endian, and its payload; "Total frame length is 2 + payload length bytes". -/
def Statement (i : Instr) : Prop :=
  ∀ p : Params, (encode p i).length = 2 + i.payload.length ∧
    (encode p i).take 2 = be16 (encodeWord (i.opcode p) i.addr) ∧ (encode p i).drop 2 = i.payload

theorem of_encode (i : Instr) : Statement i := fun p => by
  refine ⟨?_, ?_, ?_⟩
  · simp [encode]
  · exact List.take_left' rfl
  · exact List.drop_left' rfl

theorem reset (a : Addr) : Statement (.reset a) := of_encode _
theorem read (a : Addr) (n : Nat) : Statement (.read a n) := of_encode _
theorem write (a : Addr) (payload : List Byte) : Statement (.write a payload) := of_encode _
theorem readSfr (a : Addr) : Statement (.readSfr a) := of_encode _
theorem writeSfr (a : Addr) (v : Word) : Statement (.writeSfr a v) := of_encode _

end Sys2Proof.Laws.FrameShape
end

