-- ==== Sys2Proof/Laws/Transactions.lean ====
section
/-! SUPPORT. What the Controller's operations and the sequencer's transitions do, once each (spec/41_transactions.md,
spec/47_host_sequencer.md). -/

namespace Sys2Proof.Machine

open Sys2Proof

theorem opRead_mem (p : Params) : p.opRead ∈ p.readOpcodes := by unfold Params.readOpcodes; cases p.sfrOpcodes <;> simp

theorem opWrite_mem (p : Params) : p.opWrite ∈ p.writeOpcodes := by
  unfold Params.writeOpcodes; cases p.sfrOpcodes <;> simp

theorem opReset_mem (p : Params) : p.opReset ∈ p.writeOpcodes := by
  unfold Params.writeOpcodes; cases p.sfrOpcodes <;> simp

theorem sfrReadOp_mem (p : Params) : sfrReadOp p ∈ p.readOpcodes := by
  unfold sfrReadOp Params.readOpcodes; cases p.sfrOpcodes <;> simp

theorem sfrWriteOp_mem (p : Params) : sfrWriteOp p ∈ p.writeOpcodes := by
  unfold sfrWriteOp Params.writeOpcodes; cases p.sfrOpcodes <;> simp

/-! ### Register accesses -/

/-- Everything a register read can do (R162). -/
theorem readRegAt_spec (a : Addr) (s : State) :
    (∃ bytesIn t, envAnswer (csReady s) (readFrameBytes (sfrReadOp s.cfg) a 4) = .ok bytesIn ∧ bytesIn.length = 6 ∧
      readRegAt a s = (.ok (fromLE32 (bytesIn.drop 2)), t) ∧
      FrameRun s t (readFrameBytes (sfrReadOp s.cfg) a 4)
        (.transfer (readFrameBytes (sfrReadOp s.cfg) a 4) (some bytesIn))) ∨
    (∃ k t, envAnswer (csReady s) (readFrameBytes (sfrReadOp s.cfg) a 4) = .fail k ∧
      readRegAt a s = (.err .spiRead, t) ∧
      FrameRun s t ((readFrameBytes (sfrReadOp s.cfg) a 4).take k)
        (.transfer (readFrameBytes (sfrReadOp s.cfg) a 4) none)) := by
  rcases frameRead_spec (sfrReadOp s.cfg) a 4 s with ⟨b, t, hv, hl, he, hr⟩ | ⟨k, t, hv, he, hr⟩
  · exact .inl ⟨b, t, hv, hl, Op.map_ok he, hr⟩
  · exact .inr ⟨k, t, hv, Op.map_err he, hr⟩

/-- Everything a register write can do (R163). -/
theorem writeRegAt_spec (a : Addr) (v : Word) (s : State) :
    (∃ bytesIn t, envAnswer (csReady s) (writeFrameBytes (sfrWriteOp s.cfg) a (le32 v)) = .ok bytesIn ∧
      writeRegAt a v s = (.ok (), t) ∧
      FrameRun s t (writeFrameBytes (sfrWriteOp s.cfg) a (le32 v))
        (.write (writeFrameBytes (sfrWriteOp s.cfg) a (le32 v)) true)) ∨
    (∃ k t, envAnswer (csReady s) (writeFrameBytes (sfrWriteOp s.cfg) a (le32 v)) = .fail k ∧
      writeRegAt a v s = (.err .spiWrite, t) ∧
      FrameRun s t ((writeFrameBytes (sfrWriteOp s.cfg) a (le32 v)).take k)
        (.write (writeFrameBytes (sfrWriteOp s.cfg) a (le32 v)) false)) := by
  rcases frameWrite_spec (sfrWriteOp s.cfg) a (le32 v) s with ⟨b, t, hv, he, hr⟩ | ⟨k, t, hv, he, hr⟩
  · exact .inl ⟨b, t, hv, he, hr⟩
  · exact .inr ⟨k, t, hv, he, hr⟩

/-- A register read whose answer is scripted (R28). -/
theorem readRegAt_scripted (a : Addr) {s : State} {given : List Byte} {rest : List Answer} (hl : given.length = 6)
    (h : s.script = .ok given :: rest) :
    ∃ t, readRegAt a s = (.ok (fromLE32 (given.drop 2)), t) ∧
      FrameRun s t (readFrameBytes (sfrReadOp s.cfg) a 4) (.transfer (readFrameBytes (sfrReadOp s.cfg) a 4) (some given)) := by
  have hx : envAnswer (csReady s) (readFrameBytes (sfrReadOp s.cfg) a 4) = .ok given := by
    simp only [envAnswer, csReady_script, h, readFrameBytes_length]
    rw [show 4 + 2 = given.length from hl.symm, fitBytes_exact]
  rcases readRegAt_spec a s with ⟨b, t, hv, -, he, hr⟩ | ⟨k, t, hv, -, -⟩
  · cases hx.symm.trans hv; exact ⟨t, he, hr⟩
  · cases hx.symm.trans hv

theorem readRegAt_failed (a : Addr) {s : State} {k : Nat} {rest : List Answer} (h : s.script = .fail k :: rest) :
    ∃ t, readRegAt a s = (.err .spiRead, t) ∧
      FrameRun s t ((readFrameBytes (sfrReadOp s.cfg) a 4).take k) (.transfer (readFrameBytes (sfrReadOp s.cfg) a 4) none) := by
  rcases readRegAt_spec a s with ⟨b, t, hv, -, -, -⟩ | ⟨j, t, hv, he, hr⟩ <;>
    simp only [envAnswer, csReady_script, h] at hv <;> cases hv
  exact ⟨t, he, hr⟩

/-- A register write whose answer is scripted (R28). -/
theorem writeRegAt_scripted (a : Addr) (v : Word) {s : State} {given : List Byte} {rest : List Answer}
    (h : s.script = .ok given :: rest) :
    ∃ t, writeRegAt a v s = (.ok (), t) ∧
      FrameRun s t (writeFrameBytes (sfrWriteOp s.cfg) a (le32 v)) (.write (writeFrameBytes (sfrWriteOp s.cfg) a (le32 v)) true) := by
  rcases writeRegAt_spec a v s with ⟨b, t, -, he, hr⟩ | ⟨j, t, hv, -, -⟩
  · exact ⟨t, he, hr⟩
  · simp [envAnswer, h] at hv

theorem writeRegAt_failed (a : Addr) (v : Word) {s : State} {k : Nat} {rest : List Answer} (h : s.script = .fail k :: rest) :
    ∃ t, writeRegAt a v s = (.err .spiWrite, t) ∧
      FrameRun s t ((writeFrameBytes (sfrWriteOp s.cfg) a (le32 v)).take k)
        (.write (writeFrameBytes (sfrWriteOp s.cfg) a (le32 v)) false) := by
  rcases writeRegAt_spec a v s with ⟨b, t, hv, -, -⟩ | ⟨j, t, hv, he, hr⟩ <;>
    simp only [envAnswer, csReady_script, h] at hv <;> cases hv
  exact ⟨t, he, hr⟩

theorem readRegAt_quiet (a : Addr) (s : State) : Quiet s (readRegAt a s).2 := by
  unfold readRegAt; rw [Op.map_state]; exact frameRead_quiet (sfrReadOp_mem _) _ _

theorem writeRegAt_quiet (a : Addr) (v : Word) (s : State) : Quiet s (writeRegAt a v s).2 :=
  frameWrite_quiet (sfrWriteOp_mem _) _ _

theorem modifyRegAt_quiet (a : Addr) (f : Word → Word) (s : State) : Quiet s (modifyRegAt a f s).2 :=
  Op.bind_quiet (readRegAt_quiet a s) fun _ => writeRegAt_quiet _ _ _

/-- Everything a register modify can do (R164, R165): it ends with its failed read, or writes the transform of what it read. -/
theorem modifyRegAt_spec (a : Addr) (f : Word → Word) (s : State) :
    (∃ k t, modifyRegAt a f s = (.err .spiRead, t) ∧
      FrameRun s t ((readFrameBytes (sfrReadOp s.cfg) a 4).take k)
        (.transfer (readFrameBytes (sfrReadOp s.cfg) a 4) none)) ∨
    (∃ bytesIn u, bytesIn.length = 6 ∧
      envAnswer (csReady s) (readFrameBytes (sfrReadOp s.cfg) a 4) = .ok bytesIn ∧
      FrameRun s u (readFrameBytes (sfrReadOp s.cfg) a 4)
        (.transfer (readFrameBytes (sfrReadOp s.cfg) a 4) (some bytesIn)) ∧
      modifyRegAt a f s = writeRegAt a (f (fromLE32 (bytesIn.drop 2))) u) := by
  rcases readRegAt_spec a s with ⟨b, t, hv, hl, he, hr⟩ | ⟨k, t, hv, he, hr⟩
  · exact .inr ⟨b, t, hl, hv, hr, Op.bind_ok he⟩
  · exact .inl ⟨k, t, Op.bind_err he, hr⟩

theorem readSfr_quiet (r : Sfr) (s : State) : Quiet s (readSfr r s).2 := readRegAt_quiet _ s
theorem writeSfr_quiet (r : Sfr) (v : Word) (s : State) : Quiet s (writeSfr r v s).2 := writeRegAt_quiet _ v s
theorem modifySfr_quiet (r : FixedReg) (f : RegWord r.reg → RegWord r.reg) (s : State) :
    Quiet s (modifySfr r f s).2 := modifyRegAt_quiet _ _ s

theorem resetChip_quiet (s : State) : Quiet s (resetChip s).2 := frameWrite_quiet (opReset_mem _) _ _

/-! ### RAM accesses -/

theorem readRam_out {s : State} {addr : Nat} {buf : List Byte} (h : ramOk s.cfg addr buf.length = false) :
    readRam addr buf s = ((.err (.invalidRamAddress addr), buf), s) := by simp [readRam, h]

theorem writeRam_out {s : State} {addr : Nat} {bytes : List Byte} (h : ramOk s.cfg addr bytes.length = false) :
    writeRam addr bytes s = (.err (.invalidRamAddress addr), s) := by simp [writeRam, h, Op.raise]

/-- Everything `read_ram` can do in bounds (R166). -/
theorem readRam_in {s : State} {addr : Nat} {buf : List Byte} (h : ramOk s.cfg addr buf.length = true) :
    (∃ bytesIn t, envAnswer (csReady s) (readFrameBytes s.cfg.opRead (BitVec.ofNat 12 addr) buf.length) = .ok bytesIn ∧
      bytesIn.length = buf.length + 2 ∧ readRam addr buf s = ((.ok (), bytesIn.drop 2), t) ∧
      FrameRun s t (readFrameBytes s.cfg.opRead (BitVec.ofNat 12 addr) buf.length)
        (.transfer (readFrameBytes s.cfg.opRead (BitVec.ofNat 12 addr) buf.length) (some bytesIn))) ∨
    (∃ k any t, envAnswer (csReady s) (readFrameBytes s.cfg.opRead (BitVec.ofNat 12 addr) buf.length) = .fail k ∧
      any.length = buf.length ∧ readRam addr buf s = ((.err .spiRead, any), t) ∧
      FrameRun s t ((readFrameBytes s.cfg.opRead (BitVec.ofNat 12 addr) buf.length).take k)
        (.transfer (readFrameBytes s.cfg.opRead (BitVec.ofNat 12 addr) buf.length) none)) := by
  unfold readRam
  rcases frameRead_spec s.cfg.opRead (BitVec.ofNat 12 addr) buf.length s with ⟨b, t, hv, hl, he, hr⟩ | ⟨k, t, hv, he, hr⟩
  · exact .inl ⟨b, t, hv, hl, by rw [if_pos h, he], hr⟩
  · exact .inr ⟨k, (List.range buf.length).map (Config.freeBufferByte s.handles s.draws addr), t, hv, by simp,
      by rw [if_pos h, he]; rfl, hr⟩

/-- Everything `write_ram` can do in bounds (R167). -/
theorem writeRam_in {s : State} {addr : Nat} {bytes : List Byte} (h : ramOk s.cfg addr bytes.length = true) :
    (∃ bytesIn t, envAnswer (csReady s) (writeFrameBytes s.cfg.opWrite (BitVec.ofNat 12 addr) bytes) = .ok bytesIn ∧
      writeRam addr bytes s = (.ok (), t) ∧
      FrameRun s t (writeFrameBytes s.cfg.opWrite (BitVec.ofNat 12 addr) bytes)
        (.write (writeFrameBytes s.cfg.opWrite (BitVec.ofNat 12 addr) bytes) true)) ∨
    (∃ k t, envAnswer (csReady s) (writeFrameBytes s.cfg.opWrite (BitVec.ofNat 12 addr) bytes) = .fail k ∧
      writeRam addr bytes s = (.err .spiWrite, t) ∧
      FrameRun s t ((writeFrameBytes s.cfg.opWrite (BitVec.ofNat 12 addr) bytes).take k)
        (.write (writeFrameBytes s.cfg.opWrite (BitVec.ofNat 12 addr) bytes) false)) := by
  unfold writeRam
  rcases frameWrite_spec s.cfg.opWrite (BitVec.ofNat 12 addr) bytes s with ⟨b, t, hv, he, hr⟩ | ⟨k, t, hv, he, hr⟩
  · exact .inl ⟨b, t, hv, by rw [if_pos h, Op.map_ok he], hr⟩
  · exact .inr ⟨k, t, hv, by rw [if_pos h, Op.map_err he]; rfl, hr⟩

theorem readRam_quiet (addr : Nat) (buf : List Byte) (s : State) : Quiet s (readRam addr buf s).2 := by
  cases h : ramOk s.cfg addr buf.length with
  | false => rw [readRam_out h]; exact Quiet.refl s
  | true =>
    have := frameRead_quiet (s := s) (op := s.cfg.opRead) (opRead_mem _) (BitVec.ofNat 12 addr) buf.length
    unfold readRam
    rw [if_pos h]
    cases he : frameRead s.cfg.opRead (BitVec.ofNat 12 addr) buf.length s with
    | mk r t => rw [he] at this; cases r <;> exact this

theorem writeRam_quiet (addr : Nat) (bytes : List Byte) (s : State) : Quiet s (writeRam addr bytes s).2 := by
  cases h : ramOk s.cfg addr bytes.length with
  | false => rw [writeRam_out h]; exact Quiet.refl s
  | true => unfold writeRam; rw [if_pos h, Op.map_state]; exact frameWrite_quiet (opWrite_mem _) _ _

/-! ### SFR addresses -/

theorem Sfr.mem_all (r : Sfr) : r ∈ Sfr.all := by
  simp only [Sfr.all, List.mem_append, List.mem_map, List.mem_finRange, true_and]
  cases r <;> simp [Sfr.low, Sfr.high]

/-- What an SFR_ADDR must keep (R62), from a check of the table's rows. -/
theorem Params.sfrAddrOk_of_all {p : Params} (hd : (Sfr.all.map p.sfrAddrOf).Nodup)
    (h : ∀ r ∈ Sfr.all, (p.sfrAddrOf r).toNat % 4 = 0 ∧ ¬ InRamWindow (p.sfrAddrOf r) ∧ p.sfrAddrOf r ≠ reservedAddr) :
    p.SfrAddrOk where
  distinct r q e := List.inj_on_of_nodup_map hd (Sfr.mem_all r) (Sfr.mem_all q) e
  aligned r := (h r (Sfr.mem_all r)).1
  notRam r := (h r (Sfr.mem_all r)).2.1
  fifoNotReserved k i := (h (k.sfr i) (Sfr.mem_all _)).2.2

/-! ### FIFO accesses and the TEF -/

theorem fifoAddress_state (k : FifoReg) (n : Nat) (s : State) : (fifoAddress k n s).2 = s := by
  unfold fifoAddress; split <;> rfl

theorem fifoIndex_in {n : Nat} (h : 1 ≤ n ∧ n ≤ 31) : fifoIndex n = .ok ⟨n - 1, by omega⟩ := by
  unfold fifoIndex; rw [dif_pos h]

theorem fifoIndex_out {n : Nat} (h : ¬ (1 ≤ n ∧ n ≤ 31)) : fifoIndex n = .err (.invalidFifo n) := by
  unfold fifoIndex; rw [dif_neg h]

/-- A FIFO accessor in range acts at the FIFO's register (R169). -/
theorem fifoAddress_in (k : FifoReg) (n : Nat) (s : State) (h : 1 ≤ n ∧ n ≤ 31) :
    fifoAddress k n s = (.ok (s.cfg.sfrAddrOf (k.sfr ⟨n - 1, by omega⟩)), s) := by
  simp [fifoAddress, fifoRegAddress, fifoIndex_in h, Op.pure]

theorem fifoAddress_out (k : FifoReg) (n : Nat) (s : State) (h : ¬ (1 ≤ n ∧ n ≤ 31)) :
    fifoAddress k n s = (.err (.invalidFifo n), s) := by
  simp [fifoAddress, fifoRegAddress, fifoIndex_out h, Op.raise]

theorem readFifo_quiet (k : FifoReg) (n : Nat) (s : State) : Quiet s (readFifo k n s).2 :=
  Op.bind_quiet (by rw [fifoAddress_state]; exact Quiet.refl s)
    fun a => by rw [Op.map_state]; exact readRegAt_quiet _ _

theorem modifyFifo_quiet (k : FifoReg) (n : Nat) (f : RegWord k.reg → RegWord k.reg) (s : State) :
    Quiet s (modifyFifo k n f s).2 :=
  Op.bind_quiet (by rw [fifoAddress_state]; exact Quiet.refl s)
    fun a => by rw [Op.map_state]; exact modifyRegAt_quiet _ _ _

theorem enableTef_quiet (count : BitVec 4) (s : State) : Quiet s (enableTef count s).2 :=
  Op.bind_quiet (modifySfr_quiet _ _ s) fun _ =>
    Op.bind_quiet (readSfr_quiet _ _) fun _ => writeSfr_quiet _ _ _

/-! ### The sequencer -/

theorem nextPhase_state {α : Type} (next : SeqPhase) (x : Result TransportError α × State) :
    (nextPhase next x).2 = x.2 := by
  obtain ⟨r, t⟩ := x; cases r <;> rfl

theorem pollConfigMode_quiet (i : Nat) (s : State) : Quiet s (pollConfigMode i s).2 := by
  have h := readSfr_quiet .c1con s
  unfold pollConfigMode
  cases hr : readSfr .c1con s with
  | mk r t =>
    rw [hr] at h
    dsimp only
    split
    · exact h
    · split
      · exact h.trans (delayUs_quiet _ _)
      · exact h

theorem pollPll_quiet (i : Nat) (s : State) : Quiet s (pollPll i s).2 := by
  have h := readSfr_quiet .osc s
  unfold pollPll
  cases hr : readSfr .osc s with
  | mk r t =>
    rw [hr] at h
    dsimp only
    split
    · exact h
    · split
      · exact h.trans (delayUs_quiet _ _)
      · exact h

theorem verifyBit_quiet (bit : Nat) (s : State) : Quiet s (verifyBit bit s).2 := by
  have h := writeRam_quiet echoAddr (echoPattern s.cfg bit) s
  unfold verifyBit
  cases hr : writeRam echoAddr (echoPattern s.cfg bit) s with
  | mk r t =>
    rw [hr] at h
    cases r with
    | err e => exact h
    | ok u =>
      have h2 := h.trans (readRam_quiet echoAddr [0, 0, 0, 0] t)
      dsimp only
      cases hb : readRam echoAddr [0, 0, 0, 0] t with
      | mk rb v =>
        rw [hb] at h2
        obtain ⟨r2, buf⟩ := rb
        cases r2 with
        | err e => exact h2
        | ok u2 => dsimp only; split; exact h2; split <;> exact h2

theorem reconcile_quiet (inUse : Bool) (s : State) : Quiet s (reconcile inUse s).2 :=
  Op.bind_quiet (readSfr_quiet _ _) fun _ => by
    split
    · exact writeSfr_quiet _ _ _
    · exact Quiet.refl _

theorem txQueueFrames_quiet (q : TxqSettings) (s : State) : Quiet s (txQueueFrames q s).2 :=
  Op.bind_quiet (modifySfr_quiet _ _ s) fun _ =>
    Op.bind_quiet (by split; exact modifySfr_quiet _ _ _; exact Quiet.refl _) fun _ => reconcile_quiet _ _

/-- Every transition of the sequencer. -/
theorem seqTransition_quiet (settings : Settings) (phase : SeqPhase) (s : State) :
    Quiet s (seqTransition settings phase s).2 := by
  cases phase with
  | unconfigured => exact Quiet.refl s
  | requestingConfigMode => unfold seqTransition requestConfigMode; rw [nextPhase_state]; exact modifySfr_quiet _ _ s
  | awaitingConfigMode i => exact pollConfigMode_quiet i s
  | verifyingComms bit => exact verifyBit_quiet bit s
  | programmingOscillator => unfold seqTransition programOscillator; rw [nextPhase_state]; exact modifySfr_quiet _ _ s
  | awaitingPll i => exact pollPll_quiet i s
  | programmingIo => unfold seqTransition programIo; rw [nextPhase_state]; exact writeSfr_quiet _ _ s
  | programmingTxQueue => unfold seqTransition programTxQueue; rw [nextPhase_state]; exact txQueueFrames_quiet _ s
  | configured => exact Quiet.refl s
  | failed r => exact Quiet.refl s

/-- The echo's address is in bounds under either rule, so its accesses raise transport errors only (R306; log 25). -/
theorem ramOk_echo (p : Params) : ramOk p echoAddr 4 = true := by
  unfold ramOk echoAddr; cases p.ramBound <;> decide

end Sys2Proof.Machine
end

