-- ==== Sys2Proof/Laws/Steps.lean ====
section
/-! SUPPORT. What an instruction, a call, a transition of the sequencer and a step can do, once each
(spec/10_state.md R21, R22, spec/47_host_sequencer.md R303). -/

namespace Sys2Proof.Machine

open Sys2Proof

/-! ### Several Controllers (R39) -/

/-- A Controller on other handles stays, whichever the host turns to. -/
theorem mem_lines_focus {s : State} {l : Line} (hl : l ∈ s.lines) {h : Handles} (hne : l.handles ≠ h) :
    l ∈ (s.focus h).lines := by
  unfold State.focus
  split
  · exact hl
  · refine List.mem_cons_of_mem _ ?_
    rcases List.mem_cons.1 hl with rfl | hl
    · exact List.mem_cons_self
    · exact List.mem_cons_of_mem _ (List.mem_filter.2 ⟨hl, by simpa using hne⟩)

/-- The host turns to a Controller that is there, or to handles that none was constructed from. -/
theorem focus_line_mem (s : State) (h : Handles) :
    (s.focus h).line ∈ s.lines ∨ (s.focus h).line = Line.fresh s.env h ∧ ∀ l ∈ s.lines, l.handles ≠ h := by
  unfold State.focus
  split
  · exact .inl List.mem_cons_self
  · rename_i hne
    show (s.others.find? fun l => l.handles == h).getD (Line.fresh s.env h) ∈ s.lines ∨
      (s.others.find? fun l => l.handles == h).getD (Line.fresh s.env h) = _ ∧ _
    cases hf : s.others.find? fun l => l.handles == h with
    | some l => exact .inl (List.mem_cons_of_mem _ (List.mem_of_find?_eq_some hf))
    | none =>
      refine .inr ⟨rfl, fun l hl => ?_⟩
      rcases List.mem_cons.1 hl with rfl | hl
      · exact fun e => hne e.symm
      · simpa using List.find?_eq_none.1 hf l hl

/-- The host turns to the Controller that is on the handles, where one is (log 35). -/
theorem focus_line_eq {s : State} (hd : s.lines.Pairwise fun l m => l.handles ≠ m.handles) {l : Line} (hl : l ∈ s.lines) :
    (s.focus l.handles).line = l := by
  rcases List.mem_cons.1 hl with rfl | hl
  · rw [line_handles, focus_self]
  · have hne : l.handles ≠ s.handles := fun e => (List.pairwise_cons.1 hd).1 l hl (by rw [line_handles, e])
    have hf : s.others.find? (fun m => m.handles == l.handles) = some l := by
      have hd' := (List.pairwise_cons.1 hd).2
      generalize s.others = ms at hl hd'
      induction ms with
      | nil => cases hl
      | cons m rest ih =>
        rcases List.mem_cons.1 hl with rfl | hr
        · simp
        · rw [List.find?_cons_of_neg (by simpa using (List.pairwise_cons.1 hd').1 l hr)]
          exact ih hr (List.pairwise_cons.1 hd').2
    rw [State.focus, if_neg hne, hf]; rfl

/-- The Controllers not in use, after the host turned to other handles: all those on other handles. -/
theorem focus_others (s : State) {h : Handles} (hne : h ≠ s.handles) :
    (s.focus h).others = s.line :: s.others.filter fun l => l.handles != h := by
  unfold State.focus; rw [if_neg hne]

theorem lines_of_focus {s : State} {h : Handles} {l : Line} (hl : l ∈ (s.focus h).lines) :
    l ∈ s.lines ∨ l = Line.fresh s.env h := by
  rcases List.mem_cons.1 hl with rfl | hl
  · exact (focus_line_mem s h).imp_right And.left
  · by_cases he : h = s.handles
    · rw [he, focus_self] at hl; exact .inl (List.mem_cons_of_mem _ hl)
    · rw [focus_others s he] at hl
      rcases List.mem_cons.1 hl with rfl | hl
      · exact .inl List.mem_cons_self
      · exact .inl (List.mem_cons_of_mem _ (List.mem_filter.1 hl).1)

theorem Line.fresh_idle (env : Oracle) (h : Handles) : (Line.fresh env h).Idle := ⟨rfl, rfl, List.Pairwise.nil, fun _ h => absurd h List.not_mem_nil⟩

/-- The Controllers stay distinct and exclusive, and idle, whichever the host turns to. -/
theorem focus_idle {s : State} (hi : ∀ l ∈ s.lines, l.Idle) (h : Handles) : ∀ l ∈ (s.focus h).lines, l.Idle :=
  fun l hl => (lines_of_focus hl).elim (hi l) fun e => e ▸ Line.fresh_idle _ _

theorem Line.Exclusive.symm {l m : Line} (h : l.Exclusive m) : m.Exclusive l :=
  fun hm hl => ⟨(h hl hm).1.symm, (h hl hm).2.symm⟩

theorem focus_distinct {s : State} (hd : s.lines.Pairwise fun l m => l.handles ≠ m.handles) (h : Handles) :
    (s.focus h).lines.Pairwise fun l m => l.handles ≠ m.handles := by
  by_cases he : h = s.handles
  · rw [he, focus_self]; exact hd
  · unfold State.lines
    rw [focus_others s he]
    have hp := List.pairwise_cons.1 hd
    refine List.pairwise_cons.2 ⟨?_, List.pairwise_cons.2 ⟨fun m hm => hp.1 m (List.mem_filter.1 hm).1, hp.2.filter _⟩⟩
    intro m hm
    rw [line_handles, focus_handles]
    rcases List.mem_cons.1 hm with rfl | hm
    · exact he
    · exact fun e => by simpa [e] using (List.mem_filter.1 hm).2

theorem focus_exclusive {s : State} (hx : s.lines.Pairwise Line.Exclusive) (h : Handles) :
    (s.focus h).lines.Pairwise Line.Exclusive := by
  by_cases he : h = s.handles
  · rw [he, focus_self]; exact hx
  · have hall : ∀ l ∈ s.lines, ∀ m ∈ s.lines, l ≠ m → l.Exclusive m := fun l hl m hm hne =>
      (List.Pairwise.forall_of_forall_of_flip (R := fun a b => a ≠ b → Line.Exclusive a b)
        (fun _ _ hne => absurd rfl hne) (hx.imp fun {a b} (h : Line.Exclusive a b) (_ : a ≠ b) => h)
        (hx.imp fun {a b} (h : Line.Exclusive a b) (_ : b ≠ a) => h.symm)) hl hm hne
    unfold State.lines
    rw [focus_others s he]
    have hp := List.pairwise_cons.1 hx
    refine List.pairwise_cons.2 ⟨?_, List.pairwise_cons.2 ⟨fun m hm => hp.1 m (List.mem_filter.1 hm).1, hp.2.filter _⟩⟩
    intro m hm
    rcases focus_line_mem s h with hl | ⟨hl, -⟩
    · have hm' : m ∈ s.lines := by
        rcases List.mem_cons.1 hm with rfl | hm
        · exact List.mem_cons_self
        · exact List.mem_cons_of_mem _ (List.mem_filter.1 hm).1
      refine hall _ hl _ hm' fun e => ?_
      have hh : m.handles = h := by rw [← e, line_handles, focus_handles]
      rcases List.mem_cons.1 hm with rfl | hm
      · exact he hh.symm
      · simpa [hh] using (List.mem_filter.1 hm).2
    · rw [hl]; intro ho; cases ho

/-- The Controllers not in use after the host turned were all there before. -/
theorem mem_lines_of_focus_others {s : State} {h : Handles} {l : Line} (hl : l ∈ (s.focus h).others) : l ∈ s.lines := by
  by_cases he : h = s.handles
  · rw [he, focus_self] at hl; exact List.mem_cons_of_mem _ hl
  · rw [focus_others s he] at hl
    rcases List.mem_cons.1 hl with rfl | hl
    · exact List.mem_cons_self
    · exact List.mem_cons_of_mem _ (List.mem_filter.1 hl).1

/-- A construction leaves every Controller on other handles as it is. -/
theorem mem_lines_construct {s : State} {l : Line} (hl : l ∈ s.lines) {h : Handles} (hne : l.handles ≠ h) :
    l ∈ (construct h s).lines := by
  rcases List.mem_cons.1 (mem_lines_focus hl hne) with rfl | hm
  · exact absurd (by rw [line_handles, focus_handles]) hne
  · exact List.mem_cons_of_mem _ hm

theorem holds_iff {s : State} {h : Handles} :
    s.holds h = true ↔ ∃ l ∈ s.lines, l.owned = true ∧ (l.handles.bus = h.bus ∨ l.handles.pin = h.pin) := by
  simp [State.holds]

theorem hasController_iff {s : State} {h : Handles} :
    s.hasController h = true ↔ ∃ l ∈ s.lines, l.owned = true ∧ l.handles = h := by simp [State.hasController]

/-! ### Instructions -/

theorem withRegisterOnly_next {s next t : State} :
    withRegisterOnly s next = .next t ↔ s.cfg.sfrOpcodes = .registerOnly ∧ s.owned = true ∧ t = next := by
  unfold withRegisterOnly
  cases s.cfg.sfrOpcodes
  · cases s.owned <;> simp
  · simp [withController_next]

/-- Every instruction that answers a next state sent one frame from a Controller that exists, and returned one result. -/
theorem exec_frame {i : Instr} {s t : State} (h : exec i s = .next t) :
    s.owned = true ∧ ∃ sent ev u r, FrameRun s u sent ev ∧ t = u.reply (.done r) := by
  have read : ∀ (op : Opcode) (a : Addr) (n : Nat) (f : List Byte → Value), ∃ sent ev u r, FrameRun s u sent ev ∧
      Op.finish (frameRead op a n) f TransportError.toError s = u.reply (.done r) := by
    intro op a n f
    rcases frameRead_spec op a n s with ⟨b, t, _, _, he, hr⟩ | ⟨k, t, _, he, hr⟩
    · exact ⟨_, _, t, _, hr, Op.finish_ok he⟩
    · exact ⟨_, _, t, _, hr, Op.finish_err he⟩
  have write : ∀ (op : Opcode) (a : Addr) (p : List Byte) (f : Unit → Value), ∃ sent ev u r, FrameRun s u sent ev ∧
      Op.finish (frameWrite op a p) f TransportError.toError s = u.reply (.done r) := by
    intro op a p f
    rcases frameWrite_spec op a p s with ⟨b, t, _, he, hr⟩ | ⟨k, t, _, he, hr⟩
    · exact ⟨_, _, t, _, hr, Op.finish_ok he⟩
    · exact ⟨_, _, t, _, hr, Op.finish_err he⟩
  cases i with
  | reset a => obtain ⟨ho, rfl⟩ := withController_next.1 h; exact ⟨ho, write _ _ _ _⟩
  | read a n => obtain ⟨ho, rfl⟩ := withController_next.1 h; exact ⟨ho, read _ _ _ _⟩
  | write a p => obtain ⟨ho, rfl⟩ := withController_next.1 h; exact ⟨ho, write _ _ _ _⟩
  | readSfr a => obtain ⟨_, ho, rfl⟩ := withRegisterOnly_next.1 h; exact ⟨ho, read _ _ _ _⟩
  | writeSfr a v => obtain ⟨_, ho, rfl⟩ := withRegisterOnly_next.1 h; exact ⟨ho, write _ _ _ _⟩

theorem Op.finish_quiet {ε α : Type} {m : Op ε α} {f : α → Value} {g : ε → Error} {s : State} (h : Quiet s (m s).2) :
    ∃ u r, Quiet s u ∧ Op.finish m f g s = u.reply r := by
  obtain ⟨r, he⟩ := Op.finish_eq m f g s
  exact ⟨_, _, h, he⟩

theorem exec_quiet {i : Instr} {s t : State} (h : exec i s = .next t) : ∃ u r, Quiet s u ∧ t = u.reply r := by
  cases i with
  | reset a => obtain ⟨_, rfl⟩ := withController_next.1 h; exact Op.finish_quiet (frameWrite_quiet (opReset_mem _) _ _)
  | read a n => obtain ⟨_, rfl⟩ := withController_next.1 h; exact Op.finish_quiet (frameRead_quiet (opRead_mem _) _ _)
  | write a p => obtain ⟨_, rfl⟩ := withController_next.1 h; exact Op.finish_quiet (frameWrite_quiet (opWrite_mem _) _ _)
  | readSfr a =>
    obtain ⟨hr, _, rfl⟩ := withRegisterOnly_next.1 h
    exact Op.finish_quiet (frameRead_quiet (by simp [Params.readOpcodes, hr]) _ _)
  | writeSfr a v =>
    obtain ⟨hr, _, rfl⟩ := withRegisterOnly_next.1 h
    exact Op.finish_quiet (frameWrite_quiet (by simp [Params.writeOpcodes, hr]) _ _)

/-! ### Calls -/

theorem runCall_next {c : Call} {s t : State} (h : runCall c s = .next t) : callRefusal c s = none ∧ t = callNext c s := by
  unfold runCall at h
  split at h
  · cases h
  · cases h; exact ⟨‹_›, rfl⟩

/-- A call that is not refused, and is no construction and no lookup, has its Controller. -/
theorem owned_of_callRefusal {c : Call} {s : State} (h : callRefusal c s = none) (hn : ∀ h, c ≠ .new h)
    (hf : ∀ k n, c ≠ .fifoAddress k n) : s.owned = true := by
  cases c <;> simp [callRefusal] at h ⊢
  · exact absurd rfl (hn _)
  all_goals first | exact absurd rfl (hf _ _) | (by_contra hc; simp [hc] at h)

/-- Every call but a construction, a release and a `configure` gives one reply and is otherwise quiet. -/
theorem callNext_quiet (c : Call) (s : State) (hn : ∀ h, c ≠ .new h) (hf : c ≠ .free) (hc : ∀ x, c ≠ .configure x) :
    ∃ u r, Quiet s u ∧ callNext c s = u.reply r := by
  cases c <;> simp only [callNext] <;> try contradiction
  · exact absurd rfl (hn _)
  · exact Op.finish_quiet (resetChip_quiet s)
  · exact Op.finish_quiet (readSfr_quiet _ s)
  · exact Op.finish_quiet (writeSfr_quiet _ _ s)
  · unfold callModifySfr
    split
    · exact ⟨s, _, Quiet.refl s, rfl⟩
    · exact Op.finish_quiet (modifySfr_quiet _ _ s)
  · rename_i addr buf
    have h := readRam_quiet addr buf s
    unfold callReadRam
    split <;> rename_i he <;> rw [he] at h <;> exact ⟨_, _, h, rfl⟩
  · exact Op.finish_quiet (writeRam_quiet _ _ s)
  · exact Op.finish_quiet (by rw [fifoAddress_state]; exact Quiet.refl s)
  · exact Op.finish_quiet (readFifo_quiet _ _ s)
  · unfold callModifyFifo
    split
    · exact ⟨s, _, Quiet.refl s, rfl⟩
    · exact Op.finish_quiet (modifyFifo_quiet _ _ _ s)
  · exact Op.finish_quiet (enableTef_quiet _ s)
  · exact absurd rfl (hc _)

/-- Every call constructs, releases, begins a `configure()`, or gives one reply and is otherwise quiet. -/
theorem callNext_cases (c : Call) (s : State) :
    (∃ h, c = .new h) ∨ c = .free ∨ (∃ x, c = .configure x) ∨ ∃ u r, Quiet s u ∧ callNext c s = u.reply r := by
  by_cases hn : ∃ h, c = .new h
  · exact .inl hn
  by_cases hf : c = .free
  · exact .inr (.inl hf)
  by_cases hc : ∃ x, c = .configure x
  · exact .inr (.inr (.inl hc))
  · exact .inr (.inr (.inr (callNext_quiet c s (fun h e => hn ⟨h, e⟩) hf fun x e => hc ⟨x, e⟩)))

/-! ### The sequencer and the step -/

/-- A sequencer step returns to the host from a terminal state, or makes one quiet transition. -/
theorem seqNext_cases (run : SeqRun) (s : State) :
    (∃ r, terminalReply run.phase = some r ∧ seqNext run s = { s.reply r with seq := none }) ∨
    (∃ phase u, terminalReply run.phase = none ∧ seqTransition run.settings run.phase s = (phase, u) ∧ Quiet s u ∧
      seqNext run s = { u with seq := some ⟨run.settings, phase⟩ }) := by
  unfold seqNext
  split
  · exact .inl ⟨_, ‹_›, rfl⟩
  · have h := seqTransition_quiet run.settings run.phase s
    revert h
    cases seqTransition run.settings run.phase s with
    | mk phase u => exact fun h => .inr ⟨phase, u, ‹_›, rfl, h, rfl⟩

/-- Everything a step that answers a next state can be. -/
theorem step_cases {s t : State} (h : step s = .next t) :
    (∃ run, s.seq = some run ∧ s.owned = true ∧ t = seqNext run s) ∨
    (s.seq = none ∧ s.requests = [] ∧ t = s) ∨
    (∃ bytes rest i, s.seq = none ∧ s.requests = .frame bytes :: rest ∧ decode s.cfg bytes = .ok i ∧
      exec i { s with requests := rest } = .next t) ∨
    (∃ c rest, s.seq = none ∧ s.requests = .call c :: rest ∧ runCall c { s with requests := rest } = .next t) ∨
    (∃ h rest, s.seq = none ∧ s.requests = .use h :: rest ∧ s.hasController h = true ∧
      t = State.focus h { s with requests := rest }) := by
  unfold step fetch at h
  cases hs : s.seq with
  | some run => simp only [hs, seqStep, withController_next] at h; exact .inl ⟨run, rfl, h⟩
  | none =>
    simp only [hs] at h
    cases hr : s.requests with
    | nil => simp only [hr] at h; cases h; exact .inr (.inl ⟨rfl, rfl, rfl⟩)
    | cons r rest =>
      cases r with
      | frame bytes =>
        simp only [hr, runFrame] at h
        split at h
        · exact .inr (.inr (.inl ⟨bytes, rest, _, rfl, rfl, ‹_›, h⟩))
        · cases h
      | call c => simp only [hr] at h; exact .inr (.inr (.inr (.inl ⟨c, rest, rfl, rfl, h⟩)))
      | use g =>
        simp only [hr, runUse] at h
        split at h
        · cases h; exact .inr (.inr (.inr (.inr ⟨g, rest, rfl, rfl, ‹_›, rfl⟩)))
        · cases h

/-- Everything a step can do to the Controllers: one after it was there before, or has just been constructed, or is the one in use
with whole frames of the five instructions appended to its trace. -/
theorem step_lines {s t : State} (h : step s = .next t) {l : Line} (hl : l ∈ t.lines) :
    l ∈ s.lines ∨ (l.cs = .inactive ∧ l.trace = [.pinSet .inactive]) ∨
    (l.handles = s.handles ∧ ∃ evs, l.trace = s.trace ++ evs ∧ (s.cs = .inactive → l.cs = .inactive ∧ WholeFrames evs) ∧
      ∀ e ∈ evs, e.IsInstruction s.cfg) := by
  have quiet : ∀ (rest : List Request) (u : State), Quiet { s with requests := rest } u → ∀ m ∈ u.lines, m ∈ s.lines ∨
      (m.cs = .inactive ∧ m.trace = [.pinSet .inactive]) ∨
      (m.handles = s.handles ∧ ∃ evs, m.trace = s.trace ++ evs ∧ (s.cs = .inactive → m.cs = .inactive ∧ WholeFrames evs) ∧
        ∀ e ∈ evs, e.IsInstruction s.cfg) := by
    intro rest u hq m hm
    rcases List.mem_cons.1 hm with rfl | hm
    · obtain ⟨evs, ht, hw, hi⟩ := hq.trace
      exact .inr (.inr ⟨hq.host.handles, evs, ht, fun hc => ⟨hq.cs hc, hw hc⟩, hi⟩)
    · rw [hq.host.others] at hm; exact .inl (List.mem_cons_of_mem _ hm)
  rcases step_cases h with ⟨run, hs, ho, rfl⟩ | ⟨_, _, rfl⟩ | ⟨b, rest, i, hs, hr, hd, he⟩ | ⟨c, rest, hs, hr, he⟩ |
    ⟨g, rest, hs, hr, hg, rfl⟩
  · rcases seqNext_cases run s with ⟨r, _, e⟩ | ⟨ph, u, _, _, hq, e⟩ <;> rw [e] at hl
    · exact .inl hl
    · exact quiet s.requests u hq l hl
  · exact .inl hl
  · obtain ⟨u, r, hq, rfl⟩ := exec_quiet he
    exact quiet rest u hq l hl
  · obtain ⟨hc, rfl⟩ := runCall_next he
    rcases callNext_cases c { s with requests := rest } with ⟨g, rfl⟩ | rfl | ⟨x, rfl⟩ | ⟨u, r, hq, e⟩
    · rcases List.mem_cons.1 hl with rfl | hl
      · exact .inr (.inl ⟨rfl, rfl⟩)
      · exact .inl (mem_lines_of_focus_others (s := { s with requests := rest }) hl)
    · rcases List.mem_cons.1 hl with rfl | hl
      · exact .inr (.inr ⟨rfl, [.pinSet .inactive], rfl, fun _ => ⟨rfl, rfl⟩, by simp [Event.IsInstruction]⟩)
      · exact .inl (List.mem_cons_of_mem _ hl)
    · exact .inl hl
    · rw [e] at hl; exact quiet rest u hq l hl
  · rcases List.mem_cons.1 hl with rfl | hl
    · rcases focus_line_mem { s with requests := rest } g with k | ⟨-, k⟩
      · exact .inl k
      · obtain ⟨m, hm, -, he⟩ := hasController_iff.1 hg
        exact absurd he (k m hm)
    · exact .inl (mem_lines_of_focus_others (s := { s with requests := rest }) hl)

/-- A step changes no parameter (R58) and takes no result back; it takes at most the first of the host's requests. -/
theorem step_host {s t : State} (h : step s = .next t) :
    t.cfg = s.cfg ∧ s.replies <+: t.replies ∧ (t.requests = s.requests ∨ s.seq = none ∧ t.requests = s.requests.tail) := by
  rcases step_cases h with ⟨run, hs, ho, rfl⟩ | ⟨_, _, rfl⟩ | ⟨b, rest, i, hs, hr, hd, he⟩ | ⟨c, rest, hs, hr, he⟩ |
    ⟨g, rest, hs, hr, hg, rfl⟩
  · rcases seqNext_cases run s with ⟨r, _, e⟩ | ⟨ph, u, _, _, hq, e⟩ <;> rw [e]
    · exact ⟨rfl, List.prefix_append _ _, .inl rfl⟩
    · exact ⟨hq.host.cfg, hq.host.replies ▸ List.prefix_rfl, .inl hq.host.requests⟩
  · exact ⟨rfl, List.prefix_rfl, .inl rfl⟩
  · obtain ⟨u, r, hq, rfl⟩ := exec_quiet he
    exact ⟨hq.host.cfg, by rw [reply_replies, hq.host.replies]; exact List.prefix_append _ _,
      .inr ⟨hs, by rw [reply_requests, hq.host.requests, hr]; rfl⟩⟩
  · obtain ⟨hc, rfl⟩ := runCall_next he
    rcases callNext_cases c { s with requests := rest } with ⟨g, rfl⟩ | rfl | ⟨x, rfl⟩ | ⟨u, r, hq, e⟩
    · exact ⟨construct_cfg _ _, by
        show s.replies <+: (construct g _).replies ++ _
        rw [construct_replies]; exact List.prefix_append _ _, .inr ⟨hs, by rw [hr]; exact construct_requests _ _⟩⟩
    · exact ⟨rfl, List.prefix_append _ _, .inr ⟨hs, by rw [hr]; rfl⟩⟩
    · exact ⟨rfl, List.prefix_rfl, .inr ⟨hs, by rw [hr]; rfl⟩⟩
    · rw [e]
      exact ⟨hq.host.cfg, by rw [reply_replies, hq.host.replies]; exact List.prefix_append _ _,
        .inr ⟨hs, by rw [reply_requests, hq.host.requests, hr]; rfl⟩⟩
  · exact ⟨focus_cfg _ _, by rw [focus_replies], .inr ⟨hs, by rw [focus_requests, hr]; rfl⟩⟩

end Sys2Proof.Machine
end

