-- ==== Sys2Proof/Tests/Slice0.lean ====
section
/-! SUPPORT. The model's own tests. Every expected value is written out from spec/95_test_vectors.md (the vector is named in the
theorem's docstring) or from the encoding and field tables. Each `witness_` theorem shows a state and operands that meet all
hypotheses of the obligation it names. -/

namespace Sys2Proof.Tests

open Sys2Proof Sys2Proof.Machine

/-! ### Small states -/

/-- The default parameters, with a choice of the two OPEN opcodes (R92). -/
def tp : Params := { Params.default with opReadSfr := 0xA, opWriteSfr := 0xB }

/-- A Controller after construction, with the reference stub connected and holding `m` (R77). -/
def stub (m : Memory) : State := { State.reset with cfg := tp, env := .stub, mem := m }

/-- A Controller whose primitive calls are answered by a script (R28). -/
def scripted (l : List Answer) : State := { State.reset with cfg := tp, script := l }

/-- The default parameters for a chip with register-only opcodes (R102), and Controllers of it. -/
def rp : Params := { tp with sfrOpcodes := .registerOnly }
def regOnly (m : Memory) : State := { stub m with cfg := rp }
def regScripted (l : List Answer) : State := { scripted l with cfg := rp }

/-- The memory of vectors V-TX-3 and W8: C1CON = 0x04980760. -/
def c1conMem : Memory := [(0, 0x60), (1, 0x07), (2, 0x98), (3, 0x04)]

/-- A second Controller, on the handles 1 and 2, beside one in use (R39). -/
def second : Line := { Line.fresh .stub ⟨1, 2⟩ with owned := true, trace := [.pinSet .inactive], mem := [(0x400, 7)] }
def pair : State := { stub c1conMem with others := [second] }

/-- A Controller with the line active: a state outside the invariant. -/
def lineActive : State := { stub [] with cs := .active }

/-- A Controller that `free()` consumed. -/
def released : State := { stub [] with owned := false }

/-- A Controller in use beside one that was released and waits. -/
def waiting : State := { stub c1conMem with others := [{ second with owned := false, script := [.fail 0] }] }

/-- Whether a step answered a next state of which `q` is true. -/
def after (o : Host.Outcome State Fault Refusal) (q : State → Bool) : Bool :=
  match o with
  | .next t => q t
  | .fault _ => false
  | .refused _ => false

def osc0 : OscSettings := ⟨false, false⟩
def io0 : IoSettings := ⟨true, false, false, false, false, false⟩
/-- The Settings of programs P3 and P5. -/
def p3 : Settings := ⟨osc0, io0, ⟨.threeRetries, 1, 0, .bytes8⟩, []⟩
def p5 : Settings := ⟨osc0, io0, ⟨.unlimitedRetries, 31, 8, .bytes64⟩, []⟩

/-! ### WellFormed: each check refuses an ill-formed instruction -/

theorem test_wf_reset_address : Instr.wf tp (.reset 0x001) = false ∧ Instr.wf tp (.reset 0x000) = true := by decide

theorem test_wf_sfr_address :
    Instr.wf { tp with sfrOpcodes := .registerOnly } (.readSfr 0x04C) = false ∧
    Instr.wf { tp with sfrOpcodes := .registerOnly } (.writeSfr 0x002 0) = false ∧
    Instr.wf { tp with sfrOpcodes := .registerOnly } (.readSfr 0xE00) = true ∧
    Instr.wf { tp with sfrOpcodes := .registerOnly } (.writeSfr 0xE04 0) = true := by decide +kernel

theorem test_wf_sfr_opcodes : Instr.wf tp (.readSfr 0xE00) = false ∧ Instr.wf tp (.writeSfr 0xE00 0) = false := by
  decide +kernel

/-- R62: no FIFO register at the reserved 0x04C, none in the object RAM, none at another register's address; and none misaligned. -/
theorem test_wf_sfr_table :
    ¬ { tp with sfrAddr := [(.fifoCon 0, 0x04C)] }.SfrAddrOk ∧ ¬ { tp with sfrAddr := [(.fifoUa 30, 0x400)] }.SfrAddrOk ∧
    ¬ { tp with sfrAddr := [(.fifoSta 7, 0xBFC)] }.SfrAddrOk ∧ ¬ { tp with sfrAddr := [(.fifoSta 7, 0xE00)] }.SfrAddrOk ∧
    ¬ { tp with sfrAddr := [(.crc, 0xE0A)] }.SfrAddrOk :=
  ⟨fun h => h.fifoNotReserved .control 0 rfl, fun h => h.notRam (.fifoUa 30) (by decide), fun h => h.notRam (.fifoSta 7) (by decide),
    fun h => absurd (h.distinct (.fifoSta 7) .osc (by decide)) (by decide), fun h => absurd (h.aligned .crc) (by decide)⟩

/-- Log 38: Sleep's code 9 in the three bits of REQOP is stored as 1, and the bits beside it are kept. -/
theorem test_code_too_wide :
    (setReqop { tp with opmodeCode := [(.sleep, 9)] } ⟨0x08000000⟩ .sleep).bits = 0x09000000 := by decide

theorem test_wf_opcodes_distinct :
    ¬ { tp with opWriteSfr := 0x3 }.OpcodesDistinct ∧ tp.OpcodesDistinct := by decide

theorem test_wf_field_in_word :
    ¬ RegField.InWord { tp with regLayout := [⟨.txQueueControl, .txq_TXPRI, 32, 28⟩] } .txq_TXPRI ∧
    RegField.InWord { tp with regLayout := [⟨.txQueueControl, .txq_TXPRI, 31, 27⟩] } .txq_TXPRI := by decide

theorem test_wf_fields_apart :
    ¬ RegField.Apart { tp with regLayout := [⟨.oscillator, .osc_PLLEN, 2, 2⟩] } .osc_PLLEN .osc_OSCDIS := by decide

theorem test_wf_field_width :
    RegField.width { tp with regLayout := [⟨.chipControl, .chip_DNCNT, 3, 0⟩] } .chip_DNCNT = 4 ∧ RegField.width tp .chip_DNCNT = 5 := by
  decide

theorem test_wf_codes :
    ¬ CodesFit OpMode.all (OpMode.code { tp with opmodeCode := [(.sleep, 0)] }) [3] ∧
    ¬ CodesFit ClockOut.all (ClockOut.code { tp with clkodivCode := [(.div10, 4)] }) [2] := by decide

theorem test_wf_header_fields :
    ¬ HField.InWord { tp with hdrLayout := [⟨.tx, .eid, 0, 15⟩] } (.eid : HField .tx) ∧
    ¬ HField.InWord { tp with hdrLayout := [⟨.tx, .dlc, 2, 0⟩] } (.dlc : HField .tx) ∧
    ¬ HField.Apart { tp with hdrLayout := [⟨.tx, .eid, 0, 10⟩] } (.eid : HField .tx) .sid := by decide

/-! ### Decoding: words written out from R90 to R95 and V-ENC -/

/-- V-ENC-1 and V-ENC-11. -/
theorem test_decode_reset :
    decode tp [0b0000_0000, 0b0000_0000] = .ok (.reset 0x000) ∧ decode tp [0x0A, 0xBC] = .ok (.reset 0xABC) := by decide

/-- V-ENC-3, V-ENC-7, V-CS-4. -/
theorem test_decode_read :
    decode tp [0b0011_1110, 0b0000_0000, 0, 0, 0, 0] = .ok (.read 0xE00 4) ∧
    decode tp [0x3F, 0xFF] = .ok (.read 0xFFF 0) := by decide

/-- V-ENC-4, V-ENC-8, V-BO-6. -/
theorem test_decode_write :
    decode tp [0b0010_0100, 0b0000_0000, 0xDE, 0xAD, 0xBE, 0xEF] = .ok (.write 0x400 [0xDE, 0xAD, 0xBE, 0xEF]) ∧
    decode tp [0x2B, 0xFE] = .ok (.write 0xBFE []) := by decide

/-- R134, R94 with OP_READ_SFR = 0xA. -/
theorem test_decode_readSfr :
    decode tp [0b1010_0001, 0b1100_1000, 1, 2, 3, 4] = .ok (.readSfr 0x1C8) ∧
    decode tp [0xA1, 0xC8, 0, 0, 0] = .error (.payloadLength 3) := by decide

/-- R135, R94 with OP_WRITE_SFR = 0xB; V-BO-7's payload. -/
theorem test_decode_writeSfr :
    decode tp [0b1011_0000, 0b0000_0000, 0xEF, 0xBE, 0xAD, 0xDE] = .ok (.writeSfr 0x000 0xDEADBEEF) ∧
    decode tp [0xB0, 0x00] = .error (.payloadLength 0) := by decide

/-- V-ENC-9, V-ENC-10 under the choice 0xA, 0xC of the OPEN opcodes. -/
theorem test_decode_notEmitted :
    decode tp [0x12, 0x34] = .error (.notEmitted 0x1 0x234) ∧
    decode { tp with opWriteSfr := 0xC } [0xB0, 0x00] = .error (.notEmitted 0xB 0x000) := by decide

/-- V-ENC-1 to V-ENC-8 and V-ENC-12: the encoder. -/
theorem test_encode_words :
    encodeWord 0x0 0x000 = 0x0000 ∧ encodeWord 0x3 0xE00 = 0x3E00 ∧ encodeWord 0x2 0xE04 = 0x2E04 ∧
    encodeWord 0x3 0x1C8 = 0x31C8 ∧ encodeWord 0x3 0xFFF = 0x3FFF ∧ encodeWord? 0x3 0x1000 = none ∧
    encode tp (.write 0x400 [1, 0, 0, 0]) = [0x24, 0x00, 0x01, 0x00, 0x00, 0x00] := by decide

/-- The opcode table's words, with zero payload bytes (log 12). -/
theorem test_decodeTableWord :
    decodeTableWord 16 0x0ABC = some (.reset 0xABC) ∧ decodeTableWord 16 0x3E00 = some (.read 0xE00 4) ∧
    decodeTableWord 16 0x2400 = some (.write 0x400 [0, 0, 0, 0]) := by decide

/-- R100: the text form. -/
theorem test_text :
    Instr.text (.write 0x400 [0, 0, 2, 0]) = "WRITE 0x400, [0x00, 0x00, 0x02, 0x00]" ∧
    Instr.text (.read 0x05C 4) = "READ 0x05C, 4" := by decide +kernel

/-! ### Bytes -/

/-- V-BO-1 to V-BO-5. -/
theorem test_byteOrder :
    le32 0x04980760 = [0x60, 0x07, 0x98, 0x04] ∧ fromLE32 [0x60, 0x07, 0x98, 0x04] = 0x04980760 ∧
    native32 .little (1 <<< 17) = [0x00, 0x00, 0x02, 0x00] ∧ native32 .big (1 <<< 17) = [0x00, 0x02, 0x00, 0x00] := by
  decide

/-! ### Chip-select and the five instructions, one step each -/

/-- V-CS-6, V-CS-7. -/
theorem test_cs :
    (csReady lineActive).trace = [.pinSet .inactive, .pinSet .inactive, .pinSet .active] ∧
    (csReset (stub [])).trace = [.pinSet .inactive, .pinSet .inactive] ∧ pinVolts (stub []) = .high := by decide

/-- V-CS-1, and V-CS-2 with the failure scripted. -/
theorem test_reset :
    after (exec (.reset 0) (stub [])) (fun t => t.replies == [.done (.ok .unit)] &&
      t.trace == [.pinSet .inactive, .pinSet .active, .write [0x00, 0x00] true, .pinSet .inactive]) = true ∧
    after (exec (.reset 0) (scripted [.fail 1])) (fun t => t.replies == [.done (.err .spiWrite)] &&
      t.cs == .inactive) = true := by decide

/-- V-CS-3, V-CS-4. -/
theorem test_read :
    after (exec (.read 0x000 4) (stub c1conMem)) (fun t =>
      t.replies == [.done (.ok (.bytes [0x60, 0x07, 0x98, 0x04]))] &&
      t.trace == [.pinSet .inactive, .pinSet .active,
        .transfer [0x30, 0x00, 0, 0, 0, 0] (some [0, 0, 0x60, 0x07, 0x98, 0x04]), .pinSet .inactive]) = true ∧
    after (exec (.read 0x400 0) (stub [])) (fun t => t.replies == [.done (.ok (.bytes []))]) = true := by decide

/-- V-CS-5, and R59, R77: the address wraps at 0xFFF. -/
theorem test_read_edges :
    after (exec (.read 0x400 4) (scripted [.fail 3])) (fun t => t.replies == [.done (.err .spiRead)]) = true ∧
    after (exec (.read 0xFFF 2) (stub [(0, 0x60), (4095, 0x11)])) (fun t =>
      t.replies == [.done (.ok (.bytes [0x11, 0x60]))]) = true := by decide

/-- V-BO-6, V-CS-8; and R77: a byte equal to what an unlisted address reads as leaves no entry. -/
theorem test_write :
    after (exec (.write 0x400 [0xDE, 0xAD, 0x00, 0xEF]) (stub [(1026, 0x77)])) (fun t =>
      t.mem == [(1024, 0xDE), (1025, 0xAD), (1027, 0xEF)] && t.replies == [.done (.ok .unit)]) = true ∧
    after (exec (.write 0x400 []) (stub [])) (fun t =>
      t.trace == [.pinSet .inactive, .pinSet .active, .write [0x24, 0x00] true, .pinSet .inactive]) = true := by decide

/-- R25, R335: a failed write leaves a prefix: here one payload byte. -/
theorem test_write_prefix :
    after (exec (.write 0x400 [0xDE, 0xAD]) { stub [] with script := [.fail 3] }) (fun t =>
      t.mem == [(1024, 0xDE)] && t.replies == [.done (.err .spiWrite)]) = true := by decide

/-- R134: little-endian; the word is that of V-TX-3. -/
theorem test_readSfr :
    after (exec (.readSfr 0x000) (regOnly c1conMem)) (fun t => t.replies == [.done (.ok (.word 0x04980760))]) = true ∧
    after (exec (.readSfr 0xE00) (regScripted [.fail 0])) (fun t => t.replies == [.done (.err .spiRead)]) = true ∧
    exec (.readSfr 0xE00) (stub []) = .refused .notRegisterOnly := ⟨by decide, by decide, rfl⟩

/-- R135: V-TX-4's bytes, under WRITE_SFR. -/
theorem test_writeSfr :
    after (exec (.writeSfr 0xE00 0x00000461) (regOnly [])) (fun t => t.replies == [.done (.ok .unit)] &&
      t.trace == [.pinSet .inactive, .pinSet .active, .write [0xBE, 0x00, 0x61, 0x04, 0x00, 0x00] true,
        .pinSet .inactive] && t.mem == [(0xE00, 0x61), (0xE01, 0x04)]) = true ∧
    exec (.writeSfr 0xE00 0) released = .refused .controllerReleased := by
  constructor
  · decide
  · rfl

/-- The step runs a frame placed where it fetches, from reset. -/
theorem test_step_withFetchWord :
    after (step ((stub []).withFetchWord 16 0x2400)) (fun t => t.requests == [] && t.replies == [.done (.ok .unit)]) = true ∧
    (∃ t, step (State.reset.withFetchWord 16 0x0000) = .next t) ∧
    (∃ t, step (State.reset.withFetchWord 16 0x3E00) = .next t) ∧
    (∃ t, step (State.reset.withFetchWord 16 0x2400) = .next t) := ⟨by decide, ⟨_, rfl⟩, ⟨_, rfl⟩, ⟨_, rfl⟩⟩

/-! ### Transactions -/

/-- V-TX-1, V-TX-2. -/
theorem test_new_free :
    after (runCall (.new ⟨1, 2⟩) released) (fun t => t.owned && t.trace == [.pinSet .inactive]) = true ∧
    after (runCall .free (stub [])) (fun t => !t.owned && t.replies == [.done (.ok (.handles ⟨0, 0⟩))]) = true := by decide

/-- R160, R39: a second Controller on other handles; the same bus or the same pin is refused; and the host turns back. -/
theorem test_two_controllers :
    after (runCall (.new ⟨1, 2⟩) (stub c1conMem)) (fun t => t.handles == ⟨1, 2⟩ && t.trace == [.pinSet .inactive] && t.mem == [] &&
      t.others == [(stub c1conMem).line]) = true ∧
    runCall (.new ⟨1, 0⟩) (stub []) = .refused .handlesHeld ∧ runCall (.new ⟨0, 2⟩) (stub []) = .refused .handlesHeld ∧
    runCall (.new ⟨3, 2⟩) pair = .refused .handlesHeld ∧
    after (step { pair with requests := [.use ⟨1, 2⟩] }) (fun t => t.line == second && t.others == [(stub c1conMem).line]) = true ∧
    step { stub [] with requests := [.use ⟨1, 2⟩] } = .refused .controllerReleased :=
  ⟨by decide, rfl, rfl, rfl, by decide, rfl⟩

/-- Log 35: a new Controller on the handles of a released one that waits meets its chip. -/
theorem test_new_on_waiting_handles :
    after (runCall (.new ⟨1, 2⟩) waiting) (fun t => t.mem == [(0x400, 7)] && t.script == [.fail 0] &&
      t.others == [(stub c1conMem).line]) = true := by decide

/-- V-TX-3, V-BO-7. -/
theorem test_sfr_access :
    after (runCall (.readSfr .c1con) (stub c1conMem)) (fun t => t.replies == [.done (.ok (.word 0x04980760))]) = true ∧
    after (runCall (.writeSfr .c1con 0xDEADBEEF) (stub [])) (fun t =>
      t.trace == [.pinSet .inactive, .pinSet .active, .write [0x20, 0x00, 0xEF, 0xBE, 0xAD, 0xDE] true,
        .pinSet .inactive]) = true := by decide

/-- V-TX-5, V-TX-7. -/
theorem test_modify :
    after (runCall (.modifySfr .oscillator [.field .osc_PLLEN 1]) (stub [(0xE00, 0x60), (0xE01, 0x04)])) (fun t =>
      t.mem == [(0xE00, 0x61), (0xE01, 0x04)]) = true ∧
    after (runCall (.modifySfr .oscillator [.field .osc_PLLEN 1]) (scripted [.fail 2])) (fun t =>
      t.replies == [.done (.err .spiRead)] && frameCount t.trace == 1) = true := by decide

/-- V-TX-9, V-TX-11 to V-TX-15 and W5, with their alternatives. -/
theorem test_ram_bounds :
    ramOk tp 0x3FF 4 = false ∧ ramOk tp 0x400 0x800 = false ∧ ramOk tp 0x400 0x7FF = true ∧ ramOk tp 0xBFB 4 = true ∧
    ramOk tp 0xBFC 4 = false ∧ ramOk tp 0xBFF 0 = true ∧ ramOk tp 0xC00 0 = false ∧
    ramOk { tp with ramBound := .endInclusiveOfBFF } 0x400 0x800 = true ∧
    ramOk { tp with ramBound := .endInclusiveOfBFF } 0xBFC 4 = true ∧
    ramOk { tp with ramBound := .endInclusiveOfBFF } 0xC00 0 = true := by decide

/-- V-TX-9 and V-TX-14: no event, and the buffer as given; and a frame with no payload. -/
theorem test_read_ram :
    after (runCall (.readRam 0x3FF [1, 2, 3, 4]) (stub [])) (fun t =>
      t.replies == [.readRam (.err (.invalidRamAddress 0x3FF)) [1, 2, 3, 4]] && t.trace == [.pinSet .inactive]) = true ∧
    after (runCall (.readRam 0xBFF []) (stub [])) (fun t =>
      t.trace == [.pinSet .inactive, .pinSet .active, .transfer [0x3B, 0xFF] (some [0, 0]), .pinSet .inactive]) = true := by
  decide

/-- P1: the echo of bit 17. -/
theorem test_write_ram :
    after (runCall (.writeRam 0x400 [0, 0, 2, 0]) (stub [])) (fun t => t.mem == [(1026, 2)]) = true ∧
    after (runCall (.writeRam 0x3FE [1, 2]) (stub [])) (fun t => t.replies == [.done (.err (.invalidRamAddress 0x3FE))]) =
      true := by decide

/-- The table of lookup addresses of V-TX, with both ends of the range. -/
theorem test_fifo_addresses :
    fifoRegAddress tp .control 0 = .err (.invalidFifo 0) ∧ fifoRegAddress tp .control 1 = .ok 0x05C ∧
    fifoRegAddress tp .status 1 = .ok 0x060 ∧ fifoRegAddress tp .userAddress 1 = .ok 0x064 ∧
    fifoRegAddress tp .userAddress 16 = .ok 0x118 ∧ fifoRegAddress tp .control 31 = .ok 0x1C4 ∧
    fifoRegAddress tp .status 31 = .ok 0x1C8 ∧ fifoRegAddress tp .userAddress 31 = .ok 0x1CC ∧
    fifoRegAddress tp .status 32 = .err (.invalidFifo 32) := by decide

/-- V-TX-17, V-TX-18. -/
theorem test_read_fifo :
    after (runCall (.readFifo .control 0) (stub [])) (fun t => t.replies == [.done (.err (.invalidFifo 0))] &&
      t.trace == [.pinSet .inactive]) = true ∧
    after (runCall (.readFifo .control 1) (stub [(0x05D, 0x04), (0x05E, 0x60)])) (fun t =>
      t.replies == [.done (.ok (.reg .fifoControl ⟨0x00600400⟩))]) = true := by decide

/-- P2. -/
theorem test_modify_fifo :
    after (runCall (.modifyFifo .control 32 [.field .fifo_TXEN 1]) (stub [])) (fun t =>
      t.replies == [.done (.err (.invalidFifo 32))]) = true ∧
    after (runCall (.modifyFifo .control 3 [.fifoFifoSize 4, .fifoPlsize .bytes16, .field .fifo_TXEN 1])
      (stub [(0x075, 0x04), (0x076, 0x60)])) (fun t =>
        t.mem == [(0x074, 0x80), (0x075, 0x04), (0x076, 0x60), (0x077, 0x43)]) = true := by decide

/-- V-TX-24. -/
theorem test_enable_tef :
    after (runCall (.enableTef 5) (stub [(0x043, 0x0A)])) (fun t => t.mem == [(0x002, 0x08), (0x043, 0x0F)]) = true := by
  decide

/-! ### Register fields -/

/-- V-FLD-1: the getters of C1CON. -/
theorem test_fld_getters :
    let t : RegWord .chipControl := ⟨0x04980760⟩
    getTxbws tp t = .noDelay ∧ getReqop tp t = .mode .configuration ∧ getOpmod tp t = .mode .configuration ∧
    RegField.get tp .chip_TXQEN t = 1 ∧ RegField.get tp .chip_STEF t = 1 ∧ RegField.get tp .chip_RTXAT t = 0 ∧
    getWft tp t = .t11Filter ∧ RegField.get tp .chip_WAKFIL t = 1 ∧ RegField.get tp .chip_ISOCRCEN t = 1 ∧
    RegField.get tp .chip_DNCNT t = 0 := by decide

/-- V-FLD-4, V-FLD-8, V-FLD-11, W3: the fallbacks. -/
theorem test_fld_fallbacks :
    getOpmod { tp with opmodeMapped := [0, 1, 2, 3, 4, 5, 6] } ⟨0x00E00000⟩ = .unknown ∧
    getOpmod tp ⟨0x00E00000⟩ = .mode .restricted ∧ getTxbws tp ⟨0xF0000000⟩ = .delay4096 ∧
    getTxqTxat tp ⟨0x00600000⟩ = .unlimitedRetries ∧
    getTxqPlsize { tp with plsizeMapped := [0, 1, 2, 3, 4, 5, 6] } ⟨0xE0000000⟩ = .bytes8 := by decide

/-- V-FLD-5 to V-FLD-7, V-FLD-10, V-FLD-12, V-FLD-15. -/
theorem test_fld_setters :
    setReqop tp ⟨0⟩ .configuration = ⟨0x04000000⟩ ∧ setReqop tp ⟨0x04980760⟩ .normalFD = ⟨0x00980760⟩ ∧
    setTxbws tp ⟨0⟩ .delay4096 = ⟨0xC0000000⟩ ∧ setWft tp ⟨0x00000760⟩ .t01Filter = ⟨0x00000360⟩ ∧
    setTxqTxat tp ⟨0x00600000⟩ .unlimitedRetries = ⟨0x00400000⟩ ∧ setTxqPlsize tp ⟨0⟩ .bytes64 = ⟨0xE0000000⟩ := by decide

/-- V-FLD-16 to V-FLD-20, W4. -/
theorem test_fld_fifo_size :
    setTxqFifoSize tp ⟨0⟩ 0 = .err (.invalidFifoSize 0) ∧ setTxqFifoSize tp ⟨0⟩ 33 = .ok ⟨0x1F000000⟩ ∧
    txqFifoSize tp ⟨0x1F000000⟩ = 32 ∧ setFifoSize tp ⟨0xFFFFFFFF⟩ 1 = .ok ⟨0xE0FFFFFF⟩ ∧
    setFifoSize tp ⟨0⟩ 17 = .ok ⟨0x10000000⟩ ∧ fifoSize tp ⟨0⟩ = 1 := by decide

/-- V-FLD-23 to V-FLD-25, V-FLD-27, V-FLD-28. -/
theorem test_fld_words :
    txqTransform tp ⟨.unlimitedRetries, 31, 8, .bytes64⟩ ⟨0⟩ = ⟨0x005F0000⟩ ∧
    txqSizeTransform tp ⟨.unlimitedRetries, 31, 8, .bytes64⟩ ⟨0x005F0000⟩ = ⟨0xE75F0000⟩ ∧
    oscTransform tp ⟨true, false⟩ ⟨0x00000460⟩ = ⟨0x00000461⟩ ∧
    oscTransform tp ⟨false, true⟩ ⟨0x00000464⟩ = ⟨0x00000470⟩ ∧ getClkodiv tp ⟨0x00000460⟩ = .div10 ∧
    ioWord tp ⟨true, false, true, false, true, true⟩ = ⟨0x43000040⟩ := by decide

/-- R9, R14 (93 G16, G23): a REG_LAYOUT with another width, and other code tables. -/
theorem test_fld_layout :
    let p : Params := { tp with regLayout := [⟨.chipControl, .chip_DNCNT, 3, 0⟩], clkodivCode := [(.div10, 2), (.div4, 3)] }
    (RegField.get p .chip_DNCNT ⟨0x1F⟩).toNat = 15 ∧ getClkodiv p ⟨0x40⟩ = .div10 ∧ setClkodiv p ⟨0⟩ .div4 = ⟨0x60⟩ ∧
    runCall (.modifySfr .chipControl [.field .chip_DNCNT 16]) { stub [] with cfg := p } = .refused .notSettable :=
  ⟨by decide, by decide, by decide, rfl⟩

/-- R310, R223: under a smaller PLSIZE_MAPPED an unused queue's payload is never set; a used one's is. -/
theorem test_configure_settable :
    let p : Params := { tp with plsizeMapped := [0] }
    Call.settable p (.configure ⟨osc0, io0, ⟨.disabled, 0, 0, .bytes64⟩, []⟩) = true ∧
    Call.settable p (.configure ⟨osc0, io0, ⟨.disabled, 0, 1, .bytes64⟩, []⟩) = false ∧
    Call.settable { tp with opmodeMapped := [0] } (.configure p3) = true := by decide

/-! ### Message headers -/

/-- V-HDR-2 to V-HDR-4. -/
theorem test_hdr_tx :
    let h2 := setExtendedId tp (Header.new .tx) 0x12345678
    let h3 := HField.set tp .seq (setFdf tp (setBrs tp (HField.set tp .dlc h2 (15 : BitVec 4)) true) true) (0x55 : BitVec 7)
    let h4 := setStandardId tp h3 0x7FF
    h2.bytes = [0x8D, 0xC4, 0xB3, 0x02, 0x10, 0, 0, 0] ∧ h3.bytes = [0x8D, 0xC4, 0xB3, 0x02, 0xDF, 0xAA, 0, 0] ∧
    Header.id tp h3 = 0x12345678 ∧ h4.word 0 = 0x000007FF ∧ h4.word 1 = 0x0000AACF ∧ Header.id tp h4 = 0x7FF := by decide

/-- V-HDR-5, V-HDR-6. -/
theorem test_hdr_rx :
    let h5 : RxHeader := ⟨[0x23, 0x01, 0, 0, 0x02, 0x18, 0, 0, 0xEF, 0xBE, 0xAD, 0xDE], rfl⟩
    let h6 : RxHeader := ⟨[0xFF, 0xFF, 0xFF, 0xFF, 0x10, 0, 0, 0, 0, 0, 0, 0], rfl⟩
    Header.id tp h5 = 0x123 ∧ HField.get tp .dlc h5 = (2 : BitVec 4) ∧ HField.get tp .filhit h5 = (3 : BitVec 5) ∧
    timestamp h5 = 0xDEADBEEF ∧ getRtr tp h5 = false ∧ Header.id tp h6 = 0x1FFFFFFF ∧
    (Header.from? .rx [0]).isNone = true := by decide

/-- R267, 93 G29: a header layout that holds DLC in word 0 and EID in word 1; R266: no row moves the timestamp. -/
theorem test_hdr_layout :
    let p : Params := { tp with hdrLayout := [⟨.tx, .dlc, 0, 28⟩, ⟨.tx, .eid, 1, 9⟩, ⟨.rx, .timestamp, 1, 0⟩] }
    (HField.set p .dlc (Header.new .tx) (9 : BitVec 4)).word 0 = 0x90000000 ∧
    (setExtendedId p (Header.new .tx) 0x12345678).word 1 = 0x00ACF010 ∧
    HField.get p .timestamp (⟨[0, 0, 0, 0, 0, 0, 0, 0, 0xEF, 0xBE, 0xAD, 0xDE], rfl⟩ : RxHeader) = (0xDEADBEEF : Word) := by decide

/-- V-DLC. -/
theorem test_dlc :
    dlcToLen 9 = 12 ∧ dlcToLen 15 = 64 ∧ lenToDlc 9 = none ∧ lenToDlc 12 = some 9 ∧ lenToDlc 64 = some 15 ∧
    lenToDlc 65 = none := by decide

/-! ### The sequencer, one transition each -/

/-- P4 and W6: the request, and the last poll. -/
theorem test_seq_config_mode :
    (requestConfigMode (stub [])).1 = .awaitingConfigMode 1 ∧ (requestConfigMode (stub [])).2.mem = [(0x003, 0x04)] ∧
    (pollConfigMode 5 (stub [])).1 = .failed .configurationModeTimeout ∧
    (pollConfigMode 4 (stub [])).2.trace.getLast? = some (.delay 500) ∧
    (pollConfigMode 5 (stub [])).2.trace.getLast? = some (.pinSet .inactive) := by decide

/-- W7: a corrupted echo of bit 17; and bit 31 goes on to the oscillator. -/
theorem test_seq_echo :
    (verifyBit 17 (scripted [.ok [], .ok [0, 0, 0, 0, 0, 0]])).1 = .failed .spiFailedRamEcho ∧
    (verifyBit 17 (scripted [.ok [], .ok [0, 0, 0, 0, 2, 0]])).1 = .verifyingComms 18 ∧
    (verifyBit 31 (stub [])).1 = .programmingOscillator := by decide

/-- P3, rows 68 to 70; V-ERR-5. -/
theorem test_seq_oscillator_io :
    (programOscillator osc0 (stub [(0xE00, 0x60), (0xE01, 0x04)])).1 = .programmingIo ∧
    (programOscillator ⟨true, false⟩ (stub [])).1 = .awaitingPll 1 ∧ (pollPll 3 (stub [])).1 = .failed .pllNotReady ∧
    (programIo io0 (stub [])).2.mem = [(0xE04, 0x40)] := by decide

/-- P3, rows 71 to 74 (W8): C1TXQCON 0x00400400 and C1CON 0x04980760. -/
theorem test_seq_txq_zero :
    (programTxQueue p3.txq (stub (c1conMem ++ [(0x051, 0x04), (0x052, 0x40)]))).2.mem =
      [(0, 0x60), (1, 0x07), (2, 0x88), (3, 0x04), (0x051, 0x04), (0x052, 0x21)] := by decide

/-- P5, rows a to e: five frames, and no write of C1CON. -/
theorem test_seq_txq_sized :
    (programTxQueue p5.txq (stub (c1conMem ++ [(0x051, 0x04), (0x052, 0x40)]))).2.mem =
      c1conMem ++ [(0x051, 0x04), (0x052, 0x5F), (0x053, 0xE7)] ∧
    frameCount (programTxQueue p5.txq (stub (c1conMem ++ [(0x051, 0x04), (0x052, 0x40)]))).2.trace = 5 := by decide

/-- R310: with TEF_RECONCILE_BIT = some b, bit b is the negation of "in use", and is set after TXQEN. -/
theorem test_seq_reconcile_tef :
    reconcileWord { tp with tefReconcileBit := some 19 } false ⟨0x04900760⟩ = ⟨0x04880760⟩ ∧
    reconcileWord { tp with tefReconcileBit := some 19 } true ⟨0x04980760⟩ = ⟨0x04900760⟩ ∧
    reconcileWord { tp with tefReconcileBit := some 20 } true ⟨0x04980760⟩ = ⟨0x04880760⟩ := by decide

/-! ### Witnesses: the hypotheses of every obligation that has some -/

theorem witness_ConstructionOwnsTheHandles :
    (∃ l ∈ pair.lines, l.owned = true ∧ (l.handles.bus = 1 ∨ l.handles.pin = 9)) ∧
    (∃ l ∈ pair.lines, l.owned = true ∧ (l.handles.bus = 9 ∨ l.handles.pin = 2)) ∧
    (∀ l ∈ pair.lines, l.owned = true → l.handles.bus ≠ 3 ∧ l.handles.pin ≠ 4) ∧
    (∀ l ∈ released.lines, l.owned = true → l.handles.bus ≠ 0 ∧ l.handles.pin ≠ 0) ∧ (⟨0, 0⟩ : Handles) = released.handles ∧
    (∀ l ∈ waiting.lines, l.owned = true → l.handles.bus ≠ 1 ∧ l.handles.pin ≠ 2) ∧
    (waiting.lines.Pairwise fun (l m : Line) => l.handles ≠ m.handles) ∧ ∃ l ∈ waiting.lines, l.handles = ⟨1, 2⟩ := by
  decide

theorem witness_ReleaseEndsTheController :
    (stub []).owned = true ∧ released.owned = false ∧ (∀ h, Call.resetChip ≠ .new h) ∧ (∀ k n, Call.resetChip ≠ .fifoAddress k n) ∧
    runCall .resetChip released = .refused .controllerReleased := ⟨rfl, rfl, by simp, by simp, rfl⟩

theorem witness_ChipSelectEdges : lineActive.cs = .active ∧ (stub []).cs = .inactive := ⟨rfl, rfl⟩

theorem witness_DecodeInvertsEncode : tp.OpcodesDistinct ∧ decode tp (encode tp (.writeSfr 0xFFF 0xDEADBEEF)) =
    .ok (.writeSfr 0xFFF 0xDEADBEEF) := by decide

theorem witness_EncodeInvertsDecode :
    decode tp [0x0A, 0xBC] = .ok (.reset 0xABC) ∧ decode tp [0x3F, 0xFF, 7] = .ok (.read 0xFFF 1) ∧
    decode tp [0x2B, 0xFE, 7] = .ok (.write 0xBFE [7]) ∧ decode tp [0xA0, 0x00, 1, 2, 3, 4] = .ok (.readSfr 0) ∧
    decode tp [0xB0, 0x00, 1, 2, 3, 4] = .ok (.writeSfr 0 0x04030201) := by decide

theorem witness_EncodeWordIsInjective : encodeWord 0x3 0xE00 = encodeWord 0x3 0xE00 := rfl

theorem witness_DecodeRejectsByName :
    tp.OpcodesDistinct ∧ decode tp [0x12, 0x34] = .error (.notEmitted 0x1 0x234) ∧
    decode tp [0x00, 0x00, 9] = .error (.payloadLength 1) ∧ decode tp [0xA0, 0x00] = .error (.payloadLength 0) ∧
    decode tp [0xB0, 0x00, 1, 2, 3, 4, 5] = .error (.payloadLength 5) := by decide

theorem witness_OutOfRangeOperandsAreRefused :
    let p : Params := { tp with opmodeMapped := [0], plsizeMapped := [0] }
    encodeWord? 15 0xFFF = some 0xFFFF ∧ encodeWord? 16 0 = none ∧ encodeWord? 0 0x1000 = none ∧ (stub []).owned = true ∧
    (∃ u ∈ [Update.field .chip_ABAT 1, .field .chip_TXBWS 16], Update.settable (stub []).cfg u = false) ∧
    (∃ u ∈ [Update.fifoFifoSize 0, .field .fifo_FSIZE 32], Update.settable (stub []).cfg u = false) ∧
    Update.settable p (.reqop .sleep) = false ∧ Update.settable p (.opmod .sleep) = false ∧
    Update.settable p (.txqPlsize .bytes12) = false ∧ Update.settable p (.fifoPlsize .bytes64) = false := by decide

theorem witness_ByteOrders : ([1, 2, 3, 4] : List Byte).length = 4 ∧ (0 : Nat) < 4 ∧ (3 : Nat) < 4 := by decide

theorem witness_ReadReturnsThePayload : (stub []).owned = true ∧ lineActive.owned = true ∧
    (envAnswer (csReady (scripted [.fail 0])) [0x30, 0x00]).bytesIn = none := ⟨rfl, rfl, rfl⟩
theorem witness_ReadSfrReturnsTheWord :
    (regOnly []).owned = true ∧ (regScripted [.fail 0]).owned = true ∧ (regOnly []).cfg.sfrOpcodes = .registerOnly ∧
    (stub []).owned = true ∧ (stub []).cfg.sfrOpcodes = .combined := ⟨rfl, rfl, rfl, rfl, rfl⟩
theorem witness_WriteSendsThePayload : (stub []).owned = true ∧ lineActive.owned = true := ⟨rfl, rfl⟩
theorem witness_WriteSfrSendsTheValue :
    (regOnly []).owned = true ∧ (regScripted [.fail 0]).owned = true ∧ (regOnly []).cfg.sfrOpcodes = .registerOnly ∧
    (stub []).owned = true ∧ (stub []).cfg.sfrOpcodes = .combined := ⟨rfl, rfl, rfl, rfl, rfl⟩
theorem witness_ResetSendsTheWordAlone : (stub []).owned = true ∧ (scripted [.fail 0]).owned = true := ⟨rfl, rfl⟩

theorem witness_InstructionsLeaveTheRestUnchanged :
    (∃ t, exec (.reset 0) State.reset = .next t) ∧ (∃ t, exec (.read 0xFFF 1) State.reset = .next t) ∧
    (∃ t, exec (.write 0xFFF [1]) State.reset = .next t) ∧ (∃ t, exec (.readSfr 0xE00) (regOnly []) = .next t) ∧
    (∃ t, exec (.writeSfr 0xE00 1) (regOnly []) = .next t) ∧ State.reset.env = .any :=
  ⟨⟨_, rfl⟩, ⟨_, rfl⟩, ⟨_, rfl⟩, ⟨_, rfl⟩, ⟨_, rfl⟩, rfl⟩

theorem witness_LoadsAndResetKeepEveryByte :
    (stub c1conMem).cfg.OpcodesDistinct ∧ (∃ t, exec (.reset 0) (stub c1conMem) = .next t) ∧
    (∃ t, exec (.read 0xFFF 2) (stub c1conMem) = .next t) ∧ (regOnly c1conMem).cfg.OpcodesDistinct ∧
    (∃ t, exec (.readSfr 0) (regOnly c1conMem) = .next t) :=
  ⟨by decide, ⟨_, rfl⟩, ⟨_, rfl⟩, by decide, ⟨_, rfl⟩⟩

theorem witness_StoresKeepEveryOtherByte :
    Memory.wf (stub c1conMem).mem ∧ (∃ t, exec (.write 0xFFF [1, 2]) (stub c1conMem) = .next t) ∧
    (∃ t, exec (.writeSfr 0xE00 1) (regOnly c1conMem) = .next t) ∧
    (∀ k, k < 2 → 2 ≠ ((0xFFF : Addr).toNat + k) % 4096) := by
  refine ⟨by decide, ⟨_, rfl⟩, ⟨_, rfl⟩, by decide⟩

theorem witness_StubStoresThePayload :
    (stub c1conMem).owned = true ∧ (stub c1conMem).env = .stub ∧ (stub c1conMem).script = [] ∧
    Memory.wf (stub c1conMem).mem ∧ (List.replicate 4096 (1 : Byte)).length ≤ 4096 ∧ (regOnly c1conMem).owned = true ∧
    (regOnly c1conMem).env = .stub ∧ (regOnly c1conMem).script = [] ∧ Memory.wf (regOnly c1conMem).mem ∧
    (regOnly c1conMem).cfg.sfrOpcodes = .registerOnly :=
  ⟨rfl, rfl, rfl, by decide, by rw [List.length_replicate], rfl, rfl, rfl, by decide, rfl⟩

theorem witness_StubReturnsItsBytes :
    (stub c1conMem).owned = true ∧ (stub c1conMem).env = .stub ∧ (stub c1conMem).script = [] ∧
    (stub c1conMem).cfg.OpcodesDistinct ∧ (regOnly c1conMem).owned = true ∧ (regOnly c1conMem).env = .stub ∧
    (regOnly c1conMem).script = [] ∧ (regOnly c1conMem).cfg.OpcodesDistinct ∧ (regOnly c1conMem).cfg.sfrOpcodes = .registerOnly :=
  ⟨rfl, rfl, rfl, by decide, rfl, rfl, rfl, by decide, rfl⟩

theorem witness_FailedWriteLeavesAPrefix :
    let s : State := { stub c1conMem with script := [.fail 3] }
    s.owned = true ∧ s.env = .stub ∧ s.script = .fail 3 :: [] ∧ Memory.wf s.mem ∧ ([1, 2] : List Byte).length ≤ 4096 ∧
    (0 : Nat) + 2 < 3 := ⟨rfl, rfl, rfl, by decide, by decide, by decide⟩

theorem witness_ScriptedAnswersDecideTheOutcome :
    (regScripted [.ok [0, 0, 1, 2, 3, 4]]).owned = true ∧
    (regScripted [.ok [0, 0, 1, 2, 3, 4]]).script = .ok [0, 0, 1, 2, 3, 4] :: [] ∧
    ([0, 0, 1, 2, 3, 4] : List Byte).length = 4 + 2 ∧ (regScripted [.ok [0, 0, 1, 2, 3, 4]]).cfg.sfrOpcodes = .registerOnly ∧
    (regScripted [.fail 0]).owned = true ∧ (regScripted [.fail 0]).script = .fail 0 :: [] ∧
    (regScripted [.fail 0]).cfg.sfrOpcodes = .registerOnly := ⟨rfl, rfl, rfl, rfl, rfl, rfl, rfl⟩

theorem witness_StepRunsTheDecodedInstruction :
    let s : State := { stub [] with requests := [.frame [0x24, 0x00, 7]] }
    s.seq = none ∧ s.requests = .frame [0x24, 0x00, 7] :: [] ∧ decode s.cfg [0x24, 0x00, 7] = .ok (.write 0x400 [7]) ∧
    decode (stub []).cfg (tableFrame (stub []).cfg 16 0x3FFF) = .ok (.read 0xFFF 4) := by
  refine ⟨rfl, rfl, by decide, by decide⟩

theorem witness_StepServesTheHost :
    let s : State := { stub [] with requests := [.frame [0x12, 0x34]] }
    s.seq = none ∧ s.requests = .frame [0x12, 0x34] :: [] ∧ decode s.cfg [0x12, 0x34] = .error (.notEmitted 0x1 0x234) ∧
    (stub []).requests = [] ∧ { stub [] with requests := [.call .free] }.requests = .call .free :: [] ∧
    { stub [] with seq := some ⟨p3, .unconfigured⟩ }.seq = some ⟨p3, .unconfigured⟩ ∧ (stub []).owned = true ∧
    SeqPhase.terminal .programmingTxQueue = false ∧
    seqTransition p3 .unconfigured (stub []) = (.requestingConfigMode, stub []) ∧
    { stub [] with seq := some ⟨p3, .configured⟩ }.seq = some ⟨p3, .configured⟩ ∧
    { stub [] with seq := some ⟨p3, .failed .pllNotReady⟩ }.seq = some ⟨p3, .failed .pllNotReady⟩ ∧
    { released with seq := some ⟨p3, .unconfigured⟩ }.owned = false ∧
    { pair with requests := [.use ⟨1, 2⟩] }.requests = .use ⟨1, 2⟩ :: [] ∧
    (∃ l ∈ pair.lines, l.owned = true ∧ l.handles = ⟨1, 2⟩) ∧ ∀ l ∈ pair.lines, l.owned = true → l.handles ≠ ⟨1, 0⟩ :=
  ⟨rfl, rfl, by decide, rfl, rfl, rfl, rfl, rfl, rfl, rfl, rfl, rfl, rfl, by decide, by decide⟩

theorem line_idle {l : Line} (h : l.cs = .inactive ∧ l.wire = [] ∧ Memory.wf l.mem) : l.Idle := ⟨h.1, h.2.1, h.2.2⟩

theorem pair_idle : ∀ l ∈ pair.lines, l.cs = .inactive ∧ l.wire = [] ∧ Memory.wf l.mem := by decide

theorem pair_inv (seq : Option SeqRun) : State.Inv { pair with seq := seq } := by
  refine ⟨fun l hl => line_idle (pair_idle l hl), ?_, ?_, fun _ => rfl⟩
  · show pair.lines.Pairwise fun (l m : Line) => l.handles ≠ m.handles
    decide
  · show pair.lines.Pairwise Line.Exclusive
    decide

theorem witness_StepKeepsTheInvariant :
    State.Inv { pair with seq := some ⟨p3, .verifyingComms 31⟩ } ∧
    ∃ t, step { pair with seq := some ⟨p3, .verifyingComms 31⟩ } = .next t := ⟨pair_inv _, _, rfl⟩

theorem witness_StepKeepsWholeFrames :
    (∀ l ∈ { pair with requests := [.frame [0x24, 0x00]] }.lines, l.cs = .inactive ∧ WholeFrames l.trace) ∧
    ∃ t, step { pair with requests := [.frame [0x24, 0x00]] } = .next t := ⟨by decide, _, rfl⟩

theorem pair_traces (P : Event → Prop) (h : P (.pinSet .inactive)) : ∀ l ∈ pair.lines, ∀ e ∈ l.trace, P e := by
  simp [pair, State.lines, State.line, second, stub, State.reset, Line.fresh, h]

theorem witness_StepEmitsOnlyInstructions :
    (∀ l ∈ { pair with requests := [.frame [0x24, 0x00]] }.lines, ∀ e ∈ l.trace, e.IsInstruction pair.cfg) ∧
    ∃ t, step { pair with requests := [.frame [0x24, 0x00]] } = .next t := ⟨pair_traces _ trivial, _, rfl⟩

theorem witness_ControllerReachesOnlySfrsAndRam :
    State.ControllerOnly { pair with requests := [.call (.writeRam 0x400 [1])] } ∧
    (∃ t, step { pair with requests := [.call (.writeRam 0x400 [1])] } = .next t) ∧
    State.ControllerOnly { pair with seq := some ⟨p3, .verifyingComms 0⟩ } ∧
    ∃ t, step { pair with seq := some ⟨p3, .verifyingComms 0⟩ } = .next t :=
  ⟨⟨by simp, pair_traces _ trivial⟩, ⟨_, rfl⟩, ⟨by simp [pair, stub, State.reset], pair_traces _ trivial⟩, _, rfl⟩

theorem witness_StepOnlyAppends :
    ({ pair with requests := [.use ⟨1, 2⟩] }.lines.Pairwise fun (l m : Line) => l.handles ≠ m.handles) ∧
    (∃ t, step { pair with requests := [.use ⟨1, 2⟩] } = .next t) ∧ second ∈ { pair with requests := [.use ⟨1, 2⟩] }.lines ∧
    (∀ rest, { pair with requests := [.use ⟨1, 2⟩] }.requests ≠ .call (.new second.handles) :: rest) :=
  ⟨by decide, ⟨_, rfl⟩, by decide, (fun _ e => nomatch e)⟩

theorem witness_ControllersAreIndependent :
    (∃ t, step { pair with requests := [.frame [0x24, 0x00]] } = .next t) ∧
    (∀ h rest, { pair with requests := [.frame [0x24, 0x00]] }.requests ≠ .use h :: rest) ∧
    (∀ h rest, { pair with requests := [.frame [0x24, 0x00]] }.requests ≠ .call (.new h) :: rest) ∧
    (∃ t, step { pair with seq := some ⟨p3, .unconfigured⟩ } = .next t) ∧
    (pair.lines.Pairwise fun (l m : Line) => l.handles ≠ m.handles) ∧ (∃ t, step { pair with requests := [.use ⟨1, 2⟩] } = .next t) ∧
    (∃ t, step { pair with requests := [.call (.new ⟨3, 4⟩)] } = .next t) ∧ ∀ l ∈ pair.lines, l.handles ≠ ⟨3, 4⟩ :=
  ⟨⟨_, rfl⟩, (fun _ _ e => nomatch e), (fun _ _ e => nomatch e), ⟨_, rfl⟩, by decide, ⟨_, rfl⟩, ⟨_, rfl⟩, by decide⟩

theorem witness_RamBoundsComeBeforeTheBus :
    tp.ramBound = .endInclusiveOfBFE ∧ { tp with ramBound := .endInclusiveOfBFF }.ramBound = .endInclusiveOfBFF ∧
    (stub []).owned = true ∧ ramOk (stub []).cfg 0x3FF ([] : List Byte).length = false ∧
    ramOk (stub []).cfg 0xC00 ([] : List Byte).length = false := by decide

theorem witness_RamAccessesSendTheirBytes :
    (stub []).owned = true ∧ ramOk (stub []).cfg 0x400 ([1, 2, 3, 4] : List Byte).length = true ∧
    ramOk (stub []).cfg 0xBFF ([] : List Byte).length = true := by decide

theorem witness_SfrAccessesUseTheSelectedOpcodes :
    (stub []).owned = true ∧ { stub [] with cfg := { tp with sfrOpcodes := .registerOnly } }.owned = true := ⟨rfl, rfl⟩

theorem witness_ModifyWritesTheTransformOfWhatItRead :
    (stub []).owned = true ∧ (scripted [.fail 0]).owned = true ∧
    ([.txqTxat .threeRetries, .txqFifoSize 33, .field .txq_TXPRI 31] : List (Update .txQueueControl)).all (Update.settable tp) = true ∧
    checkUpdates tp ([.txqTxat .threeRetries, .txqFifoSize 33, .field .txq_TXPRI 31] : List (Update .txQueueControl)) = none ∧
    ([.txqFifoSize 0] : List (Update .txQueueControl)).all (Update.settable tp) = true ∧
    checkUpdates tp ([.txqFifoSize 0] : List (Update .txQueueControl)) = some (.invalidFifoSize 0) ∧
    checkUpdates tp ([] : List (Update .oscillator)) = none := by decide

theorem witness_FifoModifyChecksTheIndexFirst :
    ((0 : Nat) = 0 ∨ 31 < 0) ∧ ((32 : Nat) = 0 ∨ 31 < 32) ∧ (1 : Nat) = (0 : Fin 31).val + 1 ∧
    (31 : Nat) = (30 : Fin 31).val + 1 ∧ (stub []).owned = true ∧
    ([.fifoFifoSize 1, .fifoPlsize .bytes64] : List (Update .fifoControl)).all (Update.settable tp) = true ∧
    checkUpdates tp ([.fifoFifoSize 1, .fifoPlsize .bytes64] : List (Update .fifoControl)) = none ∧
    ([.fifoFifoSize 0] : List (Update .fifoControl)).all (Update.settable tp) = true ∧
    checkUpdates tp ([.fifoFifoSize 0] : List (Update .fifoControl)) = some (.invalidFifoSize 0) := by decide

theorem witness_FifoReadChecksTheIndexFirst :
    (stub []).owned = true ∧ ((0 : Nat) = 0 ∨ 31 < 0) ∧ ((32 : Nat) = 0 ∨ 31 < 32) ∧ (1 : Nat) = (0 : Fin 31).val + 1 ∧
    (31 : Nat) = (30 : Fin 31).val + 1 := by decide

theorem witness_FifoLookupsFollowTheFormula :
    tp.sfrAddr = [] ∧ (1 : Nat) ≤ 1 ∧ (31 : Nat) ≤ 31 ∧ ((0 : Nat) = 0 ∨ 31 < 0) ∧ ((32 : Nat) = 0 ∨ 31 < 32) ∧
    (1 : Nat) = (0 : Fin 31).val + 1 ∧ (31 : Nat) = (30 : Fin 31).val + 1 := by decide

/-- A changed SFR_ADDR that keeps R62: OSC and the first FIFO's control register change places. -/
def swapped : Params := { tp with sfrAddr := [(.osc, 0x05C), (.fifoCon 0, 0xE00)] }

theorem witness_FifoLookupsAreDistinct :
    tp.sfrAddr = [] ∧ tp.SfrAddrOk ∧ swapped.SfrAddrOk ∧ fifoRegAddress tp .userAddress 31 = .ok 0x1CC ∧
    fifoRegAddress swapped .control 1 = .ok 0xE00 ∧ (∀ (k : FifoReg) (i : Fin 31), Sfr.c1fltcon 0 ≠ k.sfr i) := by
  refine ⟨rfl, Params.sfrAddrOk_of_all ?_ ?_, Params.sfrAddrOk_of_all ?_ ?_, by decide, by decide, fun k i => ?_⟩
  case refine_5 => cases k <;> simp [FifoReg.sfr]
  all_goals decide +kernel

theorem witness_EnableTefSetsStefAndOrsTheCount :
    let s := scripted [.ok (0 :: 0 :: le32 0), .ok [], .ok (0 :: 0 :: le32 0x0A000000), .ok []]
    s.owned = true ∧ s.cs = .inactive ∧ s.cfg.regLayout = [] ∧
    s.script = .ok (0 :: 0 :: le32 0) :: .ok [] :: .ok (0 :: 0 :: le32 0x0A000000) :: .ok [] :: [] ∧
    (scripted [.fail 0]).script = .fail 0 :: [] ∧
    (scripted [.ok (0 :: 0 :: le32 0), .fail 2]).script = .ok (0 :: 0 :: le32 0) :: .fail 2 :: [] ∧
    (scripted [.ok (0 :: 0 :: le32 0), .ok [], .fail 0]).script = .ok (0 :: 0 :: le32 0) :: .ok [] :: .fail 0 :: [] ∧
    (scripted [.ok (0 :: 0 :: le32 0), .ok [], .ok (0 :: 0 :: le32 7), .fail 6]).script =
      .ok (0 :: 0 :: le32 0) :: .ok [] :: .ok (0 :: 0 :: le32 7) :: .fail 6 :: [] := ⟨rfl, rfl, rfl, rfl, rfl, rfl, rfl, rfl⟩

/-- A transport error, a bounds error, an index error and a size error of calls. -/
theorem witness_CallsReturnOnlyTheirErrors :
    (∃ t, runCall .resetChip (scripted [.fail 0]) = .next t ∧ t.replies = [] ++ [.done (.err .spiWrite)]) ∧
    (∃ t, runCall (.readRam 0x3FF []) (stub []) = .next t ∧ t.replies = [] ++ [.readRam (.err (.invalidRamAddress 0x3FF)) []]) ∧
    (∃ t, runCall (.modifySfr .txQueueControl [.txqFifoSize 0]) (stub []) = .next t ∧
      t.replies = [] ++ [.done (.err (.invalidFifoSize 0))]) ∧
    (∃ t, seqStep ⟨p3, .failed .pllNotReady⟩ (stub []) = .next t ∧ t.replies = [] ++ [.done (.err .pllNotReady)]) :=
  ⟨⟨_, rfl, by decide⟩, ⟨_, rfl, by decide⟩, ⟨_, rfl, by decide⟩, ⟨_, rfl, by decide⟩⟩

theorem witness_ErrorsLeaveTheControllerAsItWas :
    (scripted [.fail 0]).cs = .inactive ∧
    (∃ t, runCall .resetChip (scripted [.fail 0]) = .next t ∧ t.replies = [] ++ [.done (.err .spiWrite)]) ∧
    (∃ t, runCall (.readFifo .status 32) (stub []) = .next t ∧ t.replies = [] ++ [.done (.err (.invalidFifo 32))]) ∧
    (Reply.done (.err (.invalidFifo 32))).error = some (.invalidFifo 32) ∧ (Error.invalidFifo 32).code ∈ [3, 4, 9] :=
  ⟨rfl, ⟨_, rfl, by decide⟩, ⟨_, rfl, by decide⟩, rfl, by decide⟩

theorem test_codes : tp.CodesOk := by constructor <;> decide

theorem test_layouts : tp.RegLayoutOk ∧ tp.HdrLayoutOk := by
  refine ⟨⟨?_, ?_, by decide, by decide, ?_, test_codes⟩, ?_⟩
  · intro T; cases T <;> decide +kernel
  · intro T; cases T <;> decide +kernel
  · intro T; cases T <;> decide +kernel
  · intro k; cases k <;> decide +kernel

theorem witness_FieldLaws :
    RegField.InWord tp .chip_TXBWS ∧ RegField.InWord tp .chip_ABAT ∧ RegField.Apart tp .chip_TXBWS .chip_ABAT ∧
    27 < RegField.lo tp .chip_TXBWS ∧ RegField.lo tp .chip_DNCNT + RegField.width tp .chip_DNCNT ≤ 5 := by decide

theorem witness_SymbolicFieldsRoundTrip :
    tp.RegLayoutOk ∧ OpMode.settable tp .restricted = true ∧ PayloadSize.settable tp .bytes64 = true :=
  ⟨test_layouts.1, by decide, by decide⟩

theorem witness_UnmappedCodesReadAsTheFallback :
    let p : Params := { tp with opmodeMapped := [0, 1, 2, 3, 4, 5, 6], plsizeMapped := [0, 1, 2, 3, 4, 5, 6] }
    OpMode.mapped p (RegField.get p .chip_OPMOD ⟨0x00E00000⟩).toNat = false ∧
    PayloadSize.mapped p (RegField.get p .txq_PLSIZE ⟨0xE0000000⟩).toNat = false ∧
    PayloadSize.mapped p (RegField.get p .fifo_PLSIZE ⟨0xE0000000⟩).toNat = false ∧
    (let q : Params := { tp with plsizeCode := [(.bytes64, 6)] }
     (∀ v, PayloadSize.code q v ≠ (RegField.get q .txq_PLSIZE ⟨0xE0000000⟩).toNat) ∧
     (∀ v, PayloadSize.code q v ≠ (RegField.get q .fifo_PLSIZE ⟨0xE0000000⟩).toNat) ∧
     PayloadSize.mapped q 7 = true ∧ getTxqPlsize q ⟨0xE0000000⟩ = .bytes8 ∧ getFifoPlsize q ⟨0xE0000000⟩ = .bytes8) := by
  refine ⟨by decide, by decide, by decide, fun v => ?_, fun v => ?_, by decide, by decide, by decide⟩ <;> cases v <;> decide

theorem witness_FifoDepthIsClampedAndZeroRejected :
    tp.RegLayoutOk ∧ setTxqFifoSize tp ⟨0⟩ 33 = .ok ⟨0x1F000000⟩ ∧ setFifoSize tp ⟨0⟩ 1 = .ok ⟨0⟩ ∧
    setFifoSize tp ⟨0⟩ 0 = .err (.invalidFifoSize 0) := ⟨test_layouts.1, by decide, by decide, by decide⟩

theorem witness_HeaderFieldLaws :
    tp.HdrLayoutOk ∧ (HField.sid : HField .tx) ≠ .eid ∧ 0 ≠ HField.word tp (.dlc : HField .rx) ∧
    { tp with hdrLayout := [⟨.tx, .dlc, 0, 28⟩, ⟨.tx, .eid, 1, 10⟩, ⟨.tx, .seq, 0, 11⟩] }.HdrLayoutOk ∧
    (10 < HField.lo tp (.eid : HField .tx) ∨ HField.lo tp (.eid : HField .tx) + 18 ≤ 10) ∧
    (29 < HField.lo tp (.eid : HField .tx) ∨ HField.lo tp (.eid : HField .tx) + 18 ≤ 29) :=
  ⟨test_layouts.2, by decide, by decide, by intro k; cases k <;> decide +kernel, by decide, by decide⟩

theorem witness_IdentifiersRoundTrip : tp.HdrLayoutOk := test_layouts.2

/-- Polls that do not show Configuration mode: another mode, and a failed transfer. -/
def badPolls : List Answer := [.ok [0, 0, 0, 0, 0, 0], .fail 0, .ok [0, 0, 0, 0, 0x60, 0], .fail 6]

theorem badPolls_not_configured : ∀ a ∈ badPolls, NotYetConfigured tp a := by
  simp [badPolls, NotYetConfigured]; decide

theorem witness_ConfigModePollingBudget :
    (scripted []).cs = .inactive ∧ tp.RegLayoutOk ∧ tp.opmodeCode = [] ∧ OpMode.settable tp .configuration = true ∧
    (23 < RegField.lo tp .chip_REQOP ∨ RegField.lo tp .chip_REQOP + RegField.width tp .chip_REQOP ≤ 23) ∧
    (27 < RegField.lo tp .chip_REQOP ∨ RegField.lo tp .chip_REQOP + RegField.width tp .chip_REQOP ≤ 27) ∧
    (scripted [.ok (0 :: 0 :: le32 0x00980760), .ok []]).script = .ok (0 :: 0 :: le32 0x00980760) :: .ok [] :: [] ∧
    (scripted [.ok (0 :: 0 :: le32 0x00980760), .fail 6]).script = .ok (0 :: 0 :: le32 0x00980760) :: .fail 6 :: [] ∧
    (scripted [.fail 0]).script = .fail 0 :: [] ∧
    (∀ a ∈ badPolls, NotYetConfigured tp a) ∧ badPolls.length = 4 ∧ ([] : List Answer).length ≤ 4 ∧
    (scripted (badPolls ++ [.ok [0, 0, 0, 0, 0x80, 0]])).script = badPolls ++ .ok [0, 0, 0, 0, 0x80, 0] :: [] ∧
    getOpmod tp ⟨fromLE32 (([0, 0, 0, 0, 0x80, 0] : List Byte).drop 2)⟩ = .mode .configuration ∧
    (scripted (badPolls ++ [.fail 1])).script = badPolls ++ .fail 1 :: [] ∧ NotYetConfigured tp (.fail 1) :=
  ⟨rfl, test_layouts.1, rfl, by decide, by decide, by decide, rfl, rfl, rfl, badPolls_not_configured, rfl, by decide, rfl, by decide,
    rfl, by simp [NotYetConfigured]; decide⟩

theorem witness_PllPollingBudget :
    (scripted []).cs = .inactive ∧ (∀ a ∈ [Answer.ok [0, 0, 0, 0, 0, 0], .fail 0], NotYetLocked tp a) ∧
    (scripted [.fail 0, .ok [0, 0, 0, 1, 0, 0]]).script = [.fail 0] ++ .ok [0, 0, 0, 1, 0, 0] :: [] ∧
    RegField.getBool tp .osc_PLLRDY ⟨fromLE32 (([0, 0, 0, 1, 0, 0] : List Byte).drop 2)⟩ = true ∧
    (∀ a ∈ [Answer.fail 0, .fail 0], NotYetLocked tp a) ∧
    (scripted [.fail 0, .fail 0, .fail 0]).script = [.fail 0, .fail 0] ++ .fail 0 :: [] ∧ NotYetLocked tp (.fail 0) := by
  refine ⟨rfl, ?_, rfl, by decide, ?_, rfl, trivial⟩ <;> simp [NotYetLocked]
  decide

theorem witness_EchoTestJudgesEachBit :
    (scripted [.ok [], .ok [0, 0, 0, 0, 0, 0x80]]).cs = .inactive ∧
    (scripted [.ok [], .ok [0, 0, 0, 0, 0, 0x80]]).script = .ok [] :: .ok [0, 0, 0, 0, 0, 0x80] :: [] ∧
    ([0, 0, 0, 0, 0, 0x80] : List Byte).length = 6 ∧
    ([0, 0, 0, 0, 0, 0x80] : List Byte).drop 2 = native32 tp.hostEndian ((1 : Word) <<< 31) ∧
    (scripted [.fail 0]).script = .fail 0 :: [] ∧ (scripted [.ok [], .fail 0]).script = .ok [] :: .fail 0 :: [] := by decide

theorem witness_OscillatorTransformSetsThreeFields :
    let s := scripted [.ok (0 :: 0 :: le32 0x00000464), .ok []]
    let c : State := { s with cfg := { tp with clockDivider := .clkodiv } }
    s.cs = .inactive ∧ tp.RegLayoutOk ∧ s.script = .ok (0 :: 0 :: le32 0x00000464) :: .ok [] :: [] ∧
    tp.clockDivider = .sclkdiv ∧ c.cfg.clockDivider = .clkodiv ∧ c.cfg.RegLayoutOk ∧ c.cs = .inactive ∧
    RegField.osc_LPMEN ∉ [RegField.osc_PLLEN, .osc_OSCDIS, .osc_SCLKDIV] ∧
    (∀ i ∈ [1, 3, 7, 31], ∀ f ∈ [RegField.osc_PLLEN, .osc_OSCDIS, .osc_SCLKDIV], RegField.Outside tp f i) ∧
    (∀ i ∈ [1, 4, 7, 31], ∀ f ∈ [RegField.osc_PLLEN, .osc_OSCDIS, .osc_CLKODIV], RegField.Outside c.cfg f i) ∧
    (scripted [.fail 0]).script = .fail 0 :: [] ∧
    (scripted [.ok (0 :: 0 :: le32 0x00000464), .fail 2]).script = .ok (0 :: 0 :: le32 0x00000464) :: .fail 2 :: [] :=
  ⟨rfl, test_layouts.1, rfl, rfl, rfl,
    ⟨test_layouts.1.inWord, test_layouts.1.apart, test_layouts.1.fsize, test_layouts.1.priority, test_layouts.1.flags,
      ⟨test_codes.opmode, test_codes.wft, test_codes.txbws, test_codes.txat, test_codes.plsize, test_codes.clkodiv⟩⟩,
    rfl, by decide, by decide, by decide, rfl, rfl⟩

theorem witness_IoWordIsBuiltFromZero :
    (scripted [.ok []]).cs = .inactive ∧ (scripted [.fail 6]).cs = .inactive ∧ (scripted [.ok []]).cfg.RegLayoutOk ∧
    ∀ i ∈ [0, 7, 23, 31], ∀ f ∈ [RegField.io_XSTBYEN, .io_TXCANOD, .io_INTOD, .io_SOF, .io_PM0, .io_PM1],
      RegField.Outside tp f i := ⟨rfl, rfl, test_layouts.1, by decide⟩

/-- C1CON with TXQEN set, and a queue in use or not: the word agrees or does not. -/
theorem witness_ReconcileWritesOnlyOnDisagreement :
    let c : Word := 0x04980760
    let s := scripted [.ok (0 :: 0 :: le32 c), .ok []]
    let b : State := { s with cfg := { tp with tefReconcileBit := some 19 } }
    s.cs = .inactive ∧ tp.RegLayoutOk ∧ tp.tefReconcileBit = none ∧ b.cs = .inactive ∧ b.cfg.RegLayoutOk ∧
    b.cfg.tefReconcileBit = some 19 ∧ (19 : Fin 32).val ≠ RegField.lo tp .chip_TXQEN ∧
    (20 : Fin 32).val = RegField.lo { tp with tefReconcileBit := some 20 } .chip_TXQEN ∧
    (reconcileWord tp true ⟨c⟩).bits = c ∧ (scripted [.ok (0 :: 0 :: le32 c)]).script = .ok (0 :: 0 :: le32 c) :: [] ∧
    (reconcileWord tp false ⟨c⟩).bits ≠ c ∧ s.script = .ok (0 :: 0 :: le32 c) :: .ok [] :: [] ∧
    (scripted [.ok (0 :: 0 :: le32 c), .fail 2]).script = .ok (0 :: 0 :: le32 c) :: .fail 2 :: [] ∧
    (scripted [.fail 0]).script = .fail 0 :: [] :=
  ⟨rfl, test_layouts.1, rfl, rfl,
    ⟨test_layouts.1.inWord, test_layouts.1.apart, test_layouts.1.fsize, test_layouts.1.priority, test_layouts.1.flags,
      ⟨test_codes.opmode, test_codes.wft, test_codes.txbws, test_codes.txat, test_codes.plsize, test_codes.clkodiv⟩⟩,
    rfl, by decide, by decide, by decide, rfl, by decide, rfl, rfl, rfl⟩

/-- The answers of a queue's programming: reads of C1TXQCON and C1CON, and writes that succeed. -/
def reads (w : Word) : Answer := .ok (0 :: 0 :: le32 w)
def wrote : Answer := .ok []

theorem witness_ZeroSizeQueueProgramsNoDepth :
    let q := reads 0x00400400
    let c := reads 0x04980760
    (scripted [q, wrote, c, wrote]).cs = .inactive ∧ p3.txq.size = 0 ∧ (scripted []).cfg.RegLayoutOk ∧
    (∀ i ∈ [7, 15, 24], ∀ f ∈ [RegField.txq_TXAT, .txq_TXPRI], RegField.Outside tp f i) ∧
    RegField.txq_PLSIZE ∉ [RegField.txq_TXAT, .txq_TXPRI] ∧
    (scripted [.fail 0]).script = .fail 0 :: [] ∧ (scripted [q, .fail 2]).script = q :: .fail 2 :: [] ∧
    (scripted [q, wrote, .fail 0]).script = q :: wrote :: .fail 0 :: [] ∧
    (reconcileWord tp false ⟨0x04880760⟩).bits = 0x04880760 ∧
    (scripted [q, wrote, reads 0x04880760]).script = q :: wrote :: reads 0x04880760 :: [] ∧
    (reconcileWord tp false ⟨0x04980760⟩).bits ≠ 0x04980760 ∧
    (scripted [q, wrote, c, wrote]).script = q :: wrote :: c :: wrote :: [] ∧
    (scripted [q, wrote, c, .fail 6]).script = q :: wrote :: c :: .fail 6 :: [] :=
  ⟨rfl, rfl, test_layouts.1, by decide, by decide, rfl, rfl, rfl, by decide, rfl, by decide, rfl, rfl⟩

theorem witness_SizedQueueProgramsDepthAndPayload :
    let q := reads 0x00400400
    let q' := reads 0x005F0400
    let c := reads 0x04880760
    (scripted [q]).cs = .inactive ∧ p5.txq.size ≠ 0 ∧ (scripted []).cfg.RegLayoutOk ∧
    (∀ i ∈ [7, 15, 24], ∀ f ∈ [RegField.txq_TXAT, .txq_TXPRI], RegField.Outside tp f i) ∧
    (∀ i ∈ [7, 15, 16, 23], ∀ f ∈ [RegField.txq_FSIZE, .txq_PLSIZE], RegField.Outside tp f i) ∧
    RegField.txq_FRESET ∉ [RegField.txq_TXAT, .txq_TXPRI] ∧ RegField.txq_FRESET ∉ [RegField.txq_FSIZE, .txq_PLSIZE] ∧
    (scripted [.fail 0]).script = .fail 0 :: [] ∧ (scripted [q, .fail 2]).script = q :: .fail 2 :: [] ∧
    (scripted [q, wrote, .fail 0]).script = q :: wrote :: .fail 0 :: [] ∧
    (scripted [q, wrote, q', .fail 5]).script = q :: wrote :: q' :: .fail 5 :: [] ∧
    (scripted [q, wrote, q', wrote, .fail 1]).script = q :: wrote :: q' :: wrote :: .fail 1 :: [] ∧
    (reconcileWord tp true ⟨0x04980760⟩).bits = 0x04980760 ∧
    (scripted [q, wrote, q', wrote, reads 0x04980760]).script = q :: wrote :: q' :: wrote :: reads 0x04980760 :: [] ∧
    (reconcileWord tp true ⟨0x04880760⟩).bits ≠ 0x04880760 ∧
    (scripted [q, wrote, q', wrote, c, wrote]).script = q :: wrote :: q' :: wrote :: c :: wrote :: [] ∧
    (scripted [q, wrote, q', wrote, c, .fail 6]).script = q :: wrote :: q' :: wrote :: c :: .fail 6 :: [] :=
  ⟨rfl, by decide, test_layouts.1, by decide, by decide, by decide, by decide, rfl, rfl, rfl, rfl, rfl, by decide, rfl, by decide, rfl,
    rfl⟩

theorem witness_ConfigureAlwaysReturns :
    (stub []).owned = true ∧ p3.txq.size = 0 ∧ PayloadSize.settable (stub []).cfg p5.txq.payload = true ∧
    p5.txq.size ≠ 0 ∧ { stub [] with cfg := { tp with plsizeMapped := [0] } }.owned = true ∧
    PayloadSize.settable { tp with plsizeMapped := [0] } p5.txq.payload = false ∧
    { State.reset with seq := some ⟨p3, .unconfigured⟩ }.owned = true ∧
    { State.reset with seq := some ⟨p3, .unconfigured⟩ }.seq = some ⟨p3, .unconfigured⟩ := by decide

end Sys2Proof.Tests
end

section
/-! PROOFS. The byte orders of spec/00_scope.md R11 as arithmetic: which number each byte of `LE32` and `BE16` is. -/

namespace Sys2Proof

/-- Cutting byte `k` out of a word is dividing by `256 ^ k` and reducing mod 256. -/
theorem toNat_extractLsb'_byte {w : Nat} (x : BitVec w) (k : Nat) :
    (x.extractLsb' (8 * k) 8).toNat = x.toNat / 256 ^ k % 256 := by
  rw [BitVec.extractLsb'_toNat, Nat.shiftRight_eq_div_pow, pow_mul, show 2 ^ 8 = 256 from rfl]

/-- `LE32` sends the bytes in the order of their weight, bits 7:0 first (R55). -/
theorem le32_getD (v : Word) (k : Nat) (hk : k < 4) : (le32 v).getD k 0 = v.extractLsb' (8 * k) 8 := by
  match k, hk with
  | 0, _ | 1, _ | 2, _ | 3, _ => rfl

theorem toNat_le32_getD (v : Word) (k : Nat) (hk : k < 4) :
    ((le32 v).getD k 0).toNat = v.toNat / 256 ^ k % 256 := by
  rw [le32_getD v k hk, toNat_extractLsb'_byte]

/-- `BE16` sends the high byte first (R54); that byte needs no reduction, since the word has 16 bits. -/
theorem map_toNat_be16 (w : BitVec 16) : (be16 w).map BitVec.toNat = [w.toNat / 256, w.toNat % 256] := by
  have high : (w.extractLsb' 8 8).toNat = w.toNat / 256 := by
    have byte : (w.extractLsb' 8 8).toNat = w.toNat / 256 ^ 1 % 256 := toNat_extractLsb'_byte w 1
    have bound : w.toNat < 256 * 256 := w.isLt
    rw [byte, pow_one, Nat.mod_eq_of_lt (Nat.div_lt_of_lt_mul bound)]
  have low : (w.extractLsb' 0 8).toNat = w.toNat % 256 := by
    rw [toNat_extractLsb'_byte w 0, pow_zero, Nat.div_one]
  simp only [be16, List.map_cons, List.map_nil, high, low]

/-- The two host orders of `NATIVE32` (R57). -/
@[simp] theorem native32_little (v : Word) : native32 .little v = le32 v := rfl

@[simp] theorem native32_big (v : Word) : native32 .big v = (le32 v).reverse := rfl

/-- Settles O13: the round trips are the laws of the byte helpers, the bytes' values the arithmetic above. -/
theorem byteOrders : Obligations.ByteOrders :=
  ⟨fun v => ⟨fromLE32_le32 v, le32_length v, toNat_le32_getD v⟩, le32_fromLE32, map_toNat_be16,
    fun v => ⟨native32_little v, native32_big v⟩⟩

end Sys2Proof
end

section
/-! PROOFS. The five instructions against a scripted answer (log 3), and what a failed write leaves in the stub
(spec/10_state.md R25, R28; spec/40_spi_instructions.md R131 to R135). -/

namespace Sys2Proof.Machine

open Sys2Proof

/-! ### A scripted answer -/

theorem envAnswer_of_scripted_fail {s : State} {k : Nat} {rest : List Answer} (h : s.script = .fail k :: rest)
    (out : List Byte) : envAnswer s out = .fail k := by simp only [envAnswer, h]

/-- Whatever bytes an `Ok` answer gives, the call succeeds. -/
theorem envAnswer_of_scripted_ok {s : State} {given : List Byte} {rest : List Answer} (h : s.script = .ok given :: rest)
    (out : List Byte) : ∃ bytesIn, envAnswer s out = .ok bytesIn := by simp [envAnswer, h]

/-- An `Ok` answer of as many bytes as were sent is clocked in as it is (R26). -/
theorem envAnswer_of_scripted_exact {s : State} {given out : List Byte} {rest : List Answer}
    (h : s.script = .ok given :: rest) (hl : given.length = out.length) : envAnswer s out = .ok given := by
  simp only [envAnswer, h]
  rw [← hl, fitBytes_exact]

/-! ### A frame against a scripted answer -/

section

variable (op : Opcode) (a : Addr) {s : State} {given : List Byte} {k : Nat} {rest : List Answer}

theorem frameRead_scripted {n : Nat} (hl : given.length = n + 2) (h : s.script = .ok given :: rest) :
    ∃ t, frameRead op a n s = (.ok (given.drop 2), t) ∧
      FrameRun s t (readFrameBytes op a n) (.transfer (readFrameBytes op a n) (some given)) := by
  have hx : envAnswer (csReady s) (readFrameBytes op a n) = .ok given :=
    envAnswer_of_scripted_exact ((csReady_script s).trans h) (hl.trans (readFrameBytes_length op a n).symm)
  rcases frameRead_spec op a n s with ⟨b, t, hv, -, he, hr⟩ | ⟨j, t, hv, -, -⟩ <;> cases hx.symm.trans hv
  exact ⟨t, he, hr⟩

theorem frameRead_failed (n : Nat) (h : s.script = .fail k :: rest) :
    ∃ t, frameRead op a n s = (.err .spiRead, t) ∧
      FrameRun s t ((readFrameBytes op a n).take k) (.transfer (readFrameBytes op a n) none) := by
  have hx := envAnswer_of_scripted_fail ((csReady_script s).trans h) (readFrameBytes op a n)
  rcases frameRead_spec op a n s with ⟨b, t, hv, -, -, -⟩ | ⟨j, t, hv, he, hr⟩ <;> cases hx.symm.trans hv
  exact ⟨t, he, hr⟩

theorem frameWrite_scripted (p : List Byte) (h : s.script = .ok given :: rest) :
    ∃ t, frameWrite op a p s = (.ok (), t) ∧
      FrameRun s t (writeFrameBytes op a p) (.write (writeFrameBytes op a p) true) := by
  obtain ⟨bytesIn, hx⟩ := envAnswer_of_scripted_ok ((csReady_script s).trans h) (writeFrameBytes op a p)
  rcases frameWrite_spec op a p s with ⟨b, t, -, he, hr⟩ | ⟨j, t, hv, -, -⟩
  · exact ⟨t, he, hr⟩
  · cases hx.symm.trans hv

theorem frameWrite_failed (p : List Byte) (h : s.script = .fail k :: rest) :
    ∃ t, frameWrite op a p s = (.err .spiWrite, t) ∧
      FrameRun s t ((writeFrameBytes op a p).take k) (.write (writeFrameBytes op a p) false) := by
  have hx := envAnswer_of_scripted_fail ((csReady_script s).trans h) (writeFrameBytes op a p)
  rcases frameWrite_spec op a p s with ⟨b, t, hv, -, -⟩ | ⟨j, t, hv, he, hr⟩ <;> cases hx.symm.trans hv
  exact ⟨t, he, hr⟩

end

/-! ### An operation of one frame uses one answer and gives one reply -/

section

variable {α : Type} {m : Op TransportError α} {s u : State} {sent : List Byte} {ev : Event} {x : Answer}
  {rest : List Answer} (f : α → Value) (g : TransportError → Error)

theorem FrameRun.finish_ok {v : α} (hr : FrameRun s u sent ev) (hm : m s = (.ok v, u)) (hs : s.script = x :: rest) :
    (Op.finish m f g s).script = rest ∧ (Op.finish m f g s).replies = s.replies ++ [.done (.ok (f v))] := by
  rw [Op.finish_ok hm, reply_script, reply_replies, hr.script, hr.host.replies, hs]
  exact ⟨rfl, rfl⟩

theorem FrameRun.finish_err {e : TransportError} (hr : FrameRun s u sent ev) (hm : m s = (.err e, u))
    (hs : s.script = x :: rest) :
    (Op.finish m f g s).script = rest ∧ (Op.finish m f g s).replies = s.replies ++ [.done (.err (g e))] := by
  rw [Op.finish_err hm, reply_script, reply_replies, hr.script, hr.host.replies, hs]
  exact ⟨rfl, rfl⟩

end

/-! ### Which frame an instruction sends -/

theorem withController_of_owned {s : State} (ho : s.owned = true) (next : State) : withController s next = .next next :=
  withController_next.2 ⟨ho, rfl⟩

theorem withRegisterOnly_of_owned {s : State} (ho : s.owned = true) (hr : s.cfg.sfrOpcodes = .registerOnly)
    (next : State) : withRegisterOnly s next = .next next :=
  withRegisterOnly_next.2 ⟨hr, ho, rfl⟩

/-- READ, and READ_SFR where it is emitted, run one read frame (R131, R134). -/
theorem exec_runs_frameRead {s : State} (ho : s.owned = true) {i : Instr}
    (hi : (∃ a n, i = .read a n) ∨ (∃ a, i = .readSfr a) ∧ s.cfg.sfrOpcodes = .registerOnly) :
    ∃ op a n f, exec i s = .next (Op.finish (frameRead op a n) f TransportError.toError s) := by
  rcases hi with ⟨a, n, rfl⟩ | ⟨⟨a, rfl⟩, hr⟩
  · exact ⟨_, _, _, _, withController_of_owned ho _⟩
  · exact ⟨_, _, _, _, withRegisterOnly_of_owned ho hr _⟩

/-- RESET and WRITE, and WRITE_SFR where it is emitted, run one write frame and return no value (R132, R133, R135). -/
theorem exec_runs_frameWrite {s : State} (ho : s.owned = true) {i : Instr}
    (hi : (∃ a, i = .reset a) ∨ (∃ a p, i = .write a p) ∨ (∃ a v, i = .writeSfr a v) ∧ s.cfg.sfrOpcodes = .registerOnly) :
    ∃ op a p, exec i s = .next (Op.finish (frameWrite op a p) (fun _ => .unit) TransportError.toError s) := by
  rcases hi with ⟨a, rfl⟩ | ⟨a, p, rfl⟩ | ⟨⟨a, v, rfl⟩, hr⟩
  · exact ⟨_, _, _, withController_of_owned ho _⟩
  · exact ⟨_, _, _, withController_of_owned ho _⟩
  · exact ⟨_, _, _, withRegisterOnly_of_owned ho hr _⟩

/-! ### The stub and the first bytes of a write frame -/

@[simp] theorem wireWord_be16 (w : BitVec 16) : wireWord (be16 w) = w := fromBE16_be16 w

/-- The stub stores nothing while the word comes in, so of the first `n` bytes of a frame only those past the word count. -/
theorem stubReceive_take_writeFrame (cfg : Params) (m : Memory) (op : Opcode) (a : Addr) (p : List Byte) (n : Nat) :
    stubReceive cfg m [] ((writeFrameBytes op a p).take n) =
      stubReceive cfg m (be16 (encodeWord op a)) (p.take (n - 2)) := by
  match n with
  | 0 | 1 | _ + 2 => simp [writeFrameBytes, be16, stubReceive, stubStore]

/-- Where byte `j` past the word of a frame is stored (R77). -/
theorem stubAddr_payload (op : Opcode) (a : Addr) (j : Nat) :
    stubAddr (wireWord (be16 (encodeWord op a))) ((be16 (encodeWord op a)).length - 2 + j) = (a.toNat + j) % 4096 := by
  simp [stubAddr]

section

variable {cfg : Params} {m : Memory} (hm : Memory.wf m) (a : Addr) {p : List Byte} {n : Nat}

include hm

theorem get_stubReceive_take_writeFrame_stored (hl : p.length ≤ 4096) {k : Nat} (hk : k < p.length) (hn : k + 2 < n) :
    Memory.get (stubReceive cfg m [] ((writeFrameBytes cfg.opWrite a p).take n)) ((a.toNat + k) % 4096) = p.getD k 0 := by
  have hstores : stubStores cfg (wireWord (be16 (encodeWord cfg.opWrite a))) = true := by simp [stubStores]
  have hlen : (p.take (n - 2)).length ≤ 4096 := (List.length_take_le' _ _).trans hl
  have hk' : k < (p.take (n - 2)).length := by rw [List.length_take]; omega
  rw [stubReceive_take_writeFrame, ← stubAddr_payload cfg.opWrite,
    stubReceive_payload_stored cfg _ m _ le_rfl hm hstores hlen k hk']
  simp [show k < n - 2 by omega]

theorem get_stubReceive_take_writeFrame_other (op : Opcode) {x : Nat}
    (hx : ∀ k, k < p.length → k + 2 < n → x ≠ (a.toNat + k) % 4096) :
    Memory.get (stubReceive cfg m [] ((writeFrameBytes op a p).take n)) x = Memory.get m x := by
  rw [stubReceive_take_writeFrame]
  refine stubReceive_payload_other cfg _ m _ le_rfl hm x fun j hj => ?_
  rw [List.length_take] at hj
  rw [stubAddr_payload]
  exact hx j (by omega) (by omega)

end

/-! ### The obligations -/

/-- Settles O24: the frame ends in SPIWrite, and the stub received the first `n` bytes of it. -/
theorem failedWriteLeavesAPrefix : Obligations.FailedWriteLeavesAPrefix := by
  intro s a p n rest ho henv hs hm hl
  obtain ⟨u, he, hr⟩ := frameWrite_failed s.cfg.opWrite a p hs
  have hmem : u.mem = stubReceive s.cfg s.mem [] ((writeFrameBytes s.cfg.opWrite a p).take n) := by
    rw [hr.mem, memAfter, henv]
  have hexec : exec (.write a p) s = .next (u.reply (.done (.err .spiWrite))) :=
    (withController_of_owned ho _).trans (congrArg _ (Op.finish_err he))
  refine ⟨_, hexec, ?_, hr.cs, ?_, ?_⟩
  · rw [reply_replies, hr.host.replies]
  · intro k hk hn
    rw [reply_mem, hmem]
    exact get_stubReceive_take_writeFrame_stored hm a hl hk hn
  · intro x hx
    rw [reply_mem, hmem]
    exact get_stubReceive_take_writeFrame_other hm a _ hx

/-- Settles O25: each instruction runs one frame, and the frame's one answer is the scripted one. -/
theorem scriptedAnswersDecideTheOutcome : Obligations.ScriptedAnswersDecideTheOutcome := by
  intro s rest ho
  refine ⟨fun given hs => ⟨?_, ?_, ?_⟩, fun k hs => ⟨?_, ?_⟩⟩
  · intro a n hl
    obtain ⟨u, he, hr⟩ := frameRead_scripted s.cfg.opRead a hl hs
    exact ⟨_, withController_of_owned ho _, hr.finish_ok _ _ he hs⟩
  · intro a hreg hl
    obtain ⟨u, he, hr⟩ := frameRead_scripted s.cfg.opReadSfr a (n := 4) hl hs
    exact ⟨_, withRegisterOnly_of_owned ho hreg _, hr.finish_ok _ _ he hs⟩
  · intro i hi
    obtain ⟨op, a, p, hexec⟩ := exec_runs_frameWrite ho hi
    obtain ⟨u, he, hr⟩ := frameWrite_scripted op a p hs
    exact ⟨_, hexec, hr.finish_ok _ _ he hs⟩
  · intro i hi
    obtain ⟨op, a, n, f, hexec⟩ := exec_runs_frameRead ho hi
    obtain ⟨u, he, hr⟩ := frameRead_failed op a n hs
    exact ⟨_, hexec, hr.finish_err _ _ he hs⟩
  · intro i hi
    obtain ⟨op, a, p, hexec⟩ := exec_runs_frameWrite ho hi
    obtain ⟨u, he, hr⟩ := frameWrite_failed op a p hs
    exact ⟨_, hexec, hr.finish_err _ _ he hs⟩

end Sys2Proof.Machine
end

section
/-! PROOFS. What holds at reset, and what each branch of a step does (spec/10_state.md R21, R22, R37, R39; spec/47_host_sequencer.md
R301 to R303). -/

namespace Sys2Proof.Machine

open Sys2Proof

/-! ### Reset -/

/-- One Controller exists at reset, the one in use. -/
theorem forall_lines_reset {P : Line → Prop} (h : P State.reset.line) : ∀ l ∈ State.reset.lines, P l :=
  List.forall_mem_singleton.2 h

theorem inv_reset : State.reset.Inv where
  idle := forall_lines_reset ⟨rfl, rfl, Memory.wf_empty⟩
  distinct := List.pairwise_singleton _ _
  exclusive := List.pairwise_singleton _ _
  seqOwned _ := rfl

theorem wholeFrames_reset : ∀ l ∈ State.reset.lines, WholeFrames l.trace := forall_lines_reset wholeFrames_idle

theorem controllerOnly_reset : State.reset.ControllerOnly where
  noFrame _ := List.not_mem_nil
  traces := forall_lines_reset (List.forall_mem_singleton.2 trivial)

/-- Settles O2: the first Controller's line is inactive and its trace is its construction's one event. -/
theorem invariantHoldsAtReset : Obligations.InvariantHoldsAtReset := ⟨inv_reset, wholeFrames_reset, controllerOnly_reset⟩

/-! ### The branches of a step -/

theorem step_of_seq {s : State} {run : SeqRun} (h : s.seq = some run) : step s = seqStep run s := by
  simp only [step, fetch, h]

section

variable {s : State} (hs : s.seq = none)

include hs

theorem step_of_idle (hr : s.requests = []) : step s = .next s := by simp only [step, fetch, hs, hr]

theorem step_of_frame {bytes : List Byte} {rest : List Request} (hr : s.requests = .frame bytes :: rest) :
    step s = runFrame exec bytes { s with requests := rest } := by simp only [step, fetch, hs, hr]

theorem step_of_call {c : Call} {rest : List Request} (hr : s.requests = .call c :: rest) :
    step s = runCall c { s with requests := rest } := by simp only [step, fetch, hs, hr]

theorem step_of_use {h : Handles} {rest : List Request} (hr : s.requests = .use h :: rest) :
    step s = runUse h { s with requests := rest } := by simp only [step, fetch, hs, hr]

end

section

variable {run : Instr → State → Host.Outcome State Fault Refusal} {bytes : List Byte} {s : State}

theorem runFrame_of_ok {i : Instr} (h : decode s.cfg bytes = .ok i) : runFrame run bytes s = run i s := by
  simp only [runFrame, h]

theorem runFrame_of_error {e : DecodeError} (h : decode s.cfg bytes = .error e) :
    runFrame run bytes s = .refused (.undecodable e) := by simp only [runFrame, h]

end

/-- Settles O26: with no `configure()` in progress the frame at the head is decoded and run. -/
theorem stepRunsTheDecodedInstruction : Obligations.StepRunsTheDecodedInstruction := by
  refine ⟨fun s bytes rest i hs hr hd => ?_, fun s nbits w i hd => ?_⟩
  · exact (step_of_frame hs hr).trans (runFrame_of_ok hd)
  · have hstep : step (s.withFetchWord nbits w) = runFrame exec (tableFrame s.cfg nbits w) { s with seq := none } :=
      step_of_frame (s := s.withFetchWord nbits w) rfl rfl
    exact hstep.trans (runFrame_of_ok hd)

/-! ### A turn to another Controller -/

theorem runUse_of_hasController {s : State} {h : Handles} (hc : s.hasController h = true) :
    runUse h s = .next (s.focus h) := if_pos hc

theorem runUse_of_not_hasController {s : State} {h : Handles} (hc : ¬ s.hasController h = true) :
    runUse h s = .refused .controllerReleased := if_neg hc

/-- The Controller in use after a turn to one that exists was there before. -/
theorem focus_line_mem_lines {s : State} {h : Handles} (hc : s.hasController h = true) : (s.focus h).line ∈ s.lines := by
  rcases focus_line_mem s h with hl | ⟨-, hnone⟩
  · exact hl
  · obtain ⟨m, hm, -, hh⟩ := hasController_iff.1 hc
    exact absurd hh (hnone m hm)

/-! ### A step of a `configure()` -/

theorem terminalReply_of_not_terminal {ph : SeqPhase} (h : ph.terminal = false) : terminalReply ph = none := by
  cases ph with
  | configured | failed => cases h
  | _ => rfl

theorem seqNext_of_terminalReply {run : SeqRun} {r : Reply} (h : terminalReply run.phase = some r) (s : State) :
    seqNext run s = { s with replies := s.replies ++ [r], seq := none } := by
  simp only [seqNext, h]
  rfl

theorem seqNext_of_not_terminal {run : SeqRun} {s t : State} {phase : SeqPhase} (h : run.phase.terminal = false)
    (ht : seqTransition run.settings run.phase s = (phase, t)) :
    seqNext run s = { t with seq := some ⟨run.settings, phase⟩ } := by
  simp only [seqNext, terminalReply_of_not_terminal h, ht]

theorem step_of_seq_owned {s : State} {run : SeqRun} (h : s.seq = some run) (ho : s.owned = true) :
    step s = .next (seqNext run s) := by
  rw [step_of_seq h, seqStep, withController, if_pos ho]

theorem step_of_seq_released {s : State} {run : SeqRun} (h : s.seq = some run) (ho : s.owned = false) :
    step s = .refused .controllerReleased := by
  rw [step_of_seq h, seqStep, withController, if_neg (by simp [ho])]

/-- Settles O27: the other branches of a step, each from its own equation. -/
theorem stepServesTheHost : Obligations.StepServesTheHost := by
  refine ⟨fun s bytes rest e hs hr hd => ?_, fun s c rest hs hr => step_of_call hs hr, fun s h rest hs hr => ⟨?_, ?_⟩,
    fun s run hs => ⟨step_of_seq hs, ?_, ?_, ?_, step_of_seq_released hs⟩, fun s hs hr => step_of_idle hs hr⟩
  · exact (step_of_frame hs hr).trans (runFrame_of_error hd)
  · intro hex
    have hc : State.hasController { s with requests := rest } h = true := hasController_iff.2 hex
    exact ⟨_, (step_of_use hs hr).trans (runUse_of_hasController hc), focus_handles _ _, focus_requests _ _,
      focus_replies _ _, focus_cfg _ _, (focus_seq _ _).trans hs, focus_line_mem_lines hc⟩
  · intro hnone
    refine (step_of_use hs hr).trans (runUse_of_not_hasController fun hc => ?_)
    obtain ⟨l, hl, ho, hh⟩ := hasController_iff.1 hc
    exact hnone l hl ho hh
  · intro ho hterm phase t ht
    rw [step_of_seq_owned hs ho, seqNext_of_not_terminal hterm ht]
  · intro ho hph
    rw [step_of_seq_owned hs ho, seqNext_of_terminalReply (by rw [hph]; rfl)]
  · intro e ho hph
    rw [step_of_seq_owned hs ho, seqNext_of_terminalReply (by rw [hph]; rfl)]

end Sys2Proof.Machine
end

section
/-! PROOFS. Controllers share no state (spec/10_state.md R39; spec/60_exceptions.md R345): what an operation does does not depend on
the Controllers not in use. -/

namespace Sys2Proof.Machine

open Sys2Proof

/-- The state with other Controllers beside the one in use. -/
def State.withOthers (o : List Line) (s : State) : State := { s with others := o }

@[simp] theorem withOthers_cfg (o : List Line) (s : State) : (s.withOthers o).cfg = s.cfg := rfl
@[simp] theorem withOthers_others (o : List Line) (s : State) : (s.withOthers o).others = o := rfl

/-- The environment answers the Controller in use: by its script, its handles, its draws and its stub (R28). -/
theorem envAnswer_withOthers (o : List Line) (s : State) (out : List Byte) :
    envAnswer (s.withOthers o) out = envAnswer s out := rfl

theorem csReady_withOthers (o : List Line) (s : State) : csReady (s.withOthers o) = (csReady s).withOthers o := by
  cases h : s.cs with
  | active => rw [csReady_active s h, csReady_active (s.withOthers o) h]; rfl
  | inactive => rw [csReady_inactive s h, csReady_inactive (s.withOthers o) h]; rfl

/-! ### Operations that do not look at the others -/

/-- A function of the state that neither looks at the Controllers not in use nor changes them. -/
def OthersBlind {β : Type} (f : State → β × State) : Prop :=
  ∀ (s : State) (o : List Line), f (s.withOthers o) = ((f s).1, (f s).2.withOthers o)

theorem OthersBlind.eq_of_eq {β : Type} {f : State → β × State} (hf : OthersBlind f) {s t : State} {b : β}
    (h : f s = (b, t)) (o : List Line) : f (s.withOthers o) = (b, t.withOthers o) := by rw [hf, h]

theorem OthersBlind.ite {β : Type} {f g : State → β × State} (hf : OthersBlind f) (hg : OthersBlind g) (c : Prop)
    [Decidable c] : OthersBlind (if c then f else g) := by
  split
  · exact hf
  · exact hg

theorem Op.pure_blind {ε α : Type} (a : α) : OthersBlind (Op.pure a : Op ε α) := fun _ _ => rfl

theorem Op.raise_blind {ε α : Type} (e : ε) : OthersBlind (Op.raise e : Op ε α) := fun _ _ => rfl

theorem Op.bind_blind {ε α β : Type} {m : Op ε α} {k : α → Op ε β} (hm : OthersBlind m) (hk : ∀ a, OthersBlind (k a)) :
    OthersBlind (Op.bind m k) := by
  intro s o
  cases h : m s with
  | mk r t =>
    cases r with
    | ok a => rw [Op.bind_ok h, Op.bind_ok (hm.eq_of_eq h o), hk]
    | err e => rw [Op.bind_err h, Op.bind_err (hm.eq_of_eq h o)]

theorem Op.map_blind {ε ε' α β : Type} (f : α → β) (g : ε → ε') {m : Op ε α} (hm : OthersBlind m) :
    OthersBlind (Op.map f g m) := by
  intro s o
  cases h : m s with
  | mk r t =>
    cases r with
    | ok a => rw [Op.map_ok h, Op.map_ok (hm.eq_of_eq h o)]
    | err e => rw [Op.map_err h, Op.map_err (hm.eq_of_eq h o)]

/-- The two outcomes of a read frame are of the answer at the ready edge, which is the Controller's own. -/
theorem frameRead_blind (op : Opcode) (a : Addr) (n : Nat) : OthersBlind (frameRead op a n) := by
  intro s o
  rw [frameRead_eq, frameRead_eq, csReady_withOthers, envAnswer_withOthers]
  cases envAnswer (csReady s) (readFrameBytes op a n) <;> rfl

theorem frameWrite_blind (op : Opcode) (a : Addr) (p : List Byte) : OthersBlind (frameWrite op a p) := by
  intro s o
  rw [frameWrite_eq, frameWrite_eq, csReady_withOthers, envAnswer_withOthers]
  cases envAnswer (csReady s) (writeFrameBytes op a p) <;> rfl

/-! ### The Controller's operations

The opcodes, addresses and transforms they take from the state are of its parameters, which are no Controller's. -/

theorem readRegAt_blind (a : Addr) : OthersBlind (readRegAt a) := fun s =>
  Op.map_blind fromLE32 id (frameRead_blind (sfrReadOp s.cfg) a 4) s

theorem writeRegAt_blind (a : Addr) (v : Word) : OthersBlind (writeRegAt a v) := fun s =>
  frameWrite_blind (sfrWriteOp s.cfg) a (le32 v) s

theorem modifyRegAt_blind (a : Addr) (f : Word → Word) : OthersBlind (modifyRegAt a f) :=
  Op.bind_blind (readRegAt_blind a) fun _ => writeRegAt_blind _ _

theorem readSfr_blind (r : Sfr) : OthersBlind (readSfr r) := fun s => readRegAt_blind (s.cfg.sfrAddrOf r) s

theorem writeSfr_blind (r : Sfr) (v : Word) : OthersBlind (writeSfr r v) := fun s =>
  writeRegAt_blind (s.cfg.sfrAddrOf r) v s

theorem modifySfr_blind (r : FixedReg) (f : RegWord r.reg → RegWord r.reg) : OthersBlind (modifySfr r f) :=
  fun s => modifyRegAt_blind (s.cfg.sfrAddrOf r.sfr) (fun v => (f ⟨v⟩).bits) s

theorem resetChip_blind : OthersBlind resetChip := fun s => frameWrite_blind s.cfg.opReset 0 [] s

theorem readRam_blind (addr : Nat) (buf : List Byte) : OthersBlind (readRam addr buf) := by
  intro s o
  have hf := frameRead_blind s.cfg.opRead (BitVec.ofNat 12 addr) buf.length s o
  unfold readRam
  rw [withOthers_cfg, hf]
  split
  · cases frameRead s.cfg.opRead (BitVec.ofNat 12 addr) buf.length s with
    | mk r t => cases r <;> rfl
  · rfl

theorem writeRam_blind (addr : Nat) (bytes : List Byte) : OthersBlind (writeRam addr bytes) := by
  intro s o
  unfold writeRam
  rw [withOthers_cfg]
  split
  · exact Op.map_blind _ _ (frameWrite_blind _ _ _) s o
  · rfl

theorem fifoAddress_blind (k : FifoReg) (n : Nat) : OthersBlind (fifoAddress k n) := by
  intro s o
  unfold fifoAddress
  rw [withOthers_cfg]
  cases fifoRegAddress s.cfg k n <;> rfl

theorem readFifo_blind (k : FifoReg) (n : Nat) : OthersBlind (readFifo k n) :=
  Op.bind_blind (fifoAddress_blind k n) fun _ => Op.map_blind _ _ (readRegAt_blind _)

theorem modifyFifo_blind (k : FifoReg) (n : Nat) (f : RegWord k.reg → RegWord k.reg) : OthersBlind (modifyFifo k n f) :=
  Op.bind_blind (fifoAddress_blind k n) fun _ => Op.map_blind _ _ (modifyRegAt_blind _ _)

theorem enableTef_blind (count : BitVec 4) : OthersBlind (enableTef count) := by
  intro s o
  simp only [enableTef, withOthers_cfg]
  exact Op.bind_blind (modifySfr_blind _ _) (fun _ => Op.bind_blind (readSfr_blind _) fun _ => writeSfr_blind _ _) s o

/-! ### The sequencer's transitions -/

theorem nextPhase_blind {α : Type} (next : SeqPhase) {m : Op TransportError α} (hm : OthersBlind m) :
    OthersBlind fun s => nextPhase next (m s) := by
  intro s o
  show nextPhase next (m (s.withOthers o)) = ((nextPhase next (m s)).1, (nextPhase next (m s)).2.withOthers o)
  rw [hm s o]
  cases m s with
  | mk r t => cases r <;> rfl

theorem pollConfigMode_blind (attempt : Nat) : OthersBlind (pollConfigMode attempt) := by
  intro s o
  unfold pollConfigMode
  rw [readSfr_blind, withOthers_cfg]
  dsimp only
  split
  · rfl
  · split <;> rfl

theorem pollPll_blind (attempt : Nat) : OthersBlind (pollPll attempt) := by
  intro s o
  unfold pollPll
  rw [readSfr_blind, withOthers_cfg]
  dsimp only
  split
  · rfl
  · split <;> rfl

theorem verifyBit_blind (bit : Nat) : OthersBlind (verifyBit bit) := by
  intro s o
  unfold verifyBit
  rw [writeRam_blind, withOthers_cfg]
  cases writeRam echoAddr (echoPattern s.cfg bit) s with
  | mk r t =>
    cases r with
    | err e => rfl
    | ok u =>
      dsimp only
      rw [readRam_blind]
      cases readRam echoAddr [0, 0, 0, 0] t with
      | mk rb v =>
        obtain ⟨r2, buf⟩ := rb
        cases r2 with
        | err e => rfl
        | ok u2 =>
          dsimp only
          split
          · rfl
          · split <;> rfl

theorem reconcile_blind (inUse : Bool) : OthersBlind (reconcile inUse) := by
  intro s o
  simp only [reconcile, withOthers_cfg]
  exact Op.bind_blind (readSfr_blind _) (fun _ => .ite (writeSfr_blind _ _) (Op.pure_blind ()) _) s o

theorem txQueueFrames_blind (q : TxqSettings) : OthersBlind (txQueueFrames q) := by
  intro s o
  simp only [txQueueFrames, withOthers_cfg]
  exact Op.bind_blind (modifySfr_blind _ _)
    (fun _ => Op.bind_blind (.ite (modifySfr_blind _ _) (Op.pure_blind ()) _) fun _ => reconcile_blind _) s o

theorem seqTransition_blind (settings : Settings) (phase : SeqPhase) : OthersBlind (seqTransition settings phase) := by
  cases phase with
  | unconfigured | configured | failed => exact fun _ _ => rfl
  | requestingConfigMode =>
    exact fun s => nextPhase_blind (.awaitingConfigMode 1)
      (modifySfr_blind .chipControl fun c => setReqop s.cfg c .configuration) s
  | awaitingConfigMode attempt => exact pollConfigMode_blind attempt
  | verifyingComms bit => exact verifyBit_blind bit
  | programmingOscillator =>
    exact fun s => nextPhase_blind (if settings.osc.pllEnable then .awaitingPll 1 else .programmingIo)
      (modifySfr_blind .oscillator (oscTransform s.cfg settings.osc)) s
  | awaitingPll attempt => exact pollPll_blind attempt
  | programmingIo =>
    exact fun s => nextPhase_blind .programmingTxQueue (writeSfr_blind .iocon (ioWord s.cfg settings.io).bits) s
  | programmingTxQueue => exact nextPhase_blind .configured (txQueueFrames_blind settings.txq)

/-! ### Instructions, calls and steps -/

theorem Op.finish_withOthers {ε α : Type} {m : Op ε α} (hm : OthersBlind m) (f : α → Value) (g : ε → Error) (s : State)
    (o : List Line) : Op.finish m f g (s.withOthers o) = (Op.finish m f g s).withOthers o := by
  cases h : m s with
  | mk r t =>
    cases r with
    | ok a => rw [Op.finish_ok h, Op.finish_ok (hm.eq_of_eq h o)]; rfl
    | err e => rw [Op.finish_err h, Op.finish_err (hm.eq_of_eq h o)]; rfl

theorem exec_withOthers {i : Instr} {s t : State} (h : exec i s = .next t) (o : List Line) :
    exec i (s.withOthers o) = .next (t.withOthers o) := by
  cases i with
  | reset a | write a p =>
    obtain ⟨ho, rfl⟩ := withController_next.1 h
    exact withController_next.2 ⟨ho, (Op.finish_withOthers (frameWrite_blind _ _ _) _ _ s o).symm⟩
  | read a n =>
    obtain ⟨ho, rfl⟩ := withController_next.1 h
    exact withController_next.2 ⟨ho, (Op.finish_withOthers (frameRead_blind _ _ _) _ _ s o).symm⟩
  | readSfr a =>
    obtain ⟨hr, ho, rfl⟩ := withRegisterOnly_next.1 h
    exact withRegisterOnly_next.2 ⟨hr, ho, (Op.finish_withOthers (frameRead_blind _ _ _) _ _ s o).symm⟩
  | writeSfr a v =>
    obtain ⟨hr, ho, rfl⟩ := withRegisterOnly_next.1 h
    exact withRegisterOnly_next.2 ⟨hr, ho, (Op.finish_withOthers (frameWrite_blind _ _ _) _ _ s o).symm⟩

theorem callRefusal_withOthers {c : Call} (hn : ∀ h, c ≠ .new h) (s : State) (o : List Line) :
    callRefusal c (s.withOthers o) = callRefusal c s := by
  cases c with
  | new h => exact absurd rfl (hn h)
  | _ => rfl

theorem callModifySfr_withOthers (r : FixedReg) (f : List (Update r.reg)) (s : State) (o : List Line) :
    callModifySfr r f (s.withOthers o) = (callModifySfr r f s).withOthers o := by
  unfold callModifySfr
  rw [withOthers_cfg]
  split
  · rfl
  · exact Op.finish_withOthers (modifySfr_blind _ _) _ _ s o

theorem callModifyFifo_withOthers (k : FifoReg) (n : Nat) (f : List (Update k.reg)) (s : State) (o : List Line) :
    callModifyFifo k n f (s.withOthers o) = (callModifyFifo k n f s).withOthers o := by
  unfold callModifyFifo
  rw [withOthers_cfg]
  split
  · rfl
  · exact Op.finish_withOthers (modifyFifo_blind _ _ _) _ _ s o

theorem callReadRam_withOthers (addr : Nat) (buf : List Byte) (s : State) (o : List Line) :
    callReadRam addr buf (s.withOthers o) = (callReadRam addr buf s).withOthers o := by
  unfold callReadRam
  rw [readRam_blind]
  cases readRam addr buf s with
  | mk rb t =>
    obtain ⟨r, buf'⟩ := rb
    cases r <;> rfl

theorem callNext_withOthers {c : Call} (hn : ∀ h, c ≠ .new h) (s : State) (o : List Line) :
    callNext c (s.withOthers o) = (callNext c s).withOthers o := by
  cases c with
  | new h => exact absurd rfl (hn h)
  | free | configure _ => rfl
  | resetChip => exact Op.finish_withOthers resetChip_blind _ _ s o
  | readSfr r => exact Op.finish_withOthers (readSfr_blind r) _ _ s o
  | writeSfr r v => exact Op.finish_withOthers (writeSfr_blind r v) _ _ s o
  | modifySfr r f => exact callModifySfr_withOthers r f s o
  | readRam addr buf => exact callReadRam_withOthers addr buf s o
  | writeRam addr bytes => exact Op.finish_withOthers (writeRam_blind addr bytes) _ _ s o
  | fifoAddress k n => exact Op.finish_withOthers (fifoAddress_blind k n) _ _ s o
  | readFifo k n => exact Op.finish_withOthers (readFifo_blind k n) _ _ s o
  | modifyFifo k n f => exact callModifyFifo_withOthers k n f s o
  | enableTef count => exact Op.finish_withOthers (enableTef_blind count) _ _ s o

theorem runCall_withOthers {c : Call} (hn : ∀ h, c ≠ .new h) {s t : State} (h : runCall c s = .next t) (o : List Line) :
    runCall c (s.withOthers o) = .next (t.withOthers o) := by
  obtain ⟨hc, rfl⟩ := runCall_next h
  rw [runCall, callRefusal_withOthers hn, hc, callNext_withOthers hn]

theorem seqNext_withOthers (run : SeqRun) (s : State) (o : List Line) :
    seqNext run (s.withOthers o) = (seqNext run s).withOthers o := by
  unfold seqNext
  rw [seqTransition_blind]
  cases terminalReply run.phase <;> rfl

/-- A step that constructs no Controller and turns to none: one of a `configure()`, or of a host whose first request is neither. -/
def State.StaysInUse (s : State) : Prop :=
  s.seq.isSome = true ∨ ((∀ h rest, s.requests ≠ .use h :: rest) ∧ ∀ h rest, s.requests ≠ .call (.new h) :: rest)

theorem State.StaysInUse.requests_ne {s : State} (hu : s.StaysInUse) (hs : s.seq = none) :
    (∀ h rest, s.requests ≠ .use h :: rest) ∧ ∀ h rest, s.requests ≠ .call (.new h) :: rest :=
  hu.resolve_left (by simp [hs])

/-- Such a step does the same whatever the other Controllers are. -/
theorem step_withOthers {s t : State} (hu : s.StaysInUse) (h : step s = .next t) (o : List Line) :
    step (s.withOthers o) = .next (t.withOthers o) := by
  rcases step_cases h with ⟨run, hs, ho, rfl⟩ | ⟨hs, hr, rfl⟩ | ⟨bytes, rest, i, hs, hr, hd, he⟩ | ⟨c, rest, hs, hr, he⟩ |
    ⟨g, rest, hs, hr, -, -⟩
  · rw [step_of_seq_owned (s := s.withOthers o) hs ho, seqNext_withOthers]
  · exact step_of_idle (s := t.withOthers o) hs hr
  · rw [step_of_frame (s := s.withOthers o) hs hr]
    exact (runFrame_of_ok (s := State.withOthers o { s with requests := rest }) hd).trans (exec_withOthers he o)
  · have hn : ∀ g, c ≠ .new g := by
      rintro g rfl
      exact (hu.requests_ne hs).2 g rest hr
    rw [step_of_call (s := s.withOthers o) hs hr]
    exact runCall_withOthers hn he o
  · exact absurd hr ((hu.requests_ne hs).1 g rest)

/-- A step that does the same whatever the others are does so with those that are there, and so leaves them. -/
theorem step_others {s t : State} (hu : s.StaysInUse) (h : step s = .next t) : t.others = s.others := by
  have heq : (.next t : Host.Outcome State Fault Refusal) = .next (t.withOthers s.others) :=
    h.symm.trans (step_withOthers hu h s.others)
  injection heq with heq
  rw [heq, withOthers_others]

/-! ### Turns and constructions -/

/-- Among distinct handles a turn to a Controller that exists leaves the same Controllers. -/
theorem mem_lines_focus_iff {s : State} (hd : s.lines.Pairwise fun l m => l.handles ≠ m.handles) {h : Handles}
    (hc : s.hasController h = true) {l : Line} : l ∈ (s.focus h).lines ↔ l ∈ s.lines := by
  constructor
  · intro hl
    rcases List.mem_cons.1 hl with rfl | hl
    · exact focus_line_mem_lines hc
    · exact mem_lines_of_focus_others hl
  · intro hl
    by_cases hh : l.handles = h
    · subst hh
      exact List.mem_cons.2 (.inl (focus_line_eq hd hl).symm)
    · exact mem_lines_focus hl hh

/-- Settles O33: no operation looks at the other Controllers; a turn only moves them; a construction is on its own handles. -/
theorem controllersAreIndependent : Obligations.ControllersAreIndependent := by
  refine ⟨fun s t hu h => ⟨step_others hu h, step_withOthers hu h⟩, ?_, ?_⟩
  · intro s t h rest hd hs hr hstep l
    rw [step_of_use hs hr] at hstep
    by_cases hc : State.hasController { s with requests := rest } h = true
    · rw [runUse_of_hasController hc] at hstep
      cases hstep
      exact mem_lines_focus_iff (s := { s with requests := rest }) hd hc
    · rw [runUse_of_not_hasController hc] at hstep
      cases hstep
  · intro s t h rest hs hr hstep l hl hne
    rw [step_of_call hs hr] at hstep
    obtain ⟨-, rfl⟩ := runCall_next hstep
    exact mem_lines_construct (s := { s with requests := rest }) hl hne

end Sys2Proof.Machine
end

section
/-! PROOFS. The addresses of SFRs and of RAM (spec/20_memory.md R60 to R65; spec/41_transactions.md R168, R169) and the default
parameters (spec/00_scope.md R9). -/

namespace Sys2Proof

open Sys2Proof.Machine

/-! ### SFR_ADDR -/

/-- With no row replaced, SFR_ADDR is its default table (R60). -/
theorem Params.sfrAddrOf_default {p : Params} (h : p.sfrAddr = []) : p.sfrAddrOf = Sfr.defaultAddr := by
  funext r
  simp [Params.sfrAddrOf, h]

/-- The default table has no address twice (R62). -/
theorem Sfr.nodup_defaultAddr : (Sfr.all.map Sfr.defaultAddr).Nodup := by decide +kernel

/-- The default table has whole words only, none in the RAM window or at the reserved row (R60, R62, R63). -/
theorem Sfr.defaultAddr_ok : ∀ r ∈ Sfr.all,
    r.defaultAddr.toNat % 4 = 0 ∧ ¬ InRamWindow r.defaultAddr ∧ r.defaultAddr ≠ reservedAddr := by decide +kernel

theorem Params.sfrAddrOk_default {p : Params} (h : p.sfrAddr = []) : p.SfrAddrOk :=
  Params.sfrAddrOk_of_all (by rw [Params.sfrAddrOf_default h]; exact Sfr.nodup_defaultAddr)
    (by rw [Params.sfrAddrOf_default h]; exact Sfr.defaultAddr_ok)

/-! ### The FIFO lookups -/

/-- A lookup in range gives the address of that FIFO's register (R169). -/
theorem fifoRegAddress_succ (p : Params) (k : FifoReg) (i : Fin 31) :
    fifoRegAddress p k (i.val + 1) = .ok (p.sfrAddrOf (k.sfr i)) := by
  simp [fifoRegAddress, fifoIndex_in (n := i.val + 1) ⟨by omega, by omega⟩]

theorem fifoRegAddress_out (p : Params) (k : FifoReg) {n : Nat} (h : ¬ (1 ≤ n ∧ n ≤ 31)) :
    fifoRegAddress p k n = .err (.invalidFifo n) := by
  simp [fifoRegAddress, fifoIndex_out h]

theorem exists_fifo_of_index {n : Nat} (h : 1 ≤ n ∧ n ≤ 31) : ∃ i : Fin 31, n = i.val + 1 :=
  ⟨⟨n - 1, by omega⟩, (Nat.sub_add_cancel h.1).symm⟩

/-- An address that a lookup returns is that of the register of its kind and its index (R169). -/
theorem sfrAddrOf_of_fifoRegAddress {p : Params} {k : FifoReg} {n : Nat} {a : Addr} (h : fifoRegAddress p k n = .ok a) :
    ∃ i : Fin 31, n = i.val + 1 ∧ p.sfrAddrOf (k.sfr i) = a := by
  by_cases hn : 1 ≤ n ∧ n ≤ 31
  · obtain ⟨i, rfl⟩ := exists_fifo_of_index hn
    rw [fifoRegAddress_succ] at h
    exact ⟨i, rfl, by injection h⟩
  · rw [fifoRegAddress_out p k hn] at h
    cases h

/-- A FIFO's register names its kind and its FIFO. -/
theorem FifoReg.sfr_inj {k k' : FifoReg} {i i' : Fin 31} (h : k.sfr i = k'.sfr i') : k = k' ∧ i = i' := by
  cases k <;> cases k' <;> cases h <;> exact ⟨rfl, rfl⟩

/-- Settles O41: SFR_ADDR is injective, and a FIFO's register names its kind and its FIFO. -/
theorem fifoLookupsAreDistinct : Obligations.FifoLookupsAreDistinct := by
  refine ⟨fun p h => Params.sfrAddrOk_default h, fun p k n a hok ha => ?_⟩
  obtain ⟨i, rfl, rfl⟩ := sfrAddrOf_of_fifoRegAddress ha
  refine ⟨fun k' n' ha' => ?_, fun r hr e => hr k i (hok.distinct _ _ e), hok.fifoNotReserved k i, ?_⟩
  · obtain ⟨i', rfl, he⟩ := sfrAddrOf_of_fifoRegAddress ha'
    obtain ⟨rfl, rfl⟩ := FifoReg.sfr_inj (hok.distinct _ _ he)
    exact ⟨rfl, rfl⟩
  · have hram : ¬ InRamWindow (p.sfrAddrOf (k.sfr i)) := hok.notRam _
    omega

/-- A call that nothing refuses runs. -/
theorem runCall_of_accepted {c : Call} {s : State} (h : callRefusal c s = none) : runCall c s = .next (callNext c s) := by
  rw [runCall, h]

/-- Settles O40: the formula is that of the default table, and a lookup answers from its index alone. -/
theorem fifoLookupsFollowTheFormula : Obligations.FifoLookupsFollowTheFormula := by
  refine ⟨fun p n h h1 h31 => ?_, fun p k n h => fifoRegAddress_out p k (by omega),
    fun s k n => ⟨fifoAddress_state k n s, ?_, fun h => ?_⟩⟩
  · obtain ⟨i, rfl⟩ := exists_fifo_of_index ⟨h1, h31⟩
    simp only [fifoRegAddress_succ, Params.sfrAddrOf_default h]
    exact ⟨rfl, rfl, rfl⟩
  · rintro i rfl
    exact (runCall_of_accepted rfl).trans (congrArg _ (Op.finish_ok (fifoAddress_in k (i.val + 1) s ⟨by omega, by omega⟩)))
  · exact (runCall_of_accepted rfl).trans (congrArg _ (Op.finish_err (fifoAddress_out k n s (by omega))))

/-! ### The RAM bounds (R64, R65) -/

theorem ramOk_iff {p : Params} {addr len : Nat} :
    ramOk p addr len = true ↔ 0x400 ≤ addr ∧ addr + len ≤ p.ramBound.limit := by simp [ramOk]

/-- Settles O34: the two limits, and the check that comes before the frame. -/
theorem ramBoundsComeBeforeTheBus : Obligations.RamBoundsComeBeforeTheBus := by
  refine ⟨fun p addr len h => ?_, fun p addr len h => ?_, fun s addr buf ho h => ?_, fun s addr bytes ho h => ?_⟩
  · rw [ramOk_iff, h]; rfl
  · rw [ramOk_iff, h]; rfl
  · rw [runCall_of_accepted (by simp [callRefusal, ho, Call.settable]), callNext, callReadRam, readRam_out h]
    rfl
  · rw [runCall_of_accepted (by simp [callRefusal, ho, Call.settable]), callNext, Op.finish_err (writeRam_out h)]
    rfl

/-! ### The default parameters -/

/-- Whichever of the opcodes left the two OPEN ones are, the five are distinct (R92; log 5). -/
theorem opcodesDistinct_of_choice (c : Fin 13 × Fin 12) :
    ([0x0, 0x3, 0x2, opReadSfrOf c, opWriteSfrOf c] : List Opcode).Nodup := by
  revert c
  decide +kernel

theorem codesOk_default : Params.default.CodesOk := by constructor <;> decide

theorem regLayoutOk_default : Params.default.RegLayoutOk where
  inWord T := by cases T <;> decide
  apart T := by cases T <;> decide +kernel
  fsize := by decide
  priority := by decide
  flags T := by cases T <;> decide +kernel
  codes := codesOk_default

theorem hdrLayoutOk_default : Params.default.HdrLayoutOk := by
  intro k
  cases k <;> decide +kernel

/-- Settles O3: the OPEN opcodes for every choice of them, the tables row by row. -/
theorem defaultParametersAreWellFormed : Obligations.DefaultParametersAreWellFormed where
  opcodes := opcodesDistinct_of_choice Config.freeSfrOpcodes
  sfrAddr := Params.sfrAddrOk_default rfl
  regLayout := regLayoutOk_default
  hdrLayout := hdrLayoutOk_default

end Sys2Proof
end

section
/-! PROOFS. What the operations of a Controller may put on its bus (spec/20_memory.md R51 to R53, R64; spec/30_encoding.md R95, R102). -/

namespace Sys2Proof.Machine

open Sys2Proof

/-- The relation of a state to the one an operation of the Controller leaves, for what R53 says of them: nothing is appended to the
trace but events of the Controller's operations, and the parameters, the host's calls and the other Controllers are as before. -/
structure Reaches (s t : State) : Prop where
  cfg : t.cfg = s.cfg
  requests : t.requests = s.requests
  others : t.others = s.others
  trace : ∃ evs, t.trace = s.trace ++ evs ∧ ∀ e ∈ evs, e.ByController s.cfg

theorem Reaches.refl (s : State) : Reaches s s := ⟨rfl, rfl, rfl, [], by simp, by simp⟩

theorem Reaches.trans {s t u : State} (h : Reaches s t) (k : Reaches t u) : Reaches s u := by
  obtain ⟨e1, ht, h1⟩ := h.trace
  obtain ⟨e2, hu, h2⟩ := k.trace
  rw [h.cfg] at h2
  exact ⟨k.cfg.trans h.cfg, k.requests.trans h.requests, k.others.trans h.others, e1 ++ e2,
    by rw [hu, ht, List.append_assoc], List.forall_mem_append.2 ⟨h1, h2⟩⟩

/-- Such a state is still one of Controllers that reach nothing else. -/
theorem State.ControllerOnly.of_reaches {s t : State} (hs : s.ControllerOnly) (h : Reaches s t) : t.ControllerOnly where
  noFrame bytes := h.requests ▸ hs.noFrame bytes
  traces := by
    obtain ⟨evs, ht, hevs⟩ := h.trace
    have hline : ∀ e ∈ t.line.trace, e.ByController s.cfg := by
      rw [line_trace, ht]
      exact List.forall_mem_append.2 ⟨hs.traces s.line List.mem_cons_self, hevs⟩
    rw [h.cfg, State.lines, h.others]
    exact List.forall_mem_cons.2 ⟨hline, fun l hl => hs.traces l (List.mem_cons_of_mem _ hl)⟩

/-- The edges of `cs_ready` send nothing. -/
theorem readyEvents_byController (l : Level) (p : Params) : ∀ e ∈ readyEvents l, e.ByController p := by
  cases l <;> simp [readyEvents, Event.ByController]

/-- A frame's edges send nothing, so what it appends is the Controller's when its primitive call is. -/
theorem FrameRun.reaches {s t : State} {sent : List Byte} {ev : Event} (h : FrameRun s t sent ev)
    (he : ev.ByController s.cfg) : Reaches s t :=
  ⟨h.host.cfg, h.host.requests, h.host.others, _, h.trace, List.forall_mem_append.2 ⟨readyEvents_byController _ _,
    List.forall_mem_cons.2 ⟨he, List.forall_mem_singleton.2 trivial⟩⟩⟩

theorem frameRead_reaches {op : Opcode} {a : Addr} {n : Nat} {s : State}
    (h : ∀ r, (Event.transfer (readFrameBytes op a n) r).ByController s.cfg) : Reaches s (frameRead op a n s).2 := by
  rcases frameRead_spec op a n s with ⟨b, t, -, -, he, hr⟩ | ⟨k, t, -, he, hr⟩ <;> rw [he] <;> exact hr.reaches (h _)

theorem frameWrite_reaches {op : Opcode} {a : Addr} {p : List Byte} {s : State}
    (h : ∀ ok, (Event.write (writeFrameBytes op a p) ok).ByController s.cfg) : Reaches s (frameWrite op a p s).2 := by
  rcases frameWrite_spec op a p s with ⟨b, t, -, he, hr⟩ | ⟨k, t, -, he, hr⟩ <;> rw [he] <;> exact hr.reaches (h _)

theorem delayUs_reaches (n : Nat) (s : State) : Reaches s (delayUs n s) :=
  ⟨rfl, rfl, rfl, [.delay n], rfl, List.forall_mem_singleton.2 trivial⟩

/-- What follows an operation may use that it succeeded, and that the parameters are the same. -/
theorem Op.bind_reaches {ε α β : Type} {m : Op ε α} {k : α → Op ε β} {s : State} (h : Reaches s (m s).2)
    (hk : ∀ a t, m s = (.ok a, t) → t.cfg = s.cfg → Reaches t (k a t).2) : Reaches s (Op.bind m k s).2 := by
  cases hm : m s with
  | mk r t =>
    rw [hm] at h
    cases r with
    | ok a => rw [Op.bind_ok hm]; exact h.trans (hk a t hm h.cfg)
    | err e => rw [Op.bind_err hm]; exact h

/-! ### Registers: every address is an enumerated SFR's (R51) -/

section

variable {a : Addr} {s : State} (ha : ∃ r, a = s.cfg.sfrAddrOf r)

include ha

theorem readRegAt_reaches : Reaches s (readRegAt a s).2 := by
  obtain ⟨r, rfl⟩ := ha
  unfold readRegAt
  rw [Op.map_state]
  exact frameRead_reaches fun _ => .inl ⟨r, rfl⟩

theorem writeRegAt_reaches (v : Word) : Reaches s (writeRegAt a v s).2 := by
  obtain ⟨r, rfl⟩ := ha
  exact frameWrite_reaches fun _ => .inr (.inl ⟨r, v, rfl⟩)

theorem modifyRegAt_reaches (f : Word → Word) : Reaches s (modifyRegAt a f s).2 :=
  Op.bind_reaches (readRegAt_reaches ha) fun v _ _ hc => writeRegAt_reaches (hc ▸ ha) (f v)

end

theorem readSfr_reaches (r : Sfr) (s : State) : Reaches s (readSfr r s).2 := readRegAt_reaches ⟨r, rfl⟩

theorem writeSfr_reaches (r : Sfr) (v : Word) (s : State) : Reaches s (writeSfr r v s).2 := writeRegAt_reaches ⟨r, rfl⟩ v

theorem modifySfr_reaches (r : FixedReg) (f : RegWord r.reg → RegWord r.reg) (s : State) :
    Reaches s (modifySfr r f s).2 := modifyRegAt_reaches ⟨r.sfr, rfl⟩ _

/-- `reset_chip` sends RESET's word at 0x000 alone (R95, R133). -/
theorem resetChip_reaches (s : State) : Reaches s (resetChip s).2 :=
  frameWrite_reaches fun _ => .inl (List.append_nil _)

/-- An address that a FIFO lookup returns is that of the FIFO's register (R169). -/
theorem fifoAddress_ok {k : FifoReg} {n : Nat} {s t : State} {a : Addr} (h : fifoAddress k n s = (.ok a, t)) :
    ∃ r, a = t.cfg.sfrAddrOf r := by
  by_cases hn : 1 ≤ n ∧ n ≤ 31
  · rw [fifoAddress_in k n s hn] at h
    cases h
    exact ⟨_, rfl⟩
  · rw [fifoAddress_out k n s hn] at h
    cases h

theorem fifoAddress_reaches (k : FifoReg) (n : Nat) (s : State) : Reaches s (fifoAddress k n s).2 :=
  (fifoAddress_state k n s).symm ▸ Reaches.refl s

theorem readFifo_reaches (k : FifoReg) (n : Nat) (s : State) : Reaches s (readFifo k n s).2 :=
  Op.bind_reaches (fifoAddress_reaches k n s) fun _ _ h _ => by
    rw [Op.map_state]; exact readRegAt_reaches (fifoAddress_ok h)

theorem modifyFifo_reaches (k : FifoReg) (n : Nat) (f : RegWord k.reg → RegWord k.reg) (s : State) :
    Reaches s (modifyFifo k n f s).2 :=
  Op.bind_reaches (fifoAddress_reaches k n s) fun _ _ h _ => by
    rw [Op.map_state]; exact modifyRegAt_reaches (fifoAddress_ok h) _

theorem enableTef_reaches (count : BitVec 4) (s : State) : Reaches s (enableTef count s).2 :=
  Op.bind_reaches (modifySfr_reaches _ _ s) fun _ _ _ _ =>
    Op.bind_reaches (readSfr_reaches _ _) fun _ _ _ _ => writeSfr_reaches _ _ _

/-! ### RAM: the bounds are checked before the frame (R64, R65) -/

/-- An access that `ram_ok` admits ends at 0xC00 at most, so its start is an address as it is (R50). -/
theorem toNat_ofNat_of_ramOk {p : Params} {addr len : Nat} (h : ramOk p addr len = true) :
    (BitVec.ofNat 12 addr).toNat = addr := by
  have hlimit : p.ramBound.limit ≤ 0xC00 := by cases p.ramBound <;> decide
  obtain ⟨-, hend⟩ := ramOk_iff.1 h
  rw [BitVec.toNat_ofNat]
  omega

theorem readRam_reaches (addr : Nat) (buf : List Byte) (s : State) : Reaches s (readRam addr buf s).2 := by
  cases h : ramOk s.cfg addr buf.length with
  | false => rw [readRam_out h]; exact Reaches.refl s
  | true =>
    have hev : ∀ r, (Event.transfer (readFrameBytes s.cfg.opRead (BitVec.ofNat 12 addr) buf.length) r).ByController
        s.cfg := fun _ => .inr ⟨_, _, by rwa [toNat_ofNat_of_ramOk h], rfl⟩
    rcases readRam_in h with ⟨b, t, -, -, he, hr⟩ | ⟨k, any, t, -, -, he, hr⟩ <;> rw [he] <;> exact hr.reaches (hev _)

theorem writeRam_reaches (addr : Nat) (bytes : List Byte) (s : State) : Reaches s (writeRam addr bytes s).2 := by
  cases h : ramOk s.cfg addr bytes.length with
  | false => rw [writeRam_out h]; exact Reaches.refl s
  | true =>
    have hev : ∀ ok, (Event.write (writeFrameBytes s.cfg.opWrite (BitVec.ofNat 12 addr) bytes) ok).ByController s.cfg :=
      fun _ => .inr (.inr ⟨_, _, by rwa [toNat_ofNat_of_ramOk h], rfl⟩)
    rcases writeRam_in h with ⟨b, t, -, he, hr⟩ | ⟨k, t, -, he, hr⟩ <;> rw [he] <;> exact hr.reaches (hev _)

/-! ### The sequencer (R301) -/

theorem pollConfigMode_reaches (attempt : Nat) (s : State) : Reaches s (pollConfigMode attempt s).2 := by
  have h := readSfr_reaches .c1con s
  unfold pollConfigMode
  rcases hr : readSfr .c1con s with ⟨r, t⟩
  rw [hr] at h
  dsimp only
  split_ifs
  · exact h
  · exact h.trans (delayUs_reaches _ _)
  · exact h

theorem pollPll_reaches (attempt : Nat) (s : State) : Reaches s (pollPll attempt s).2 := by
  have h := readSfr_reaches .osc s
  unfold pollPll
  rcases hr : readSfr .osc s with ⟨r, t⟩
  rw [hr] at h
  dsimp only
  split_ifs
  · exact h
  · exact h.trans (delayUs_reaches _ _)
  · exact h

theorem verifyBit_reaches (bit : Nat) (s : State) : Reaches s (verifyBit bit s).2 := by
  have hwrite := writeRam_reaches echoAddr (echoPattern s.cfg bit) s
  unfold verifyBit
  rcases hw : writeRam echoAddr (echoPattern s.cfg bit) s with ⟨_ | _, t⟩ <;> rw [hw] at hwrite
  case err => exact hwrite
  have hread := hwrite.trans (readRam_reaches echoAddr [0, 0, 0, 0] t)
  dsimp only
  rcases hb : readRam echoAddr [0, 0, 0, 0] t with ⟨⟨_ | _, buf⟩, u⟩ <;> rw [hb] at hread
  case err => exact hread
  dsimp only
  split_ifs <;> exact hread

theorem reconcile_reaches (inUse : Bool) (s : State) : Reaches s (reconcile inUse s).2 :=
  Op.bind_reaches (readSfr_reaches _ _) fun _ _ _ _ => by
    split
    · exact writeSfr_reaches _ _ _
    · exact Reaches.refl _

theorem txQueueFrames_reaches (q : TxqSettings) (s : State) : Reaches s (txQueueFrames q s).2 :=
  Op.bind_reaches (modifySfr_reaches _ _ s) fun _ _ _ _ =>
    Op.bind_reaches (by
      split
      · exact modifySfr_reaches _ _ _
      · exact Reaches.refl _) fun _ _ _ _ => reconcile_reaches _ _

/-- Every transition of the sequencer goes through the Controller's operations (R53). -/
theorem seqTransition_reaches (settings : Settings) (phase : SeqPhase) (s : State) :
    Reaches s (seqTransition settings phase s).2 := by
  cases phase with
  | unconfigured | configured | failed => exact Reaches.refl s
  | requestingConfigMode => unfold seqTransition requestConfigMode; rw [nextPhase_state]; exact modifySfr_reaches _ _ s
  | awaitingConfigMode attempt => exact pollConfigMode_reaches attempt s
  | verifyingComms bit => exact verifyBit_reaches bit s
  | programmingOscillator => unfold seqTransition programOscillator; rw [nextPhase_state]; exact modifySfr_reaches _ _ s
  | awaitingPll attempt => exact pollPll_reaches attempt s
  | programmingIo => unfold seqTransition programIo; rw [nextPhase_state]; exact writeSfr_reaches _ _ s
  | programmingTxQueue => unfold seqTransition programTxQueue; rw [nextPhase_state]; exact txQueueFrames_reaches _ s

/-! ### Calls -/

theorem reply_reaches {s u : State} (h : Reaches s u) (r : Reply) : Reaches s (u.reply r) :=
  ⟨h.cfg, h.requests, h.others, h.trace⟩

theorem Op.finish_reaches {ε α : Type} {m : Op ε α} {s : State} (h : Reaches s (m s).2) (f : α → Value) (g : ε → Error) :
    Reaches s (Op.finish m f g s) := by
  obtain ⟨r, he⟩ := Op.finish_eq m f g s
  exact he ▸ reply_reaches h _

theorem callModifySfr_reaches (r : FixedReg) (f : List (Update r.reg)) (s : State) : Reaches s (callModifySfr r f s) := by
  unfold callModifySfr
  split
  · exact reply_reaches (Reaches.refl s) _
  · exact Op.finish_reaches (modifySfr_reaches _ _ s) _ _

theorem callModifyFifo_reaches (k : FifoReg) (n : Nat) (f : List (Update k.reg)) (s : State) :
    Reaches s (callModifyFifo k n f s) := by
  unfold callModifyFifo
  split
  · exact reply_reaches (Reaches.refl s) _
  · exact Op.finish_reaches (modifyFifo_reaches _ _ _ s) _ _

theorem callReadRam_reaches (addr : Nat) (buf : List Byte) (s : State) : Reaches s (callReadRam addr buf s) := by
  have h := readRam_reaches addr buf s
  unfold callReadRam
  rcases hr : readRam addr buf s with ⟨⟨_ | _, buf'⟩, t⟩ <;> rw [hr] at h <;> exact reply_reaches h _

/-- A release drives select inactive, which sends nothing (R161). -/
theorem release_reaches (s : State) : Reaches s (release s) :=
  ⟨rfl, rfl, rfl, [.pinSet .inactive], rfl, List.forall_mem_singleton.2 trivial⟩

/-- Every call but a construction, which begins a trace. -/
theorem callNext_reaches {c : Call} (hn : ∀ h, c ≠ .new h) (s : State) : Reaches s (callNext c s) := by
  cases c with
  | new h => exact absurd rfl (hn h)
  | free => exact reply_reaches (release_reaches s) _
  | configure settings => exact ⟨rfl, rfl, rfl, (Reaches.refl s).trace⟩
  | resetChip => exact Op.finish_reaches (resetChip_reaches s) _ _
  | readSfr r => exact Op.finish_reaches (readSfr_reaches r s) _ _
  | writeSfr r v => exact Op.finish_reaches (writeSfr_reaches r v s) _ _
  | modifySfr r f => exact callModifySfr_reaches r f s
  | readRam addr buf => exact callReadRam_reaches addr buf s
  | writeRam addr bytes => exact Op.finish_reaches (writeRam_reaches addr bytes s) _ _
  | fifoAddress k n => exact Op.finish_reaches (fifoAddress_reaches k n s) _ _
  | readFifo k n => exact Op.finish_reaches (readFifo_reaches k n s) _ _
  | modifyFifo k n f => exact callModifyFifo_reaches k n f s
  | enableTef count => exact Op.finish_reaches (enableTef_reaches count s) _ _

/-! ### Steps -/

theorem seqNext_reaches (run : SeqRun) (s : State) : Reaches s (seqNext run s) := by
  have h := seqTransition_reaches run.settings run.phase s
  rcases seqNext_cases run s with ⟨r, -, he⟩ | ⟨phase, u, -, ht, -, he⟩
  · rw [he]
    exact ⟨rfl, rfl, rfl, (Reaches.refl s).trace⟩
  · rw [ht] at h
    rw [he]
    exact ⟨h.cfg, h.requests, h.others, h.trace⟩

/-- Taking the first of the host's calls leaves the rest of them, and the traces. -/
theorem State.ControllerOnly.tail {s : State} {q : Request} {rest : List Request} (hs : s.ControllerOnly)
    (hr : s.requests = q :: rest) : State.ControllerOnly { s with requests := rest } where
  noFrame bytes hb := hs.noFrame bytes (hr ▸ List.mem_cons_of_mem q hb)
  traces := hs.traces

/-- A construction begins a trace with an edge, which sends nothing, and only moves the other Controllers. -/
theorem State.ControllerOnly.construct {s : State} (hs : s.ControllerOnly) (h : Handles) :
    (Machine.construct h s).ControllerOnly where
  noFrame bytes := (construct_requests h s).symm ▸ hs.noFrame bytes
  traces := by
    rw [construct_cfg]
    refine List.forall_mem_cons.2 ⟨List.forall_mem_singleton.2 trivial, fun l hl => ?_⟩
    exact hs.traces l (mem_lines_of_focus_others (by rwa [construct_others] at hl))

/-- A turn to a Controller that exists only moves the Controllers. -/
theorem State.ControllerOnly.focus {s : State} (hs : s.ControllerOnly) {h : Handles} (hc : s.hasController h = true) :
    (s.focus h).ControllerOnly where
  noFrame bytes := (focus_requests h s).symm ▸ hs.noFrame bytes
  traces := by
    rw [focus_cfg]
    exact List.forall_mem_cons.2 ⟨hs.traces _ (focus_line_mem_lines hc), fun l hl =>
      hs.traces l (mem_lines_of_focus_others hl)⟩

/-- Settles O31: every step but a raw frame's runs operations of the Controller, begins a trace, or moves the Controllers. -/
theorem controllerReachesOnlySfrsAndRam : Obligations.ControllerReachesOnlySfrsAndRam := by
  intro s t hs h
  rcases step_cases h with ⟨run, -, -, rfl⟩ | ⟨-, -, rfl⟩ | ⟨bytes, rest, i, -, hr, -, -⟩ | ⟨c, rest, -, hr, he⟩ |
    ⟨g, rest, -, hr, hg, rfl⟩
  · exact hs.of_reaches (seqNext_reaches run s)
  · exact hs
  · exact absurd (hr ▸ List.mem_cons_self) (hs.noFrame bytes)
  · obtain ⟨-, rfl⟩ := runCall_next he
    by_cases hn : ∃ g, c = .new g
    · obtain ⟨g, rfl⟩ := hn
      exact ((hs.tail hr).construct g).of_reaches (reply_reaches (Reaches.refl _) _)
    · exact (hs.tail hr).of_reaches (callNext_reaches (fun g hg => hn ⟨g, hg⟩) _)
  · exact (hs.tail hr).focus hg

end Sys2Proof.Machine
end

section
/-! PROOFS. The reference stub against the five instructions: what a frame leaves in its array, and what a frame clocks in
(spec/20_memory.md R59, R77). -/

namespace Sys2Proof.Machine

open Sys2Proof

/-! ### The array after a frame -/

/-- A read frame is on the wire what a write frame of zeros is (R140, R141). -/
theorem readFrameBytes_eq (op : Opcode) (a : Addr) (n : Nat) :
    readFrameBytes op a n = writeFrameBytes op a (List.replicate n 0) := rfl

/-- A read frame leaves the array as its first bytes do: all of them, or those that were sent when it failed. -/
theorem frameRead_mem (op : Opcode) (a : Addr) (n : Nat) (s : State) :
    ∃ k, (frameRead op a n s).2.mem = memAfter s ((writeFrameBytes op a (List.replicate n 0)).take k) := by
  rcases frameRead_spec op a n s with ⟨b, t, -, -, he, hr⟩ | ⟨k, t, -, he, hr⟩ <;> rw [he, ← readFrameBytes_eq]
  · exact ⟨_, hr.mem.trans (congrArg _ (List.take_length).symm)⟩
  · exact ⟨k, hr.mem⟩

theorem frameWrite_mem (op : Opcode) (a : Addr) (p : List Byte) (s : State) :
    ∃ k, (frameWrite op a p s).2.mem = memAfter s ((writeFrameBytes op a p).take k) := by
  rcases frameWrite_spec op a p s with ⟨b, t, -, he, hr⟩ | ⟨k, t, -, he, hr⟩ <;> rw [he]
  · exact ⟨_, hr.mem.trans (congrArg _ (List.take_length).symm)⟩
  · exact ⟨k, hr.mem⟩

@[simp] theorem Op.finish_mem {ε α : Type} (m : Op ε α) (f : α → Value) (g : ε → Error) (s : State) :
    (Op.finish m f g s).mem = (m s).2.mem := by
  obtain ⟨r, he⟩ := Op.finish_eq m f g s
  rw [he, reply_mem]

/-- An opcode that stores nothing leaves the array as it was, however much of its frame the stub got. -/
theorem memAfter_take_of_not_stores (s : State) {op : Opcode} (h : op ≠ s.cfg.opWrite ∧ op ≠ s.cfg.opWriteSfr) (a : Addr)
    (p : List Byte) (k : Nat) : memAfter s ((writeFrameBytes op a p).take k) = s.mem := by
  have hstores : stubStores s.cfg (wireWord (be16 (encodeWord op a))) = false := by simp [stubStores, h]
  unfold memAfter
  split
  · rw [stubReceive_take_writeFrame, stubReceive_payload_loads _ _ _ _ le_rfl hstores]
  · rfl

/-- Whatever the opcode, a frame changes no byte but those its payload is meant for, however much of it the stub got. -/
theorem get_memAfter_take_of_ne {s : State} (hm : Memory.wf s.mem) (op : Opcode) (a : Addr) {p : List Byte} (k : Nat) {x : Nat}
    (hx : ∀ j, j < p.length → x ≠ (a.toNat + j) % 4096) :
    Memory.get (memAfter s ((writeFrameBytes op a p).take k)) x = Memory.get s.mem x := by
  unfold memAfter
  split
  · exact get_stubReceive_take_writeFrame_other hm a op fun j hj _ => hx j hj
  · rfl

/-- A whole storing frame leaves each byte of its payload at its address. -/
theorem get_memAfter_of_stub {s : State} (henv : s.env = .stub) (hm : Memory.wf s.mem) {op : Opcode}
    (hop : op = s.cfg.opWrite ∨ op = s.cfg.opWriteSfr) (a : Addr) {p : List Byte} (hl : p.length ≤ 4096) {k : Nat}
    (hk : k < p.length) : Memory.get (memAfter s (writeFrameBytes op a p)) ((a.toNat + k) % 4096) = p.getD k 0 := by
  have hstores : stubStores s.cfg (wireWord (be16 (encodeWord op a))) = true := by simpa [stubStores] using hop
  have hwhole : (writeFrameBytes op a p).take (p.length + 2) = writeFrameBytes op a p := List.take_of_length_le (by simp)
  have hreceive : memAfter s (writeFrameBytes op a p) = stubReceive s.cfg s.mem (be16 (encodeWord op a)) p := by
    simp only [memAfter, henv]
    rw [← hwhole, stubReceive_take_writeFrame, Nat.add_sub_cancel, List.take_length]
  rw [hreceive, ← stubAddr_payload op, stubReceive_payload_stored s.cfg p s.mem _ le_rfl hm hstores hl k hk]

/-! ### The stub's answer -/

/-- The stub never fails (R77). -/
theorem envAnswer_of_stub {s : State} (henv : s.env = .stub) (hs : s.script = []) (out : List Byte) :
    envAnswer s out = .ok (stubAnswer s.cfg s.mem s.wire out) := by simp only [envAnswer, hs, oracleAnswer, henv]

/-- A loading frame clocks in two bytes during its word, then the array's bytes. -/
theorem drop_stubAnswer_readFrame {cfg : Params} {op : Opcode} (hloads : op = cfg.opRead ∨ op = cfg.opReadSfr)
    (hstores : op ≠ cfg.opWrite ∧ op ≠ cfg.opWriteSfr) (m : Memory) (a : Addr) (n : Nat) :
    (stubAnswer cfg m [] (readFrameBytes op a n)).drop 2 =
      (List.range n).map fun k => Memory.get m ((a.toNat + k) % 4096) := by
  have hl : stubLoads cfg (wireWord (be16 (encodeWord op a))) = true := by simpa [stubLoads] using hloads
  have hs : stubStores cfg (wireWord (be16 (encodeWord op a))) = false := by simp [stubStores, hstores]
  have hword : (stubAnswer cfg m [] (readFrameBytes op a n)).drop 2 =
      stubAnswer cfg m (be16 (encodeWord op a)) (List.replicate n 0) := by
    simp [readFrameBytes, be16, stubAnswer, stubStore]
  rw [hword, stubAnswer_payload cfg _ m _ le_rfl hl hs, List.length_replicate]
  simp only [stubAddr_payload]

section

variable {s : State} (henv : s.env = .stub) (hs : s.script = []) {op : Opcode} (a : Addr)

include henv hs

theorem frameRead_stub (hloads : op = s.cfg.opRead ∨ op = s.cfg.opReadSfr)
    (hstores : op ≠ s.cfg.opWrite ∧ op ≠ s.cfg.opWriteSfr) (n : Nat) :
    ∃ t, frameRead op a n s = (.ok ((List.range n).map fun k => Memory.get s.mem ((a.toNat + k) % 4096)), t) ∧
      t.replies = s.replies := by
  have hx := envAnswer_of_stub ((csReady_env s).trans henv) ((csReady_script s).trans hs) (readFrameBytes op a n)
  rcases frameRead_spec op a n s with ⟨b, t, hv, -, he, hr⟩ | ⟨k, t, hv, -, -⟩ <;> cases hx.symm.trans hv
  rw [csReady_cfg, csReady_mem, csReady_wire, drop_stubAnswer_readFrame hloads hstores] at he
  exact ⟨t, he, hr.host.replies⟩

theorem frameWrite_stub (p : List Byte) :
    ∃ t, frameWrite op a p s = (.ok (), t) ∧ t.replies = s.replies ∧ t.mem = memAfter s (writeFrameBytes op a p) := by
  have hx := envAnswer_of_stub ((csReady_env s).trans henv) ((csReady_script s).trans hs) (writeFrameBytes op a p)
  rcases frameWrite_spec op a p s with ⟨b, t, -, he, hr⟩ | ⟨k, t, hv, -, -⟩
  · exact ⟨t, he, hr.host.replies, hr.mem⟩
  · cases hx.symm.trans hv

end

/-! ### The obligations -/

/-- Which of five distinct opcodes the stub stores for: neither RESET's nor those it answers from its array (R77, R92). -/
theorem opcodes_not_stores {p : Params} (h : p.OpcodesDistinct) :
    (p.opReset ≠ p.opWrite ∧ p.opReset ≠ p.opWriteSfr) ∧ (p.opRead ≠ p.opWrite ∧ p.opRead ≠ p.opWriteSfr) ∧
      (p.opReadSfr ≠ p.opWrite ∧ p.opReadSfr ≠ p.opWriteSfr) := by
  simp only [List.nodup_cons, List.mem_cons, List.not_mem_nil, not_or] at h
  tauto

/-- Settles O20: none of the three frames carries a storing opcode. -/
theorem loadsAndResetKeepEveryByte : Obligations.LoadsAndResetKeepEveryByte := by
  intro s t hd
  obtain ⟨hreset, hread, hreadSfr⟩ := opcodes_not_stores hd
  refine ⟨fun a h x => ?_, fun a n h x => ?_, fun a h x => ?_⟩
  · obtain ⟨-, rfl⟩ := withController_next.1 h
    obtain ⟨k, hk⟩ := frameWrite_mem s.cfg.opReset a [] s
    rw [Op.finish_mem, hk, memAfter_take_of_not_stores s hreset]
  · obtain ⟨-, rfl⟩ := withController_next.1 h
    obtain ⟨k, hk⟩ := frameRead_mem s.cfg.opRead a n s
    rw [Op.finish_mem, hk, memAfter_take_of_not_stores s hread]
  · obtain ⟨-, -, rfl⟩ := withRegisterOnly_next.1 h
    obtain ⟨k, hk⟩ := frameRead_mem s.cfg.opReadSfr a 4 s
    rw [Op.finish_mem, hk, memAfter_take_of_not_stores s hreadSfr]

/-- Settles O21: both send a write frame, and a frame changes its payload's bytes alone. -/
theorem storesKeepEveryOtherByte : Obligations.StoresKeepEveryOtherByte := by
  intro s t hm
  refine ⟨fun a p h x hx => ?_, fun a v h x hx => ?_⟩
  · obtain ⟨-, rfl⟩ := withController_next.1 h
    obtain ⟨k, hk⟩ := frameWrite_mem s.cfg.opWrite a p s
    rw [Op.finish_mem, hk, get_memAfter_take_of_ne hm _ a k hx]
  · obtain ⟨-, -, rfl⟩ := withRegisterOnly_next.1 h
    obtain ⟨k, hk⟩ := frameWrite_mem s.cfg.opWriteSfr a (le32 v) s
    rw [Op.finish_mem, hk, get_memAfter_take_of_ne hm _ a k (by rwa [le32_length])]

/-- Settles O22: the stub takes the whole frame, whose opcode stores. -/
theorem stubStoresThePayload : Obligations.StubStoresThePayload := by
  intro s ho henv hs hm
  refine ⟨fun a p hl => ?_, fun hreg a v => ?_⟩
  · obtain ⟨u, he, hrep, hmem⟩ := frameWrite_stub henv hs a (op := s.cfg.opWrite) p
    refine ⟨_, withController_of_owned ho _, ?_, fun k hk => ?_⟩
    · rw [Op.finish_ok he, reply_replies, hrep]
    · rw [Op.finish_mem, he, hmem, get_memAfter_of_stub henv hm (.inl rfl) a hl hk]
  · obtain ⟨u, he, hrep, hmem⟩ := frameWrite_stub henv hs a (op := s.cfg.opWriteSfr) (le32 v)
    refine ⟨_, withRegisterOnly_of_owned ho hreg _, ?_, fun k hk => ?_⟩
    · rw [Op.finish_ok he, reply_replies, hrep]
    · rw [Op.finish_mem, he, hmem, get_memAfter_of_stub henv hm (.inr rfl) a (by simp) hk]

/-- Settles O23: the stub answers a loading frame from its array, and the frame's result drops the two bytes of the word. -/
theorem stubReturnsItsBytes : Obligations.StubReturnsItsBytes := by
  intro s ho henv hs hd
  obtain ⟨-, hread, hreadSfr⟩ := opcodes_not_stores hd
  refine ⟨fun a n => ?_, fun hreg a => ?_⟩
  · obtain ⟨u, he, hrep⟩ := frameRead_stub henv hs a (.inl rfl) hread n
    exact ⟨_, withController_of_owned ho _, by rw [Op.finish_ok he, reply_replies, hrep]⟩
  · obtain ⟨u, he, hrep⟩ := frameRead_stub henv hs a (.inr rfl) hreadSfr 4
    exact ⟨_, withRegisterOnly_of_owned ho hreg _, by rw [Op.finish_ok he, reply_replies, hrep]⟩

end Sys2Proof.Machine
end

section
/-! PROOFS. A step takes nothing back from a Controller (spec/10_state.md R29, R39; spec/20_memory.md R69). -/

namespace Sys2Proof.Machine

open Sys2Proof

/-- A Controller later on: on the same handles, before the same oracle, with nothing of its trace taken back. -/
def Line.ExtendedBy (l m : Line) : Prop := m.handles = l.handles ∧ m.env = l.env ∧ l.trace <+: m.trace

theorem Line.extendedBy_self (l : Line) : l.ExtendedBy l := ⟨rfl, rfl, List.prefix_rfl⟩

/-- When the Controller in use is extended and the others stay, every Controller is extended. -/
theorem lines_extendedBy {s t : State} (hline : s.line.ExtendedBy t.line) (hothers : t.others = s.others) {l : Line}
    (hl : l ∈ s.lines) : ∃ m ∈ t.lines, l.ExtendedBy m := by
  rcases List.mem_cons.1 hl with rfl | hl
  · exact ⟨t.line, List.mem_cons_self, hline⟩
  · exact ⟨l, List.mem_cons_of_mem _ (hothers ▸ hl), l.extendedBy_self⟩

theorem Quiet.lines_extendedBy {s t : State} (h : Quiet s t) {l : Line} (hl : l ∈ s.lines) :
    ∃ m ∈ t.lines, l.ExtendedBy m := by
  obtain ⟨evs, ht, -, -⟩ := h.trace
  exact Machine.lines_extendedBy ⟨h.host.handles, h.host.env, evs, ht.symm⟩ h.host.others hl

/-- A call extends every Controller but the one on the handles that it constructs on. -/
theorem callNext_extendedBy {c : Call} {s : State} {l : Line} (hl : l ∈ s.lines) (hn : c ≠ .new l.handles) :
    ∃ m ∈ (callNext c s).lines, l.ExtendedBy m := by
  rcases callNext_cases c s with ⟨h, rfl⟩ | rfl | ⟨x, rfl⟩ | ⟨u, r, hq, he⟩
  · exact ⟨l, mem_lines_construct hl fun e => hn (e ▸ rfl), l.extendedBy_self⟩
  · exact lines_extendedBy (s := s) (t := callNext .free s) ⟨rfl, rfl, List.prefix_append _ _⟩ rfl hl
  · exact ⟨l, hl, l.extendedBy_self⟩
  · exact he ▸ hq.lines_extendedBy hl

/-- A step extends every Controller but the one on the handles that it constructs on. -/
theorem step_extendedBy {s t : State} (hd : s.lines.Pairwise fun l m => l.handles ≠ m.handles) (h : step s = .next t)
    {l : Line} (hl : l ∈ s.lines) (hn : ∀ rest, s.requests ≠ .call (.new l.handles) :: rest) :
    ∃ m ∈ t.lines, l.ExtendedBy m := by
  rcases step_cases h with ⟨run, -, -, rfl⟩ | ⟨-, -, rfl⟩ | ⟨bytes, rest, i, -, -, -, he⟩ | ⟨c, rest, -, hr, he⟩ |
    ⟨g, rest, -, -, hg, rfl⟩
  · rcases seqNext_cases run s with ⟨r, -, e⟩ | ⟨phase, u, -, -, hq, e⟩
    · exact ⟨l, e ▸ hl, l.extendedBy_self⟩
    · exact e ▸ hq.lines_extendedBy hl
  · exact ⟨l, hl, l.extendedBy_self⟩
  · obtain ⟨u, r, hq, rfl⟩ := exec_quiet he
    exact hq.lines_extendedBy (s := { s with requests := rest }) hl
  · obtain ⟨-, rfl⟩ := runCall_next he
    exact callNext_extendedBy (s := { s with requests := rest }) hl fun e => hn rest (e ▸ hr)
  · exact ⟨l, (mem_lines_focus_iff (s := { s with requests := rest }) hd hg).2 hl, l.extendedBy_self⟩

/-- Settles O32: what a step does to the host's part, and to each Controller. -/
theorem stepOnlyAppends : Obligations.StepOnlyAppends := by
  intro s t hd h
  obtain ⟨hcfg, hreplies, hrequests⟩ := step_host h
  exact ⟨hcfg, hreplies, hrequests, fun l hl hn => step_extendedBy hd h hl hn⟩

end Sys2Proof.Machine
end

section
/-! PROOFS. The instruction word and the frame, encoded and decoded (spec/30_encoding.md R90 to R99), the values that
a setter does not take (spec/42_register_fields.md R202, R223), and the words a step emits (R103). -/

namespace Sys2Proof

/-! ### The word -/

/-- The word as arithmetic (R91). -/
theorem toNat_encodeWord (op : Opcode) (a : Addr) : (encodeWord op a).toNat = op.toNat * 0x1000 + a.toNat := by
  have hop : op.toNat < 2 ^ 4 := op.isLt
  have ha : a.toNat < 2 ^ 12 := a.isLt
  rw [encodeWord, BitVec.toNat_or, BitVec.toNat_shiftLeft, BitVec.toNat_setWidth_of_le (by decide),
    BitVec.toNat_setWidth_of_le (by decide), Nat.shiftLeft_eq, Nat.mod_eq_of_lt (by omega), ← Nat.shiftLeft_eq,
    ← Nat.shiftLeft_add_eq_or_of_lt ha, Nat.shiftLeft_eq]

theorem toNat_wordOpcode (w : BitVec 16) : (wordOpcode w).toNat = w.toNat / 0x1000 := by
  have hw : w.toNat < 2 ^ 16 := w.isLt
  rw [wordOpcode, BitVec.extractLsb'_toNat, Nat.shiftRight_eq_div_pow]
  omega

theorem toNat_wordAddr (w : BitVec 16) : (wordAddr w).toNat = w.toNat % 0x1000 := by
  rw [wordAddr, BitVec.extractLsb'_toNat, Nat.shiftRight_zero]

/-- A word is its two fields (R90). -/
@[simp] theorem encodeWord_fields (w : BitVec 16) : encodeWord (wordOpcode w) (wordAddr w) = w := by
  refine BitVec.eq_of_toNat_eq ?_
  rw [toNat_encodeWord, toNat_wordOpcode, toNat_wordAddr]
  omega

theorem encodeWord_inj {op op' : Opcode} {a a' : Addr} (h : encodeWord op a = encodeWord op' a') : op = op' ∧ a = a' := by
  have hop := congrArg wordOpcode h
  have haddr := congrArg wordAddr h
  rw [wordOpcode_encodeWord, wordOpcode_encodeWord] at hop
  rw [wordAddr_encodeWord, wordAddr_encodeWord] at haddr
  exact ⟨hop, haddr⟩

theorem be16_fromBE16 (b0 b1 : Byte) : be16 (fromBE16 b0 b1) = [b0, b1] := by
  rw [be16, fromBE16, BitVec.extractLsb'_append_eq_left, BitVec.extractLsb'_append_eq_right]

/-- Settles O10: the formula is the definition's, and the word gives its two fields back. -/
theorem encodeWordIsInjective : Obligations.EncodeWordIsInjective :=
  ⟨fun _ _ => rfl, fun _ _ _ _ => encodeWord_inj⟩

/-! ### The word decoder -/

/-- What the word of an instruction is (R97). -/
def Instr.wordClass : Instr → WordClass
  | .reset a => .reset a
  | .read a _ => .read a
  | .write a _ => .write a
  | .readSfr a => .readSfr a
  | .writeSfr a _ => .writeSfr a

/-- Everything the word decoder can answer: the first of the five opcodes that the word has decides, and no other does (R97). -/
theorem decodeWord_cases (p : Params) (w : BitVec 16) :
    (wordOpcode w = p.opReset ∧ decodeWord p w = .reset (wordAddr w)) ∨
    (wordOpcode w = p.opRead ∧ decodeWord p w = .read (wordAddr w)) ∨
    (wordOpcode w = p.opWrite ∧ decodeWord p w = .write (wordAddr w)) ∨
    (wordOpcode w = p.opReadSfr ∧ decodeWord p w = .readSfr (wordAddr w)) ∨
    (wordOpcode w = p.opWriteSfr ∧ decodeWord p w = .writeSfr (wordAddr w)) ∨
    (wordOpcode w ∉ [p.opReset, p.opRead, p.opWrite, p.opReadSfr, p.opWriteSfr] ∧
      decodeWord p w = .notEmitted (wordOpcode w) (wordAddr w)) := by
  simp only [decodeWord]
  split_ifs <;> simp [*]

/-- A word of an instruction's class has its opcode and its address. -/
theorem word_of_decodeWord {p : Params} {w : BitVec 16} {i : Instr} (h : decodeWord p w = i.wordClass) :
    w = encodeWord (i.opcode p) i.addr := by
  have fields : wordOpcode w = i.opcode p ∧ wordAddr w = i.addr := by
    rcases decodeWord_cases p w with ⟨hop, hd⟩ | ⟨hop, hd⟩ | ⟨hop, hd⟩ | ⟨hop, hd⟩ | ⟨hop, hd⟩ | ⟨-, hd⟩ <;>
      rw [hd] at h
    all_goals cases i <;> cases h
    all_goals exact ⟨hop, rfl⟩
  rw [← fields.1, ← fields.2, encodeWord_fields]

theorem Params.OpcodesDistinct.reverse {p : Params} (hp : p.OpcodesDistinct) :
    [p.opWriteSfr, p.opReadSfr, p.opWrite, p.opRead, p.opReset].Nodup := List.nodup_reverse.2 hp

/-- No two of the five opcodes are one, so each word has its own instruction's class (R92, R97). -/
theorem decodeWord_encodeWord {p : Params} (hp : p.OpcodesDistinct) (i : Instr) :
    decodeWord p (encodeWord (i.opcode p) i.addr) = i.wordClass := by
  have later := hp.reverse
  simp only [List.nodup_cons, List.mem_cons, List.not_mem_nil, not_or] at later
  cases i <;> simp [decodeWord, Instr.opcode, Instr.addr, Instr.wordClass, later]

theorem decodeWord_eq_notEmitted_iff {p : Params} {w : BitVec 16} {c : Opcode} {a : Addr} :
    decodeWord p w = .notEmitted c a ↔
      wordOpcode w ∉ [p.opReset, p.opRead, p.opWrite, p.opReadSfr, p.opWriteSfr] ∧ c = wordOpcode w ∧ a = wordAddr w := by
  rcases decodeWord_cases p w with ⟨hop, hd⟩ | ⟨hop, hd⟩ | ⟨hop, hd⟩ | ⟨hop, hd⟩ | ⟨hop, hd⟩ | ⟨hop, hd⟩
  case inr.inr.inr.inr.inr => simp [hd, hop, eq_comm]
  all_goals simp [hd, hop]

/-! ### The frame decoder -/

/-- A frame's payload bytes are those of the instruction: as many, of READ and READ_SFR, whose host bytes are dummies (log 11),
and the same ones of the others, which send them. -/
def Instr.HasPayload (i : Instr) (rest : List Byte) : Prop :=
  match i with
  | .read _ _ | .readSfr _ => i.payload.length = rest.length
  | .reset _ | .write _ _ | .writeSfr _ _ => i.payload = rest

theorem Instr.hasPayload_self (i : Instr) : i.HasPayload i.payload := by cases i <;> rfl

theorem Instr.HasPayload.length_eq {i : Instr} {rest : List Byte} (h : i.HasPayload rest) : i.payload.length = rest.length := by
  cases i with
  | read a n | readSfr a => exact h
  | reset a | write a bytes | writeSfr a v => exact congrArg List.length h

/-- A frame with an instruction's word and payload decodes to it. -/
theorem decodeFrame_of_word {p : Params} {w : BitVec 16} {rest : List Byte} {i : Instr} (hw : decodeWord p w = i.wordClass)
    (hr : i.HasPayload rest) : decodeFrame p w rest = .ok i := by
  unfold decodeFrame
  rw [hw]
  cases i with
  | reset a => cases hr; rfl
  | read a n => exact congrArg (Except.ok ∘ Instr.read a) (hr.symm.trans List.length_replicate)
  | write a bytes => cases hr; rfl
  | readSfr a => exact if_pos hr.symm
  | writeSfr a v => cases hr; simp [Instr.wordClass, Instr.payload]

/-- The only instruction a frame can decode to has its word and its payload (R96, R97). -/
theorem word_of_decodeFrame {p : Params} {w : BitVec 16} {rest : List Byte} {i : Instr} (h : decodeFrame p w rest = .ok i) :
    decodeWord p w = i.wordClass ∧ i.HasPayload rest := by
  unfold decodeFrame at h
  split at h
  case h_1 a hw => split at h <;> cases h; exact ⟨hw, (List.length_eq_zero_iff.1 ‹_›).symm⟩
  case h_2 a hw => cases h; exact ⟨hw, List.length_replicate⟩
  case h_3 a hw => cases h; exact ⟨hw, rfl⟩
  case h_4 a hw => split at h <;> cases h; exact ⟨hw, Eq.symm ‹_›⟩
  case h_5 a hw => split at h <;> cases h; exact ⟨hw, le32_fromLE32 rest ‹_›⟩
  case h_6 => cases h

theorem decode_encode {p : Params} (hp : p.OpcodesDistinct) (i : Instr) : decode p (encode p i) = .ok i := by
  have hframe : decode p (encode p i) = decodeFrame p (encodeWord (i.opcode p) i.addr) i.payload :=
    congrArg (decodeFrame p · i.payload) (fromBE16_be16 _)
  exact hframe.trans (decodeFrame_of_word (decodeWord_encodeWord hp i) i.hasPayload_self)

/-- Settles O8: the frame's word is of its instruction's class, and its payload is the instruction's. -/
theorem decodeInvertsEncode : Obligations.DecodeInvertsEncode := fun _ hp =>
  ⟨decode_encode hp, fun a => ⟨decodeWord_encodeWord hp (.reset a), decodeWord_encodeWord hp (.read a 0),
    decodeWord_encodeWord hp (.write a []), decodeWord_encodeWord hp (.readSfr a), decodeWord_encodeWord hp (.writeSfr a 0)⟩⟩

/-- What a frame decodes to is encoded with the frame's own word, and with its payload as the instruction has it. -/
theorem encode_of_decode {p : Params} {bytes : List Byte} {i : Instr} (h : decode p bytes = .ok i) :
    ∃ b0 b1 rest, bytes = b0 :: b1 :: rest ∧ encode p i = b0 :: b1 :: i.payload ∧ i.HasPayload rest := by
  match bytes, h with
  | b0 :: b1 :: rest, h =>
    obtain ⟨hw, hr⟩ := word_of_decodeFrame h
    exact ⟨b0, b1, rest, rfl, by rw [encode, ← word_of_decodeWord hw, be16_fromBE16]; rfl, hr⟩

/-- Settles O9: both frames are the same word and a payload of the instruction. -/
theorem encodeInvertsDecode : Obligations.EncodeInvertsDecode := by
  intro p bytes i h
  obtain ⟨b0, b1, rest, rfl, he, hr⟩ := encode_of_decode h
  refine ⟨by rw [he, List.length_cons, List.length_cons, hr.length_eq]; rfl, by rw [he]; rfl, ?_⟩
  cases i with
  | read a n | readSfr a => trivial
  | reset a | write a payload | writeSfr a v => exact he.trans (congrArg (b0 :: b1 :: ·) hr)

/-! ### Rejected frames -/

section

variable {p : Params} {w : BitVec 16} {rest : List Byte}

theorem decodeFrame_eq_notEmitted_iff {c : Opcode} {a : Addr} :
    decodeFrame p w rest = .error (.notEmitted c a) ↔ decodeWord p w = .notEmitted c a := by
  unfold decodeFrame
  cases decodeWord p w with
  | reset b | readSfr b | writeSfr b => dsimp only; split <;> simp
  | read b | write b | notEmitted d b => simp

theorem decodeFrame_ne_truncated : decodeFrame p w rest ≠ .error .truncated := by
  unfold decodeFrame
  cases decodeWord p w with
  | reset b | readSfr b | writeSfr b => dsimp only; split <;> simp
  | read b | write b | notEmitted d b => simp

/-- The three instructions whose payload has one length (R96). -/
theorem decodeFrame_eq_payloadLength_iff (hp : p.OpcodesDistinct) {n : Nat} :
    decodeFrame p w rest = .error (.payloadLength n) ↔ n = rest.length ∧ (wordOpcode w = p.opReset ∧ n ≠ 0 ∨
      wordOpcode w ∈ [p.opReadSfr, p.opWriteSfr] ∧ n ≠ 4) := by
  have wrongLength (k : Nat) (i : Instr) : (if rest.length = k then .ok i else .error (.payloadLength rest.length)) =
      (.error (.payloadLength n) : Except DecodeError Instr) ↔ n = rest.length ∧ n ≠ k := by
    split_ifs with h
    · exact iff_of_false nofun fun ⟨hn, hk⟩ => hk (hn.trans h)
    · simp only [Except.error.injEq, DecodeError.payloadLength.injEq]
      exact ⟨fun hn => ⟨hn.symm, hn ▸ h⟩, fun hn => hn.1.symm⟩
  have later := hp.reverse
  simp only [List.nodup_cons, List.mem_cons, List.not_mem_nil, not_or] at hp later
  rcases decodeWord_cases p w with ⟨hop, hd⟩ | ⟨hop, hd⟩ | ⟨hop, hd⟩ | ⟨hop, hd⟩ | ⟨hop, hd⟩ | ⟨hop, hd⟩ <;>
    simp only [decodeFrame, hd, wrongLength, List.mem_cons, List.not_mem_nil, or_false]
  case inr.inr.inr.inr.inr =>
    simp only [List.mem_cons, List.not_mem_nil, not_or] at hop
    simp [hop]
  all_goals simp [hop, hp, later]

end

/-- Settles O11: the word decides NotEmitted, and the payload's length is looked at where it is fixed. -/
theorem decodeRejectsByName : Obligations.DecodeRejectsByName := by
  intro p b0 b1 rest
  have notEmitted (c : Opcode) (a : Addr) : decode p (b0 :: b1 :: rest) = .error (.notEmitted c a) ↔
      wordOpcode (fromBE16 b0 b1) ∉ [p.opReset, p.opRead, p.opWrite, p.opReadSfr, p.opWriteSfr] ∧
      c = wordOpcode (fromBE16 b0 b1) ∧ a = wordAddr (fromBE16 b0 b1) :=
    decodeFrame_eq_notEmitted_iff.trans decodeWord_eq_notEmitted_iff
  refine ⟨⟨fun ⟨c, a, h⟩ => ((notEmitted c a).1 h).1, fun h => ⟨_, _, (notEmitted _ _).2 ⟨h, rfl, rfl⟩⟩⟩,
    fun c a h => ((notEmitted c a).1 h).2, fun hp _ => decodeFrame_eq_payloadLength_iff hp, decodeFrame_ne_truncated, rfl, rfl⟩

/-- Settles O7: RESET, READ and WRITE have the default opcodes, which come first; the OPEN two are chosen. -/
theorem specWordsDecode : Obligations.SpecWordsDecode := ⟨rfl, rfl, rfl, rfl, rfl, rfl, rfl, rfl⟩

/-! ### Operands and values out of range -/

theorem encodeWord?_of_fits {op addr : Nat} (hop : op < 16) (haddr : addr < 0x1000) :
    encodeWord? op addr = some (encodeWord (BitVec.ofNat 4 op) (BitVec.ofNat 12 addr)) := by
  simp [encodeWord?, narrow?, hop, haddr]

theorem encodeWord?_eq_none_iff {op addr : Nat} : encodeWord? op addr = none ↔ 16 ≤ op ∨ 0x1000 ≤ addr := by
  by_cases hop : op < 16
  · by_cases haddr : addr < 0x1000
    · simp [encodeWord?_of_fits hop haddr, hop, haddr]
    · simp [encodeWord?, narrow?, hop, haddr]; omega
  · simp [encodeWord?, narrow?, hop]; omega

/-- A number that fits is placed unchanged (R99). -/
theorem fields_of_encodeWord? {op addr : Nat} {w : BitVec 16} (h : encodeWord? op addr = some w) :
    (wordOpcode w).toNat = op ∧ (wordAddr w).toNat = addr ∧ w.toNat = op * 0x1000 + addr := by
  have hfits : ¬ (16 ≤ op ∨ 0x1000 ≤ addr) := fun hout => by
    rw [encodeWord?_eq_none_iff.2 hout] at h; cases h
  have hop : op < 2 ^ 4 := by omega
  have haddr : addr < 2 ^ 12 := by omega
  rw [encodeWord?_of_fits hop haddr] at h
  cases h
  rw [wordOpcode_encodeWord, wordAddr_encodeWord, toNat_encodeWord, BitVec.toNat_ofNat, BitVec.toNat_ofNat,
    Nat.mod_eq_of_lt hop, Nat.mod_eq_of_lt haddr]
  exact ⟨rfl, rfl, rfl⟩

/-- A number is refused exactly when it is wider than its field (R202). -/
theorem settable_field_eq_false_iff {p : Params} {T : RegType} {f : RegField T} {v : Nat} :
    Update.settable p (.field f v) = false ↔ 2 ^ f.width p ≤ v := decide_eq_false_iff_not.trans Nat.not_lt

/-- A size is refused exactly when it is not the fallback and its code is left out (R212, R223). -/
theorem PayloadSize.settable_eq_false_iff {p : Params} {v : PayloadSize} :
    PayloadSize.settable p v = false ↔ v ≠ .bytes8 ∧ PayloadSize.mapped p (PayloadSize.code p v) = false :=
  Bool.or_eq_false_iff.trans (and_congr_left' beq_eq_false_iff_ne)

end Sys2Proof

namespace Sys2Proof.Machine

open Sys2Proof

/-! ### Refused calls -/

theorem runCall_of_refusal {c : Call} {s : State} {r : Refusal} (h : callRefusal c s = some r) : runCall c s = .refused r := by
  simp only [runCall, h]

section

variable {s : State} (ho : s.owned = true)

include ho

theorem runCall_modifySfr_notSettable {q : FixedReg} {us : List (Update q.reg)}
    (h : ∃ u ∈ us, Update.settable s.cfg u = false) : runCall (.modifySfr q us) s = .refused .notSettable :=
  runCall_of_refusal (by simp [callRefusal, ho, Call.settable, h])

theorem runCall_modifyFifo_notSettable {k : FifoReg} {n : Nat} {us : List (Update k.reg)}
    (h : ∃ u ∈ us, Update.settable s.cfg u = false) : runCall (.modifyFifo k n us) s = .refused .notSettable :=
  runCall_of_refusal (by simp [callRefusal, ho, Call.settable, h])

end

/-- Settles O12: the word's boundary, the refusal of a list with a bad setter, and which setters are bad, form by form. -/
theorem outOfRangeOperandsAreRefused : Obligations.OutOfRangeOperandsAreRefused :=
  ⟨fun _ _ => ⟨encodeWord?_eq_none_iff, fun _ => fields_of_encodeWord?⟩,
    fun _ _ _ ho => runCall_modifySfr_notSettable ho, fun _ _ _ _ ho => runCall_modifyFifo_notSettable ho,
    fun _ => ⟨fun _ _ _ => settable_field_eq_false_iff, fun _ => ⟨Iff.rfl, Iff.rfl⟩,
      fun _ => ⟨PayloadSize.settable_eq_false_iff, PayloadSize.settable_eq_false_iff⟩, fun _ _ => rfl,
      fun _ => rfl, fun _ => rfl, fun _ => rfl, fun _ => rfl, fun _ => rfl, fun _ => rfl, fun _ => rfl⟩⟩

/-! ### The step -/

/-- Settles O30: a step appends whole frames of the five instructions, begins a trace with an edge, or leaves it. -/
theorem stepEmitsOnlyInstructions : Obligations.StepEmitsOnlyInstructions := by
  intro s t hs h l hl e he
  rw [(step_host h).1]
  rcases step_lines h hl with hm | ⟨-, ht⟩ | ⟨-, evs, ht, -, hi⟩
  · exact hs l hm e he
  · rw [ht] at he
    cases List.mem_singleton.1 he
    trivial
  · rw [ht] at he
    exact (List.mem_append.1 he).elim (hs s.line List.mem_cons_self e) (hi e)

end Sys2Proof.Machine
end

section
/-! PROOFS. The chip-select edges and the five SPI instructions: what each sends, returns and leaves alone
(spec/40_spi_instructions.md R130 to R141), and the invariant that every step keeps (R136, R37, R39, R50). -/

namespace Sys2Proof.Machine

open Sys2Proof

/-! ### The chip-select edges -/

/-- Settles O6: the ready edge has two shapes, by the level found, and the reset edge has one. -/
theorem chipSelectEdges : Obligations.ChipSelectEdges := by
  refine ⟨fun s hc => ?_, fun s hc => csReady_inactive s hc, fun _ => rfl⟩
  rw [csReady_active s hc]
  simp [pinSet, State.log]

/-! ### The frame of an instruction -/

/-- Settles O19: an instruction is one frame, which touches no field of the host's, and one reply. -/
theorem instructionsLeaveTheRestUnchanged : Obligations.InstructionsLeaveTheRestUnchanged := by
  intro i s t h
  obtain ⟨-, sent, ev, u, r, hr, rfl⟩ := exec_frame h
  have hreplies : (u.reply (.done r)).replies = s.replies ++ [.done r] := by rw [reply_replies, hr.host.replies]
  have hmem : s.env = .any → u.mem = s.mem := fun henv => by rw [hr.mem, memAfter, henv]
  exact ⟨hr.host.cfg, hr.host.owned, hr.host.handles, hr.host.others, hr.host.requests, hr.host.seq, hr.host.env, hr.cs,
    hr.wire, hr.script, ⟨r, hreplies⟩, hmem⟩

/-! ### A frame and its result -/

/-- A read frame, finished: its events, and the bytes clocked in after the word, or SPIRead with no partial result
(R140, R136, R138). -/
theorem finish_frameRead (op : Opcode) (a : Addr) (n : Nat) (f : List Byte → Value) (s : State) :
    let r := (envAnswer (csReady s) (readFrameBytes op a n)).bytesIn
    let t := Op.finish (frameRead op a n) f TransportError.toError s
    t.cs = .inactive ∧ t.trace = s.trace ++ readEvents s.cs (readFrameBytes op a n) r ∧
      match r with
      | some bytesIn => bytesIn.length = n + 2 ∧ t.replies = s.replies ++ [.done (.ok (f (bytesIn.drop 2)))]
      | none => t.replies = s.replies ++ [.done (.err .spiRead)] := by
  rcases frameRead_spec op a n s with ⟨bytesIn, u, hv, hl, he, hr⟩ | ⟨k, u, hv, he, hr⟩
  · rw [hv, Op.finish_ok he]
    exact ⟨hr.cs, hr.trace, hl, congrArg (· ++ _) hr.host.replies⟩
  · rw [hv, Op.finish_err he]
    exact ⟨hr.cs, hr.trace, congrArg (· ++ _) hr.host.replies⟩

/-- A write frame that returns no value, finished: its events, and Ok or SPIWrite (R141, R136, R138). -/
theorem finish_frameWrite (op : Opcode) (a : Addr) (p : List Byte) (s : State) :
    let ok := (envAnswer (csReady s) (writeFrameBytes op a p)).succeeded
    let t := Op.finish (frameWrite op a p) (fun _ => .unit) TransportError.toError s
    t.cs = .inactive ∧ t.trace = s.trace ++ writeEvents s.cs (writeFrameBytes op a p) ok ∧
      t.replies = s.replies ++ [.done (if ok then .ok .unit else .err .spiWrite)] := by
  rcases frameWrite_spec op a p s with ⟨bytesIn, u, hv, he, hr⟩ | ⟨k, u, hv, he, hr⟩
  · rw [hv, Op.finish_ok he]
    exact ⟨hr.cs, hr.trace, congrArg (· ++ _) hr.host.replies⟩
  · rw [hv, Op.finish_err he]
    exact ⟨hr.cs, hr.trace, congrArg (· ++ _) hr.host.replies⟩

/-- A frame with no payload is the word alone (R133). -/
theorem writeFrameBytes_nil (op : Opcode) (a : Addr) : writeFrameBytes op a [] = be16 (encodeWord op a) :=
  List.append_nil _

theorem withRegisterOnly_of_combined {s : State} (ho : s.owned = true) (hc : s.cfg.sfrOpcodes = .combined) (next : State) :
    withRegisterOnly s next = .refused .notRegisterOnly := by simp [withRegisterOnly, hc, ho]

/-! ### The five instructions -/

/-- Settles O14: READ is one read frame, whose result is the payload as it came in. -/
theorem readReturnsThePayload : Obligations.ReadReturnsThePayload := fun s a n ho =>
  ⟨_, withController_of_owned ho _, finish_frameRead s.cfg.opRead a n .bytes s⟩

/-- Settles O15: READ_SFR is one read frame of 4 payload bytes, whose result is their word. -/
theorem readSfrReturnsTheWord : Obligations.ReadSfrReturnsTheWord := fun s a ho =>
  ⟨fun hreg => ⟨_, withRegisterOnly_of_owned ho hreg _,
      finish_frameRead s.cfg.opReadSfr a 4 (fun bytes => .word (fromLE32 bytes)) s⟩,
    fun hcomb => withRegisterOnly_of_combined ho hcomb _⟩

/-- Settles O16: WRITE is one write frame with the payload as it was given. -/
theorem writeSendsThePayload : Obligations.WriteSendsThePayload := fun s a p ho =>
  ⟨_, withController_of_owned ho _, finish_frameWrite s.cfg.opWrite a p s⟩

/-- Settles O17: WRITE_SFR is one write frame whose payload is `LE32` of the value. -/
theorem writeSfrSendsTheValue : Obligations.WriteSfrSendsTheValue := fun s a v ho =>
  ⟨fun hreg => ⟨_, withRegisterOnly_of_owned ho hreg _, finish_frameWrite s.cfg.opWriteSfr a (le32 v) s⟩,
    fun hcomb => withRegisterOnly_of_combined ho hcomb _⟩

/-- `reset_chip` and RESET at address 0x000 are the same frame, and want the same Controller (R133, R95). -/
theorem runCall_resetChip (s : State) : runCall .resetChip s = exec (.reset 0x000) s := by
  cases ho : s.owned with
  | true => exact (runCall_of_accepted (by simp [callRefusal, ho, Call.settable])).trans (withController_of_owned ho _).symm
  | false =>
    have hexec : exec (.reset 0x000) s = .refused .controllerReleased := by simp [exec, execReset, withController, ho]
    exact (runCall_of_refusal (by simp [callRefusal, ho])).trans hexec.symm

/-- Settles O18: RESET is one write frame with no payload, and like every instruction leaves the ownership. -/
theorem resetSendsTheWordAlone : Obligations.ResetSendsTheWordAlone := by
  refine ⟨fun s a ho => ?_, runCall_resetChip⟩
  have hexec : exec (.reset a) s = .next _ := withController_of_owned ho _
  obtain ⟨-, howned, -⟩ := instructionsLeaveTheRestUnchanged _ _ _ hexec
  obtain ⟨hcs, htrace, hreplies⟩ := finish_frameWrite s.cfg.opReset a [] s
  rw [writeFrameBytes_nil] at htrace hreplies
  exact ⟨_, hexec, hcs, howned.trans ho, htrace, hreplies⟩

/-! ### The invariant -/

namespace State.Inv

variable {s t : State}

/-- The Controller in use may change, as long as it is idle, on the same handles and not newly constructed. -/
theorem of_line (hs : s.Inv) (hidle : t.line.Idle) (hhandles : t.handles = s.handles)
    (howned : t.owned = true → s.owned = true) (hothers : t.others = s.others) (hseq : t.seq.isSome = true → t.owned = true) :
    t.Inv where
  idle := List.forall_mem_cons.2 ⟨hidle, hothers ▸ (List.forall_mem_cons.1 hs.idle).2⟩
  distinct := by
    obtain ⟨hline, hrest⟩ := List.pairwise_cons.1 hs.distinct
    refine List.pairwise_cons.2 (hothers ▸ ⟨fun m hm => ?_, hrest⟩)
    rw [line_handles, hhandles]
    exact hline m hm
  exclusive := by
    obtain ⟨hline, hrest⟩ := List.pairwise_cons.1 hs.exclusive
    refine List.pairwise_cons.2 (hothers ▸ ⟨fun m hm hl hm' => ?_, hrest⟩)
    rw [line_handles, hhandles]
    exact hline m hm (howned hl) hm'
  seqOwned := hseq

/-- The Controller in use is idle. -/
theorem line_idle (hs : s.Inv) : s.line.Idle := hs.idle s.line List.mem_cons_self

/-- A quiet operation leaves the line inactive, and touches nothing else that the invariant speaks of. -/
theorem of_quiet (hs : s.Inv) (h : Quiet s t) : t.Inv :=
  hs.of_line ⟨h.cs hs.line_idle.csInactive, h.wire hs.line_idle.wireEmpty, h.mem hs.line_idle.memWf⟩ h.host.handles
    (fun ho => h.host.owned ▸ ho) h.host.others fun hq => h.host.owned ▸ hs.seqOwned (h.host.seq ▸ hq)

/-- The invariant does not look at the host's calls, nor at its results. -/
theorem withRequests (hs : s.Inv) (rest : List Request) : State.Inv { s with requests := rest } :=
  ⟨hs.idle, hs.distinct, hs.exclusive, hs.seqOwned⟩

theorem reply (hs : s.Inv) (r : Reply) : (s.reply r).Inv := ⟨hs.idle, hs.distinct, hs.exclusive, hs.seqOwned⟩

/-- A `configure()` may begin, go on or end where a Controller exists. -/
theorem withSeq (hs : s.Inv) (ho : s.owned = true) (seq : Option SeqRun) : State.Inv { s with seq := seq } :=
  ⟨hs.idle, hs.distinct, hs.exclusive, fun _ => ho⟩

/-- Releasing ends the Controller, and leaves its line idle (R161). -/
theorem release (hs : s.Inv) (hq : s.seq = none) : (Machine.release s).Inv :=
  hs.of_line ⟨rfl, rfl, hs.line_idle.memWf⟩ rfl nofun rfl fun hseq => by rw [release_seq, hq] at hseq; cases hseq

/-- A turn to other handles only moves the Controllers, and is made between two operations (R345). -/
theorem focus (hs : s.Inv) (hq : s.seq = none) (h : Handles) : (s.focus h).Inv where
  idle := focus_idle hs.idle h
  distinct := focus_distinct hs.distinct h
  exclusive := focus_exclusive hs.exclusive h
  seqOwned hseq := by rw [focus_seq, hq] at hseq; cases hseq

/-- A construction takes handles of which no Controller holds the bus or the pin (R39). -/
theorem construct (hs : s.Inv) {h : Handles} (hh : s.holds h = false) : (Machine.construct h s).Inv where
  idle := by
    obtain ⟨hline, hrest⟩ := List.forall_mem_cons.1 (focus_idle hs.idle h)
    exact List.forall_mem_cons.2 ⟨⟨rfl, rfl, hline.memWf⟩, hrest⟩
  distinct := List.pairwise_cons.2 (List.pairwise_cons.1 (focus_distinct hs.distinct h))
  exclusive := by
    obtain ⟨-, hrest⟩ := List.pairwise_cons.1 (focus_exclusive hs.exclusive h)
    refine List.pairwise_cons.2 ⟨fun m hm _ ho => ?_, hrest⟩
    have hfree : ¬ (m.handles.bus = h.bus ∨ m.handles.pin = h.pin) := fun hx => by
      have := holds_iff.2 ⟨m, mem_lines_of_focus_others hm, ho, hx⟩
      rw [hh] at this; cases this
    rw [line_handles, construct_handles]
    exact ⟨fun e => hfree (.inl e.symm), fun e => hfree (.inr e.symm)⟩
  seqOwned _ := construct_owned h s

end State.Inv

/-- The host makes a call when no `configure()` is in progress (R22). -/
theorem callNext_inv {c : Call} {s : State} (hs : s.Inv) (hq : s.seq = none) (hc : callRefusal c s = none) :
    (callNext c s).Inv := by
  rcases callNext_cases c s with ⟨h, rfl⟩ | rfl | ⟨x, rfl⟩ | ⟨u, r, hu, he⟩
  · have hh : s.holds h = false := by simpa [callRefusal] using hc
    exact (hs.construct hh).reply _
  · exact (hs.release hq).reply _
  · exact hs.withSeq (owned_of_callRefusal hc nofun nofun) _
  · exact he ▸ (hs.of_quiet hu).reply r

theorem seqNext_inv {run : SeqRun} {s : State} (hs : s.Inv) (ho : s.owned = true) : (seqNext run s).Inv := by
  rcases seqNext_cases run s with ⟨r, -, he⟩ | ⟨phase, u, -, -, hu, he⟩
  · exact he ▸ (hs.reply r).withSeq ho _
  · exact he ▸ (hs.of_quiet hu).withSeq (hu.host.owned.trans ho) _

/-- Settles O28: a step is a transition of the sequencer, nothing, an instruction, a call or a turn, and each keeps the invariant. -/
theorem stepKeepsTheInvariant : Obligations.StepKeepsTheInvariant := by
  intro s t hs h
  rcases step_cases h with ⟨run, -, ho, rfl⟩ | ⟨-, -, rfl⟩ | ⟨bytes, rest, i, -, -, -, he⟩ | ⟨c, rest, hq, -, he⟩ |
    ⟨g, rest, hq, -, -, rfl⟩
  · exact seqNext_inv hs ho
  · exact hs
  · obtain ⟨u, r, hu, rfl⟩ := exec_quiet he
    exact ((hs.withRequests rest).of_quiet hu).reply r
  · obtain ⟨hc, rfl⟩ := runCall_next he
    exact callNext_inv (hs.withRequests rest) hq hc
  · exact (hs.withRequests rest).focus hq g

end Sys2Proof.Machine
end

section
/-! PROOFS. The Controller's life cycle (spec/41_transactions.md R160, R161; spec/10_state.md R38, R39). -/

namespace Sys2Proof.Machine

open Sys2Proof

/-! ### Calls that need a Controller -/

/-- With a Controller and values its setters accept, every call but a construction runs. -/
theorem runCall_of_owned {c : Call} {s t : State} (ho : s.owned = true) (hn : ∀ h, c ≠ .new h)
    (hset : Call.settable s.cfg c = true) (ht : callNext c s = t) : runCall c s = .next t := by
  subst ht
  refine runCall_of_accepted ?_
  cases c with
  | new h => exact absurd rfl (hn h)
  | fifoAddress k n => rfl
  | _ => simp [callRefusal, ho, hset]

/-- Without one, every call but a construction and the lookups is refused (R161; log 17). -/
theorem runCall_of_released {c : Call} {s : State} (ho : s.owned = false) (hn : ∀ h, c ≠ .new h)
    (hf : ∀ k n, c ≠ .fifoAddress k n) : runCall c s = .refused .controllerReleased := by
  refine runCall_of_refusal ?_
  cases c with
  | new h => exact absurd rfl (hn h)
  | fifoAddress k n => exact absurd rfl (hf k n)
  | _ => simp [callRefusal, ho]

theorem withController_of_released {s : State} (ho : s.owned = false) (next : State) :
    withController s next = .refused .controllerReleased := if_neg (by simp [ho])

/-- Whether SFR_OPCODES admits the instruction or not, it wants a Controller first. -/
theorem withRegisterOnly_of_released {s : State} (ho : s.owned = false) (next : State) :
    withRegisterOnly s next = .refused .controllerReleased := by
  unfold withRegisterOnly
  split
  · exact if_neg (by simp [ho])
  · exact withController_of_released ho next

theorem exec_of_released {s : State} (ho : s.owned = false) (i : Instr) : exec i s = .refused .controllerReleased := by
  cases i with
  | reset | read | write => exact withController_of_released ho _
  | readSfr | writeSfr => exact withRegisterOnly_of_released ho _

/-- Settles O5: a release is one idle edge and one reply; without a Controller the ownership check stops the rest. -/
theorem releaseEndsTheController : Obligations.ReleaseEndsTheController :=
  ⟨fun _ ho => ⟨_, runCall_of_owned ho nofun rfl rfl, rfl, rfl, rfl, rfl, rfl, rfl, rfl, rfl, rfl, rfl, rfl, rfl, rfl, rfl⟩,
    fun _ i ho => exec_of_released ho i, fun _ _ ho hn hf => runCall_of_released ho hn hf⟩

/-! ### Construction -/

theorem runCall_new_of_held {s : State} {h : Handles} (hh : s.holds h = true) :
    runCall (.new h) s = .refused .handlesHeld := runCall_of_refusal (by simp [callRefusal, hh])

theorem runCall_new_of_free {s : State} {h : Handles} (hh : s.holds h = false) :
    runCall (.new h) s = .next ((construct h s).reply (.done (.ok (.controller h)))) :=
  runCall_of_accepted (by simp [callRefusal, hh])

theorem holds_eq_false_iff {s : State} {h : Handles} :
    s.holds h = false ↔ ∀ l ∈ s.lines, l.owned = true → l.handles.bus ≠ h.bus ∧ l.handles.pin ≠ h.pin := by
  simp [← Bool.not_eq_true, holds_iff]

/-- A construction on a chip that is there keeps its array, its oracle, its script and its draws (log 35). -/
theorem construct_keeps_chip {s : State} {h : Handles} {l : Line} (hl : (s.focus h).line = l) :
    (construct h s).mem = l.mem ∧ (construct h s).env = l.env ∧ (construct h s).script = l.script ∧
      (construct h s).draws = l.draws := by
  subst hl
  exact ⟨rfl, rfl, rfl, rfl⟩

/-- Settles O4: the handles decide between refusal and construction, and a turn to them finds the chip that is there. -/
theorem constructionOwnsTheHandles : Obligations.ConstructionOwnsTheHandles := by
  refine fun s h => ⟨fun hheld => runCall_new_of_held (holds_iff.2 hheld), fun hfree => ?_⟩
  refine ⟨_, runCall_new_of_free (holds_eq_false_iff.2 hfree), construct_cs h s, construct_owned h s, construct_handles h s,
    construct_trace h s, congrArg (· ++ _) (construct_replies h s), construct_cfg h s, construct_requests h s,
    construct_seq h s, fun l hl hne => mem_lines_construct hl hne, ?_, ?_⟩
  · rintro rfl
    obtain ⟨hmem, henv, hscript, hdraws⟩ := construct_keeps_chip (congrArg State.line (focus_self s))
    exact ⟨hmem, henv, hscript, hdraws, by rw [reply_others, construct_others, focus_self]⟩
  · rintro hd l hl rfl
    exact construct_keeps_chip (focus_line_eq hd hl)

end Sys2Proof.Machine
end

section
/-! PROOFS. Reads and writes of registers and of RAM, one frame each (spec/41_transactions.md R162, R163, R166 to R171, R174). -/

namespace Sys2Proof.Machine

open Sys2Proof

/-! ### Finishing an operation -/

/-- What the host gets depends only on what the operation did from the state it was called in. -/
theorem Op.finish_congr {ε α : Type} {m m' : Op ε α} {s : State} (h : m s = m' s) (f : α → Value) (g : ε → Error) :
    Op.finish m f g s = Op.finish m' f g s := by simp only [Op.finish, h]

/-- Values and errors may be renamed once or twice. -/
theorem Op.finish_map {ε ε' α β : Type} (f : α → β) (g : ε → ε') (f' : β → Value) (g' : ε' → Error) (m : Op ε α)
    (s : State) : Op.finish (Op.map f g m) f' g' s = Op.finish m (fun a => f' (f a)) (fun e => g' (g e)) s := by
  rcases h : m s with ⟨a | e, t⟩
  · rw [Op.finish_ok h, Op.finish_ok (Op.map_ok h)]
  · rw [Op.finish_err h, Op.finish_err (Op.map_err h)]

/-! ### Registers -/

/-- The opcode pair, as R102 says it. -/
theorem sfrReadOp_eq (p : Params) : sfrReadOp p = if p.sfrOpcodes = .combined then p.opRead else p.opReadSfr := by
  unfold sfrReadOp
  cases p.sfrOpcodes <;> rfl

theorem sfrWriteOp_eq (p : Params) : sfrWriteOp p = if p.sfrOpcodes = .combined then p.opWrite else p.opWriteSfr := by
  unfold sfrWriteOp
  cases p.sfrOpcodes <;> rfl

theorem readRegAt_eq (a : Addr) (s : State) :
    readRegAt a s = Op.map fromLE32 id (frameRead (sfrReadOp s.cfg) a 4) s := rfl

theorem readSfr_eq (q : Sfr) (s : State) : readSfr q s = readRegAt (s.cfg.sfrAddrOf q) s := rfl

theorem writeSfr_eq (q : Sfr) (v : Word) (s : State) :
    writeSfr q v s = frameWrite (sfrWriteOp s.cfg) (s.cfg.sfrAddrOf q) (le32 v) s := rfl

/-- A register read is a read frame of 4 payload bytes, whose result is their word (R66). -/
theorem finish_readRegAt (a : Addr) (v : Word → Value) (s : State) :
    Op.finish (readRegAt a) v TransportError.toError s =
      Op.finish (frameRead (sfrReadOp s.cfg) a 4) (fun bytes => v (fromLE32 bytes)) TransportError.toError s := by
  rw [Op.finish_congr (readRegAt_eq a s), Op.finish_map]
  rfl

theorem runCall_readSfr {s : State} (ho : s.owned = true) (q : Sfr) :
    runCall (.readSfr q) s = .next (Op.finish (frameRead (sfrReadOp s.cfg) (s.cfg.sfrAddrOf q) 4)
      (fun bytes => .word (fromLE32 bytes)) TransportError.toError s) :=
  runCall_of_owned ho nofun rfl (by rw [callNext, Op.finish_congr (readSfr_eq q s), finish_readRegAt])

theorem runCall_writeSfr {s : State} (ho : s.owned = true) (q : Sfr) (v : Word) :
    runCall (.writeSfr q v) s = .next (Op.finish (frameWrite (sfrWriteOp s.cfg) (s.cfg.sfrAddrOf q) (le32 v))
      (fun _ => .unit) TransportError.toError s) :=
  runCall_of_owned ho nofun rfl (by rw [callNext, Op.finish_congr (writeSfr_eq q v s)])

/-- A finished read of a register, as the host sees it: one frame, and its word or SPIRead. -/
theorem finish_frameRead_word (op : Opcode) (a : Addr) (v : Word → Value) (s : State) :
    let r := (envAnswer (csReady s) (readFrameBytes op a 4)).bytesIn
    let t := Op.finish (frameRead op a 4) (fun bytes => v (fromLE32 bytes)) TransportError.toError s
    t.trace = s.trace ++ readEvents s.cs (readFrameBytes op a 4) r ∧
      match r with
      | some bytesIn => t.replies = s.replies ++ [.done (.ok (v (fromLE32 (bytesIn.drop 2))))]
      | none => t.replies = s.replies ++ [.done (.err .spiRead)] := by
  obtain ⟨-, htrace, hreply⟩ := finish_frameRead op a 4 (fun bytes => v (fromLE32 bytes)) s
  refine ⟨htrace, ?_⟩
  cases hv : (envAnswer (csReady s) (readFrameBytes op a 4)).bytesIn with
  | some bytesIn => rw [hv] at hreply; exact hreply.2
  | none => rw [hv] at hreply; exact hreply

/-- Settles O36: each access is the one frame of its opcode at the register's address. -/
theorem sfrAccessesUseTheSelectedOpcodes : Obligations.SfrAccessesUseTheSelectedOpcodes := by
  intro s q ho
  dsimp only
  rw [← sfrReadOp_eq, ← sfrWriteOp_eq]
  refine ⟨⟨_, runCall_readSfr ho q, finish_frameRead_word _ _ .word s⟩, fun v => ⟨_, runCall_writeSfr ho q v, ?_⟩⟩
  exact (finish_frameWrite _ _ (le32 v) s).2

/-! ### FIFO registers -/

theorem fifoAddress_succ (k : FifoReg) (i : Fin 31) (s : State) :
    fifoAddress k (i.val + 1) s = (.ok (s.cfg.sfrAddrOf (k.sfr i)), s) :=
  fifoAddress_in k (i.val + 1) s ⟨by omega, by omega⟩

theorem readFifo_out (k : FifoReg) {n : Nat} (hn : n = 0 ∨ 31 < n) (s : State) :
    readFifo k n s = (.err (.invalidFifo n), s) := Op.bind_err (fifoAddress_out k n s (by omega))

theorem readFifo_succ (k : FifoReg) (i : Fin 31) (s : State) :
    readFifo k (i.val + 1) s =
      Op.map (fun v => ⟨v⟩) TransportError.toError (readRegAt (s.cfg.sfrAddrOf (k.sfr i))) s :=
  Op.bind_ok (fifoAddress_succ k i s)

theorem finish_readFifo_succ (k : FifoReg) (i : Fin 31) (s : State) :
    Op.finish (readFifo k (i.val + 1)) (.reg k.reg) id s =
      Op.finish (frameRead (sfrReadOp s.cfg) (s.cfg.sfrAddrOf (k.sfr i)) 4) (fun bytes => .reg k.reg ⟨fromLE32 bytes⟩)
        TransportError.toError s := by
  rw [Op.finish_congr (readFifo_succ k i s), Op.finish_map]
  exact finish_readRegAt _ _ s

/-- Settles O39: out of range the index check ends the call; in range it is one register read. -/
theorem fifoReadChecksTheIndexFirst : Obligations.FifoReadChecksTheIndexFirst := by
  refine fun s k n ho => ⟨fun hn => runCall_of_owned ho nofun rfl (Op.finish_err (readFifo_out k hn s)), ?_⟩
  · rintro i rfl
    exact ⟨_, runCall_of_owned ho nofun rfl (finish_readFifo_succ k i s), finish_frameRead_word _ _ (fun v => .reg k.reg ⟨v⟩) s⟩

/-! ### RAM -/

theorem runCall_readRam_ok {s t : State} {addr : Nat} {buf buf' : List Byte} (ho : s.owned = true)
    (h : readRam addr buf s = ((.ok (), buf'), t)) :
    runCall (.readRam addr buf) s = .next (t.reply (.readRam (.ok .unit) buf')) :=
  runCall_of_owned ho nofun rfl (by rw [callNext, callReadRam, h])

theorem runCall_readRam_err {s t : State} {addr : Nat} {buf buf' : List Byte} {e : Error} (ho : s.owned = true)
    (h : readRam addr buf s = ((.err e, buf'), t)) :
    runCall (.readRam addr buf) s = .next (t.reply (.readRam (.err e) buf')) :=
  runCall_of_owned ho nofun rfl (by rw [callNext, callReadRam, h])

/-- In bounds `write_ram` is one write frame. -/
theorem runCall_writeRam {s : State} {addr : Nat} {bytes : List Byte} (ho : s.owned = true)
    (h : ramOk s.cfg addr bytes.length = true) :
    runCall (.writeRam addr bytes) s = .next (Op.finish (frameWrite s.cfg.opWrite (BitVec.ofNat 12 addr) bytes)
      (fun _ => .unit) TransportError.toError s) :=
  runCall_of_owned ho nofun rfl ((Op.finish_congr (if_pos h) _ _).trans (Op.finish_map id _ _ _ _ s))

/-- Settles O35: in bounds each access is one frame at its own address, and the read's answer decides the buffer. -/
theorem ramAccessesSendTheirBytes : Obligations.RamAccessesSendTheirBytes := by
  refine ⟨fun s addr buf ho hok => ⟨_, toNat_ofNat_of_ramOk hok, ?_⟩, fun s addr bytes ho hok =>
    ⟨_, toNat_ofNat_of_ramOk hok, _, runCall_writeRam ho hok, (finish_frameWrite _ _ bytes s).2⟩⟩
  dsimp only
  rw [← readFrameBytes]
  rcases readRam_in hok with ⟨bytesIn, t, hv, hl, he, hr⟩ | ⟨k, any, t, hv, hl, he, hr⟩ <;> rw [hv]
  · exact ⟨_, runCall_readRam_ok ho he, hr.trace, hl, congrArg (· ++ _) hr.host.replies⟩
  · exact ⟨_, runCall_readRam_err ho he, hr.trace, any, hl, congrArg (· ++ _) hr.host.replies⟩

end Sys2Proof.Machine
end

section
/-! PROOFS. The modifies: a read frame, and the write frame of the transform of what it clocked in (spec/41_transactions.md R164,
R165, R168, R172, R173, R175; R178). -/

namespace Sys2Proof.Machine

open Sys2Proof

/-! ### A register -/

/-- The read frame of a modify, and its write frame of a word. -/
abbrev modifyReadBytes (s : State) (a : Addr) : List Byte := readFrameBytes (sfrReadOp s.cfg) a 4
abbrev modifyWriteBytes (s : State) (a : Addr) (w : Word) : List Byte := writeFrameBytes (sfrWriteOp s.cfg) a (le32 w)

/-- How the environment answers the write frame, at the state that the read frame left. -/
abbrev modifyWriteOk (s : State) (a : Addr) (w : Word) : Bool :=
  (envAnswer (csReady (readRegAt a s).2) (modifyWriteBytes s a w)).succeeded

section

variable (a : Addr) (f : Word → Word) {s : State}

/-- A modify whose read fails sends that frame alone. -/
theorem modifyRegAt_of_no_answer (h : (envAnswer (csReady s) (modifyReadBytes s a)).bytesIn = none) :
    ∃ t, modifyRegAt a f s = (.err .spiRead, t) ∧ t.trace = s.trace ++ readEvents s.cs (modifyReadBytes s a) none ∧
      t.replies = s.replies := by
  rcases readRegAt_spec a s with ⟨bytesIn, t, hv, -, -, -⟩ | ⟨k, t, -, he, hr⟩
  · rw [hv] at h; cases h
  · exact ⟨t, Op.bind_err he, hr.trace, hr.host.replies⟩

/-- A modify whose read is answered writes the transform of the word read, and the answer to that decides its result. -/
theorem modifyRegAt_of_answer {bytesIn : List Byte}
    (h : (envAnswer (csReady s) (modifyReadBytes s a)).bytesIn = some bytesIn) :
    let w := f (fromLE32 (bytesIn.drop 2))
    bytesIn.length = 6 ∧
      ∃ t, modifyRegAt a f s = (if modifyWriteOk s a w then .ok () else .err .spiWrite, t) ∧
        t.trace = s.trace ++ readEvents s.cs (modifyReadBytes s a) (some bytesIn) ++
          writeEvents .inactive (modifyWriteBytes s a w) (modifyWriteOk s a w) ∧
        t.replies = s.replies := by
  intro w
  rcases readRegAt_spec a s with ⟨b, u, hv, hl, he, hr⟩ | ⟨k, u, hv, -, -⟩ <;> rw [hv] at h <;> cases h
  have hmod : modifyRegAt a f s = writeRegAt a w u := Op.bind_ok he
  have hu : (readRegAt a s).2 = u := congrArg Prod.snd he
  have both : ∀ {t : State} {sent : List Byte} {ok : Bool}, FrameRun u t sent (.write (modifyWriteBytes u a w) ok) →
      t.trace = s.trace ++ readEvents s.cs (modifyReadBytes s a) (some bytesIn) ++
        writeEvents .inactive (modifyWriteBytes u a w) ok ∧ t.replies = s.replies := fun hw =>
    ⟨by rw [hw.trace, hr.trace, hr.cs]; rfl, hw.host.replies.trans hr.host.replies⟩
  refine ⟨hl, ?_⟩
  rw [hmod, modifyWriteOk, modifyWriteBytes, hu, ← hr.host.cfg]
  rcases writeRegAt_spec a w u with ⟨_, t, hv', he', hw⟩ | ⟨_, t, hv', he', hw⟩ <;> rw [hv']
  · exact ⟨t, he', both hw⟩
  · exact ⟨t, he', both hw⟩

end

/-! ### An operation that gives a modify's result -/

section

variable {ε : Type} {m : Op ε Unit} {e : ε} {s t : State} {ok : Bool}

theorem Op.map_of_ite {ε' : Type} (g : ε → ε') (h : m s = (if ok then .ok () else .err e, t)) :
    Op.map id g m s = (if ok then .ok () else .err (g e), t) := by
  cases ok
  · exact Op.map_err h
  · exact Op.map_ok h

theorem Op.finish_of_ite (g : ε → Error) (h : m s = (if ok then .ok () else .err e, t)) :
    Op.finish m (fun _ => .unit) g s = t.reply (.done (if ok then .ok .unit else .err (g e))) := by
  cases ok
  · exact Op.finish_err h
  · exact Op.finish_ok h

end

/-! ### Calls with a list of setters -/

/-- A call that modifies the register at `a` by setters that passed their check, as the environment answers. -/
theorem runCall_modify {c : Call} {s : State} {a : Addr} {T : RegType} {us : List (Update T)}
    (hcheck : checkUpdates s.cfg us = none)
    (hrun : runCall c s = .next (Op.finish (modifyRegAt a fun v => (transformOf s.cfg us ⟨v⟩).bits) (fun _ => .unit)
      TransportError.toError s)) :
    match (envAnswer (csReady s) (modifyReadBytes s a)).bytesIn with
    | none => ∃ t, runCall c s = .next t ∧ t.trace = s.trace ++ readEvents s.cs (modifyReadBytes s a) none ∧
        t.replies = s.replies ++ [.done (.err .spiRead)]
    | some bytesIn =>
      ∃ w t, applyUpdates s.cfg us ⟨fromLE32 (bytesIn.drop 2)⟩ = .ok ⟨w⟩ ∧ runCall c s = .next t ∧
        t.trace = s.trace ++ readEvents s.cs (modifyReadBytes s a) (some bytesIn) ++
          writeEvents .inactive (modifyWriteBytes s a w) (modifyWriteOk s a w) ∧
        t.replies = s.replies ++ [.done (if modifyWriteOk s a w then .ok .unit else .err .spiWrite)] := by
  rw [hrun]
  split
  · next h =>
    obtain ⟨t, he, htrace, hreplies⟩ := modifyRegAt_of_no_answer a _ h
    exact ⟨_, congrArg _ (Op.finish_err he), htrace, congrArg (· ++ _) hreplies⟩
  · next bytesIn h =>
    obtain ⟨-, t, he, htrace, hreplies⟩ := modifyRegAt_of_answer a _ h
    exact ⟨_, _, applyUpdates_of_check _ us hcheck _, congrArg _ (Op.finish_of_ite _ he), htrace,
      congrArg (· ++ _) hreplies⟩

/-! ### `modify_sfr` -/

theorem modifySfr_eq (q : FixedReg) (f : RegWord q.reg → RegWord q.reg) (s : State) :
    modifySfr q f s = modifyRegAt (s.cfg.sfrAddrOf q.sfr) (fun v => (f ⟨v⟩).bits) s := rfl

section

variable {s : State} (ho : s.owned = true) {q : FixedReg} {us : List (Update q.reg)}
  (hset : us.all (Update.settable s.cfg) = true)

include ho hset

theorem runCall_modifySfr_of_bad_size {e : Error} (hcheck : checkUpdates s.cfg us = some e) :
    runCall (.modifySfr q us) s = .next (s.reply (.done (.err e))) :=
  runCall_of_owned ho nofun hset (by simp only [callNext, callModifySfr, hcheck])

theorem runCall_modifySfr_of_checked (hcheck : checkUpdates s.cfg us = none) :
    runCall (.modifySfr q us) s = .next (Op.finish (modifyRegAt (s.cfg.sfrAddrOf q.sfr)
      fun v => (transformOf s.cfg us ⟨v⟩).bits) (fun _ => .unit) TransportError.toError s) :=
  runCall_of_owned ho nofun hset
    (by simp only [callNext, callModifySfr, hcheck]; exact Op.finish_congr (modifySfr_eq q _ s) _ _)

end

/-- Settles O37: `modify_sfr` is the modify of its register, and a call with setters is one by their transform. -/
theorem modifyWritesTheTransformOfWhatItRead : Obligations.ModifyWritesTheTransformOfWhatItRead := by
  intro s q
  refine ⟨fun f => ?_, fun us ho hset => ⟨fun e he => ⟨checkUpdates_err he, runCall_modifySfr_of_bad_size ho hset he⟩,
    fun hcheck => runCall_modify hcheck (runCall_modifySfr_of_checked ho hset hcheck)⟩⟩
  split
  · next h =>
    obtain ⟨t, he, htrace, -⟩ := modifyRegAt_of_no_answer (s.cfg.sfrAddrOf q.sfr) (fun v => (f ⟨v⟩).bits) h
    exact ⟨t, he, htrace⟩
  · next bytesIn h =>
    obtain ⟨hl, t, he, htrace, -⟩ := modifyRegAt_of_answer (s.cfg.sfrAddrOf q.sfr) (fun v => (f ⟨v⟩).bits) h
    exact ⟨hl, t, he, htrace⟩

/-! ### FIFO modifies -/

theorem modifyFifo_out (k : FifoReg) {n : Nat} (hn : n = 0 ∨ 31 < n) (f : RegWord k.reg → RegWord k.reg) (s : State) :
    modifyFifo k n f s = (.err (.invalidFifo n), s) := Op.bind_err (fifoAddress_out k n s (by omega))

theorem modifyFifo_succ (k : FifoReg) (i : Fin 31) (f : RegWord k.reg → RegWord k.reg) (s : State) :
    modifyFifo k (i.val + 1) f s =
      Op.map id TransportError.toError (modifyRegAt (s.cfg.sfrAddrOf (k.sfr i)) fun v => (f ⟨v⟩).bits) s :=
  Op.bind_ok (fifoAddress_succ k i s)

section

variable {s : State} (ho : s.owned = true) {k : FifoReg} {us : List (Update k.reg)}
  (hset : us.all (Update.settable s.cfg) = true)

include ho hset

/-- The check of the setters comes before that of the index (R178). -/
theorem runCall_modifyFifo_of_bad_size {e : Error} (hcheck : checkUpdates s.cfg us = some e) (n : Nat) :
    runCall (.modifyFifo k n us) s = .next (s.reply (.done (.err e))) :=
  runCall_of_owned ho nofun hset (by simp only [callNext, callModifyFifo, hcheck])

theorem runCall_modifyFifo_of_checked (hcheck : checkUpdates s.cfg us = none) (n : Nat) :
    runCall (.modifyFifo k n us) s =
      .next (Op.finish (modifyFifo k n (transformOf s.cfg us)) (fun _ => .unit) id s) :=
  runCall_of_owned ho nofun hset (by simp only [callNext, callModifyFifo, hcheck])

theorem runCall_modifyFifo_out (hcheck : checkUpdates s.cfg us = none) {n : Nat} (hn : n = 0 ∨ 31 < n) :
    runCall (.modifyFifo k n us) s = .next (s.reply (.done (.err (.invalidFifo n)))) := by
  rw [runCall_modifyFifo_of_checked ho hset hcheck, Op.finish_err (modifyFifo_out k hn _ s)]
  rfl

theorem runCall_modifyFifo_succ (hcheck : checkUpdates s.cfg us = none) (i : Fin 31) :
    runCall (.modifyFifo k (i.val + 1) us) s = .next (Op.finish (modifyRegAt (s.cfg.sfrAddrOf (k.sfr i))
      fun v => (transformOf s.cfg us ⟨v⟩).bits) (fun _ => .unit) TransportError.toError s) := by
  rw [runCall_modifyFifo_of_checked ho hset hcheck, Op.finish_congr (modifyFifo_succ k i _ s), Op.finish_map]
  rfl

end

/-- Settles O38: out of range the index check ends the modify; in range it is that of the FIFO's register. -/
theorem fifoModifyChecksTheIndexFirst : Obligations.FifoModifyChecksTheIndexFirst := by
  refine fun s k n => ⟨fun f hn => modifyFifo_out k hn f s, fun us ho hset =>
    ⟨fun e he => ⟨checkUpdates_err he, runCall_modifyFifo_of_bad_size ho hset he n⟩,
      fun hcheck hn => runCall_modifyFifo_out ho hset hcheck hn⟩, ?_⟩
  rintro i rfl
  refine ⟨fun f => ?_, fun us ho hset hcheck => runCall_modify hcheck (runCall_modifyFifo_succ ho hset hcheck i)⟩
  rw [modifyFifo_succ]
  split
  · next h =>
    obtain ⟨t, he, htrace, -⟩ := modifyRegAt_of_no_answer (s.cfg.sfrAddrOf (k.sfr i)) (fun v => (f ⟨v⟩).bits) h
    exact ⟨t, Op.map_err he, htrace⟩
  · next bytesIn h =>
    obtain ⟨hl, t, he, htrace, -⟩ := modifyRegAt_of_answer (s.cfg.sfrAddrOf (k.sfr i)) (fun v => (f ⟨v⟩).bits) h
    exact ⟨hl, t, Op.map_of_ite _ he, htrace⟩

end Sys2Proof.Machine
end

section
/-! PROOFS. `enable_transmit_event_fifo` (spec/41_transactions.md R177), frame by frame against a script of answers (log 3). -/

namespace Sys2Proof

/-! ### Fields at their default places (log 8) -/

theorem RegField.place_default {p : Params} (h : p.regLayout = []) {T : RegType} (f : RegField T) :
    f.place p = (f.defaultLo + (f.defaultWidth - 1), f.defaultLo) := by simp [RegField.place, h]

theorem RegField.lo_default {p : Params} (h : p.regLayout = []) {T : RegType} (f : RegField T) :
    f.lo p = f.defaultLo := by rw [RegField.lo, RegField.place_default h]

theorem RegField.hi_default {p : Params} (h : p.regLayout = []) {T : RegType} (f : RegField T) :
    f.hi p = f.defaultLo + (f.defaultWidth - 1) := by rw [RegField.hi, RegField.place_default h]

/-- A flag at its default place, set, is its bit ORed in (R205). -/
theorem RegField.setBool_true_default {p : Params} (h : p.regLayout = []) {T : RegType} (f : RegField T)
    (hw : f.defaultWidth = 1) (hlo : f.defaultLo < 32) (c : Word) :
    (RegField.setBool p f ⟨c⟩ true).bits = c ||| BitVec.twoPow 32 f.defaultLo := by
  have hin : f.InWord p := by rw [RegField.InWord, f.lo_default h, f.hi_default h]; omega
  have hwidth : f.width p = 1 := by rw [RegField.width, f.lo_default h, f.hi_default h]; omega
  refine BitVec.eq_of_getLsbD_eq fun i hi => ?_
  rw [RegField.getLsbD_setBool p f hin hwidth, f.lo_default h, BitVec.getLsbD_or, BitVec.getLsbD_twoPow]
  by_cases hb : i = f.defaultLo
  · simp [hb, hlo]
  · simp [hb, Ne.symm hb]

end Sys2Proof

namespace Sys2Proof.Machine

open Sys2Proof

/-! ### Register accesses against a script -/

/-- The line is inactive, the parameters are `p`, and `script` lists the answers to come. -/
structure Scripted (p : Params) (script : List Answer) (s : State) : Prop where
  cfg : s.cfg = p
  cs : s.cs = .inactive
  script : s.script = script

/-- From `s` to `t` the trace grew by `evs` and nothing of the host's changed; `rest` of the script is left. -/
structure ScriptedRun (p : Params) (s t : State) (evs : List Event) (rest : List Answer) : Prop where
  host : SameHost s t
  trace : t.trace = s.trace ++ evs
  left : Scripted p rest t

theorem ScriptedRun.trans {p : Params} {s t u : State} {e₁ e₂ : List Event} {r₁ r₂ : List Answer}
    (h : ScriptedRun p s t e₁ r₁) (k : ScriptedRun p t u e₂ r₂) : ScriptedRun p s u (e₁ ++ e₂) r₂ :=
  ⟨h.host.trans k.host, by rw [k.trace, h.trace, List.append_assoc], k.left⟩

/-- A frame uses one answer. -/
theorem FrameRun.scriptedRun {p : Params} {s t : State} {sent : List Byte} {ev : Event} {x : Answer} {rest : List Answer}
    (h : FrameRun s t sent ev) (hs : Scripted p (x :: rest) s) :
    ScriptedRun p s t (readyEvents .inactive ++ [ev, .pinSet .inactive]) rest :=
  ⟨h.host, by rw [h.trace, hs.cs], h.host.cfg.trans hs.cfg, h.cs, by rw [h.script, hs.script, List.tail_cons]⟩

/-- The events of a register read and of a register write from an inactive line. -/
abbrev sfrReadEvents (p : Params) (q : Sfr) (answer : Option (List Byte)) : List Event :=
  readEvents .inactive (readFrameBytes (sfrReadOp p) (p.sfrAddrOf q) 4) answer
abbrev sfrWriteEvents (p : Params) (q : Sfr) (w : Word) (ok : Bool) : List Event :=
  writeEvents .inactive (writeFrameBytes (sfrWriteOp p) (p.sfrAddrOf q) (le32 w)) ok

/-- The bytes that the read of a register clocks in when it holds `w`. -/
abbrev sfrAnswer (w : Word) : List Byte := 0 :: 0 :: le32 w

section

variable {p : Params} {s : State} {x : List Byte} {m : Nat} {rest : List Answer} (q : Sfr) (w : Word)

theorem readSfr_scripted (hs : Scripted p (.ok (sfrAnswer w) :: rest) s) :
    ∃ t, readSfr q s = (.ok w, t) ∧ ScriptedRun p s t (sfrReadEvents p q (some (sfrAnswer w))) rest := by
  obtain ⟨t, he, hr⟩ := readRegAt_scripted (s.cfg.sfrAddrOf q) rfl hs.script
  have hword : fromLE32 ((sfrAnswer w).drop 2) = w := fromLE32_le32 w
  rw [hword] at he
  rw [hs.cfg] at hr
  exact ⟨t, he, hr.scriptedRun hs⟩

theorem readSfr_failed (hs : Scripted p (.fail m :: rest) s) :
    ∃ t, readSfr q s = (.err .spiRead, t) ∧ ScriptedRun p s t (sfrReadEvents p q none) rest := by
  obtain ⟨t, he, hr⟩ := readRegAt_failed (s.cfg.sfrAddrOf q) hs.script
  rw [hs.cfg] at hr
  exact ⟨t, he, hr.scriptedRun hs⟩

theorem writeSfr_scripted (hs : Scripted p (.ok x :: rest) s) :
    ∃ t, writeSfr q w s = (.ok (), t) ∧ ScriptedRun p s t (sfrWriteEvents p q w true) rest := by
  obtain ⟨t, he, hr⟩ := writeRegAt_scripted (s.cfg.sfrAddrOf q) w hs.script
  rw [hs.cfg] at hr
  exact ⟨t, he, hr.scriptedRun hs⟩

theorem writeSfr_failed (hs : Scripted p (.fail m :: rest) s) :
    ∃ t, writeSfr q w s = (.err .spiWrite, t) ∧ ScriptedRun p s t (sfrWriteEvents p q w false) rest := by
  obtain ⟨t, he, hr⟩ := writeRegAt_failed (s.cfg.sfrAddrOf q) w hs.script
  rw [hs.cfg] at hr
  exact ⟨t, he, hr.scriptedRun hs⟩

end

/-! ### A register read, and the write of a transform of it -/

/-- Read a register, then write the transform of its word: `modify_sfr`, and the second half of R177. -/
def transformSfr (q : Sfr) (f : Word → Word) : Op TransportError Unit :=
  Op.bind (readSfr q) fun v => writeSfr q (f v)

/-- The address of a modify is looked up before its read, and is the same after it. -/
theorem modifySfr_eq_transformSfr (q : FixedReg) (f : RegWord q.reg → RegWord q.reg) (s : State) :
    modifySfr q f s = transformSfr q.sfr (fun v => (f ⟨v⟩).bits) s := by
  rw [modifySfr_eq]
  rcases readRegAt_spec (s.cfg.sfrAddrOf q.sfr) s with ⟨bytesIn, t, -, -, he, hr⟩ | ⟨k, t, -, he, -⟩
  · have hread : readSfr q.sfr s = (.ok (fromLE32 (bytesIn.drop 2)), t) := he
    rw [modifyRegAt, transformSfr, Op.bind_ok he, Op.bind_ok hread, writeSfr, hr.host.cfg]
  · have hread : readSfr q.sfr s = (.err .spiRead, t) := he
    rw [modifyRegAt, transformSfr, Op.bind_err he, Op.bind_err hread]

section

variable {p : Params} {s : State} {x : List Byte} {m : Nat} {rest : List Answer} (q : Sfr) (f : Word → Word) (v : Word)

theorem transformSfr_scripted (hs : Scripted p (.ok (sfrAnswer v) :: .ok x :: rest) s) :
    ∃ t, transformSfr q f s = (.ok (), t) ∧
      ScriptedRun p s t (sfrReadEvents p q (some (sfrAnswer v)) ++ sfrWriteEvents p q (f v) true) rest := by
  obtain ⟨t, ht, hr⟩ := readSfr_scripted q v hs
  obtain ⟨u, hu, hw⟩ := writeSfr_scripted q (f v) hr.left
  exact ⟨u, (Op.bind_ok ht).trans hu, hr.trans hw⟩

theorem transformSfr_failed_read (hs : Scripted p (.fail m :: rest) s) :
    ∃ t, transformSfr q f s = (.err .spiRead, t) ∧ ScriptedRun p s t (sfrReadEvents p q none) rest := by
  obtain ⟨t, ht, hr⟩ := readSfr_failed q hs
  exact ⟨t, Op.bind_err ht, hr⟩

theorem transformSfr_failed_write (hs : Scripted p (.ok (sfrAnswer v) :: .fail m :: rest) s) :
    ∃ t, transformSfr q f s = (.err .spiWrite, t) ∧
      ScriptedRun p s t (sfrReadEvents p q (some (sfrAnswer v)) ++ sfrWriteEvents p q (f v) false) rest := by
  obtain ⟨t, ht, hr⟩ := readSfr_scripted q v hs
  obtain ⟨u, hu, hw⟩ := writeSfr_failed q (f v) hr.left
  exact ⟨u, (Op.bind_ok ht).trans hu, hr.trans hw⟩

end

/-! ### The two halves of R177 -/

/-- With the default layout the first half ORs STEF's bit into C1CON and the second the count into C1TEFCON. -/
theorem enableTef_eq {s : State} (h : s.cfg.regLayout = []) (k : BitVec 4) :
    enableTef k s = Op.bind (transformSfr .c1con (· ||| 0x00080000))
      (fun _ => transformSfr .c1tefcon (· ||| (k.setWidth 32 <<< 24))) s := by
  have hstef : ∀ c : Word, (RegField.setBool s.cfg .chip_STEF ⟨c⟩ true).bits = c ||| 0x00080000 :=
    RegField.setBool_true_default h .chip_STEF rfl (by decide)
  have hcount : tefCountBits s.cfg k = k.setWidth 32 <<< 24 := by
    rw [tefCountBits, RegField.lo_default h]; rfl
  have hfirst : modifySfr .chipControl (fun c => RegField.setBool s.cfg .chip_STEF c true) s =
      transformSfr .c1con (· ||| 0x00080000) s :=
    (modifySfr_eq_transformSfr .chipControl _ s).trans (congrArg (transformSfr .c1con · s) (funext hstef))
  rw [enableTef, hcount, Op.bind, hfirst]
  rfl

section

variable {s t : State} {p : Params} {evs : List Event} {rest : List Answer} {k : BitVec 4} (ho : s.owned = true)

include ho

/-- What a run of `enable_transmit_event_fifo` against a script gives the host. -/
theorem runCall_enableTef_ok (h : enableTef k s = (.ok (), t)) (hr : ScriptedRun p s t evs rest) :
    ∃ t, runCall (.enableTef k) s = .next t ∧ t.replies = s.replies ++ [.done (.ok .unit)] ∧ t.trace = s.trace ++ evs :=
  ⟨_, runCall_of_owned ho nofun rfl (Op.finish_ok h), congrArg (· ++ _) hr.host.replies, hr.trace⟩

theorem runCall_enableTef_err {e : TransportError} (h : enableTef k s = (.err e, t)) (hr : ScriptedRun p s t evs rest) :
    ∃ t, runCall (.enableTef k) s = .next t ∧ t.replies = s.replies ++ [.done (.err e.toError)] ∧
      t.trace = s.trace ++ evs :=
  ⟨_, runCall_of_owned ho nofun rfl (Op.finish_err h), congrArg (· ++ _) hr.host.replies, hr.trace⟩

end

/-- Settles O42: the script's first failure, or the fourth success, says which frames there are. -/
theorem enableTefSetsStefAndOrsTheCount : Obligations.EnableTefSetsStefAndOrsTheCount := by
  intro s k c v rest x y m ho hc hlayout con tef rd wr reads ends modify w
  have heq := enableTef_eq hlayout k
  have start : ∀ {script : List Answer}, s.script = script → Scripted s.cfg script s := fun hs => ⟨rfl, hc, hs⟩
  have modified : ∀ {tail : List Answer}, s.script = .ok (reads c) :: .ok x :: tail →
      ∃ t, transformSfr .c1con (· ||| 0x00080000) s = (.ok (), t) ∧ ScriptedRun s.cfg s t modify tail :=
    fun hs => transformSfr_scripted .c1con _ c (start hs)
  refine ⟨fun hs => ?_, fun hs => ?_, fun hs => ?_, fun hs => ?_, fun hs => ?_⟩
  · obtain ⟨t, ht, hr⟩ := modified hs
    obtain ⟨u, hu, hr'⟩ := transformSfr_scripted .c1tefcon (· ||| (k.setWidth 32 <<< 24)) v hr.left
    exact List.append_assoc modify _ _ ▸ runCall_enableTef_ok ho (heq.trans ((Op.bind_ok ht).trans hu)) (hr.trans hr')
  · obtain ⟨t, ht, hr⟩ := transformSfr_failed_read .c1con (· ||| 0x00080000) (start hs)
    exact runCall_enableTef_err ho (heq.trans (Op.bind_err ht)) hr
  · obtain ⟨t, ht, hr⟩ := transformSfr_failed_write .c1con (· ||| 0x00080000) c (start hs)
    exact runCall_enableTef_err ho (heq.trans (Op.bind_err ht)) hr
  · obtain ⟨t, ht, hr⟩ := modified hs
    obtain ⟨u, hu, hr'⟩ := transformSfr_failed_read .c1tefcon (· ||| (k.setWidth 32 <<< 24)) hr.left
    exact runCall_enableTef_err ho (heq.trans ((Op.bind_ok ht).trans hu)) (hr.trans hr')
  · obtain ⟨t, ht, hr⟩ := modified hs
    obtain ⟨u, hu, hr'⟩ := transformSfr_failed_write .c1tefcon (· ||| (k.setWidth 32 <<< 24)) v hr.left
    exact List.append_assoc modify _ _ ▸ runCall_enableTef_err ho (heq.trans ((Op.bind_ok ht).trans hu)) (hr.trans hr')

end Sys2Proof.Machine
end

section
/-! PROOFS. Register fields: the laws of get and set, the enumerated fields and their fallbacks, and the depth of a FIFO
(spec/42_register_fields.md R201 to R214). -/

namespace Sys2Proof

open Sys2Proof.Machine

/-! ### Get and set (R203) -/

/-- Settles O45: the four laws, each proved of the bits of a word. -/
theorem fieldLaws : Obligations.FieldLaws := fun p _ f g t v v' =>
  ⟨fun hf hg =>
    { get_set := f.get_set_same p hf t v
      get_other := fun ha => f.get_set_apart p g hf hg ha t v
      set_set := f.set_set p t v v'
      set_get := f.set_get p t },
    f.set_set p t v v', f.set_get p t, fun _ hi => getLsbD_setBits_outside _ _ _ _ _ hi⟩

/-! ### Enumerated fields (R204) -/

/-- A variant's code, set in a field that it fits, is read back by a decoder that inverts it. -/
theorem Params.RegLayoutOk.decode_setNat_code {p : Params} (h : p.RegLayoutOk) {T : RegType} (f : RegField T)
    (t : RegWord T) {V R : Type} {all : List V} {code : V → Nat} {widths : List Nat} (hfit : CodesFit all code widths)
    {v : V} (hv : v ∈ all) (hw : f.width p ∈ widths) {decode : Nat → R} {r : R} (hdec : decode (code v) = r) :
    decode (RegField.get p f (RegField.setNat p f t (code v))).toNat = r := by
  rw [f.get_setNat p (h.field_inWord f) t (hfit.2 v hv _ hw), hdec]

/-- Settles O46: every field is wide enough for its codes, and its decoder inverts them. -/
theorem symbolicFieldsRoundTrip : Obligations.SymbolicFieldsRoundTrip := by
  intro p h
  have hc := h.codes
  refine ⟨fun t m hm => ⟨?reqop, ?opmod⟩, fun t v => ?wft, fun t v => ?txbws, fun t v => ?clkodiv, fun t v => ?txqTxat,
    fun t v => ?fifoTxat, fun t v hv => ?txqPlsize, fun t v hv => ?fifoPlsize⟩
  case reqop => exact h.decode_setNat_code _ t hc.opmode m.mem_all (by simp) (decodeOpMode_code hc hm)
  case opmod => exact h.decode_setNat_code _ t hc.opmode m.mem_all (by simp) (decodeOpMode_code hc hm)
  case wft => exact h.decode_setNat_code _ t hc.wft v.mem_all (by simp) (decodeWakeFilter_code hc v)
  case txbws => exact h.decode_setNat_code _ t hc.txbws v.mem_all (by simp) (decodeTxDelay_code hc v)
  case clkodiv => exact h.decode_setNat_code _ t hc.clkodiv v.mem_all (by simp) (decodeClockOut_code hc v)
  case txqTxat => exact h.decode_setNat_code _ t hc.txat v.mem_all (by simp) (decodeRetransmission_code hc v)
  case fifoTxat => exact h.decode_setNat_code _ t hc.txat v.mem_all (by simp) (decodeRetransmission_code hc v)
  case txqPlsize => exact h.decode_setNat_code _ t hc.plsize v.mem_all (by simp) (decodePayloadSize_code hc hv)
  case fifoPlsize => exact h.decode_setNat_code _ t hc.plsize v.mem_all (by simp) (decodePayloadSize_code hc hv)

/-! ### Fallbacks (R207, R209, R211, R212) -/

section

variable {V : Type} {code : V → Nat} {c : Nat}

/-- A code that is not found is that of no variant in the table. -/
theorem variantOf_eq_none_iff {all : List V} : variantOf all code c = none ↔ ∀ v ∈ all, code v ≠ c := by
  simp [variantOf]

/-- What is found is a variant in the table that has the code. -/
theorem mem_and_code_of_variantOf {all : List V} {v : V} (h : variantOf all code c = some v) : v ∈ all ∧ code v = c :=
  ⟨List.mem_of_find?_eq_some h, by simpa using List.find?_some h⟩

/-- A fallback that stands last in the table is read for every code but those of the other variants. -/
theorem variantOf_getD_last_iff {others : List V} {last : V} (hothers : ∀ v, v ∈ others ↔ v ≠ last) :
    (variantOf (others ++ [last]) code c).getD last = last ↔ ∀ v, v ≠ last → code v ≠ c := by
  have hfind : (variantOf (others ++ [last]) code c).getD last = (variantOf others code c).getD last := by
    rw [variantOf, List.find?_append, ← variantOf]
    cases variantOf others code c with
    | none => rw [Option.none_or, List.find?_singleton]; split <;> rfl
    | some v => rfl
  simp only [hfind, ← hothers, ← variantOf_eq_none_iff]
  cases hv : variantOf others code c with
  | none => simp
  | some v => simpa using (hothers v).1 (mem_and_code_of_variantOf hv).1

/-- A fallback that stands first in the table is read for its own code and for every code of no variant. -/
theorem variantOf_getD_head_iff {first : V} {others : List V} :
    (variantOf (first :: others) code c).getD first = first ↔ code first = c ∨ ∀ v ∈ first :: others, code v ≠ c := by
  by_cases hc : code first = c
  · simp [variantOf, hc]
  · rw [← variantOf_eq_none_iff]
    cases hv : variantOf (first :: others) code c with
    | none => simp
    | some v =>
      have hne : v ≠ first := fun e => hc (e ▸ (mem_and_code_of_variantOf hv).2)
      simp [hc, hne]

end

section

variable {p : Params} {c : Nat}

theorem decodeOpMode_eq_unknown_iff :
    decodeOpMode p c = .unknown ↔ OpMode.mapped p c = false ∨ ∀ m, OpMode.code p m ≠ c := by
  have hnone : variantOf OpMode.all (OpMode.code p) c = none ↔ ∀ m, OpMode.code p m ≠ c := by
    simp [variantOf_eq_none_iff, OpMode.mem_all]
  rw [decodeOpMode, ← hnone]
  cases OpMode.mapped p c <;> cases variantOf OpMode.all (OpMode.code p) c <;> simp

theorem decodeRetransmission_eq_unlimitedRetries_iff :
    decodeRetransmission p c = .unlimitedRetries ↔ ∀ v, v ≠ .unlimitedRetries → Retransmission.code p v ≠ c :=
  variantOf_getD_last_iff (others := Retransmission.all.dropLast) fun v => by cases v <;> decide

theorem decodeTxDelay_eq_delay4096_iff :
    decodeTxDelay p c = .delay4096 ↔ ∀ v, v ≠ .delay4096 → TxDelay.code p v ≠ c :=
  variantOf_getD_last_iff (others := TxDelay.all.dropLast) fun v => by cases v <;> decide

theorem decodePayloadSize_eq_bytes8_iff :
    decodePayloadSize p c = .bytes8 ↔
      PayloadSize.mapped p c = false ∨ PayloadSize.code p .bytes8 = c ∨ ∀ v, PayloadSize.code p v ≠ c := by
  have hfound : (variantOf PayloadSize.all (PayloadSize.code p) c).getD .bytes8 = .bytes8 ↔
      PayloadSize.code p .bytes8 = c ∨ ∀ v ∈ PayloadSize.all, PayloadSize.code p v ≠ c :=
    variantOf_getD_head_iff (others := PayloadSize.all.tail)
  simp only [PayloadSize.mem_all, forall_const] at hfound
  rw [decodePayloadSize, ← hfound]
  cases PayloadSize.mapped p c <;> simp

end

/-- Settles O47: each field's decoder, at the code that the word holds. -/
theorem unmappedCodesReadAsTheFallback : Obligations.UnmappedCodesReadAsTheFallback := fun _ =>
  ⟨fun _ => decodeOpMode_eq_unknown_iff, fun _ => decodeOpMode_eq_unknown_iff,
    fun _ => decodeRetransmission_eq_unlimitedRetries_iff, fun _ => decodeRetransmission_eq_unlimitedRetries_iff,
    fun _ => decodePayloadSize_eq_bytes8_iff, fun _ => decodePayloadSize_eq_bytes8_iff,
    fun _ => decodeTxDelay_eq_delay4096_iff⟩

/-! ### FIFO depth (R213, R214) -/

/-- `fifo_size` (R214) of the register whose field FSIZE is `f`. -/
def RegField.depth (p : Params) {T : RegType} (f : RegField T) (t : RegWord T) : Nat := (RegField.get p f t).toNat + 1

/-- `set_fifo_size` (R213) of the register whose field FSIZE is `f`. -/
def RegField.setDepth (p : Params) {T : RegType} (f : RegField T) (t : RegWord T) (size : Nat) :
    Result Error (RegWord T) :=
  if size = 0 then .err (.invalidFifoSize 0) else .ok (RegField.setNat p f t (fifoSizeCode size))

theorem setTxqFifoSize_eq_setDepth (p : Params) : setTxqFifoSize p = RegField.setDepth p .txq_FSIZE := rfl
theorem setFifoSize_eq_setDepth (p : Params) : setFifoSize p = RegField.setDepth p .fifo_FSIZE := rfl
theorem txqFifoSize_eq_depth (p : Params) : txqFifoSize p = RegField.depth p .txq_FSIZE := rfl
theorem fifoSize_eq_depth (p : Params) : fifoSize p = RegField.depth p .fifo_FSIZE := rfl

section

variable {p : Params} {T : RegType} {f : RegField T} {t t' : RegWord T} {size : Nat}

theorem RegField.setDepth_eq_err_iff : RegField.setDepth p f t size = .err (.invalidFifoSize 0) ↔ size = 0 := by
  unfold RegField.setDepth; split <;> simp [*]

theorem RegField.setDepth_eq_ok_iff :
    RegField.setDepth p f t size = .ok t' ↔ 1 ≤ size ∧ t' = RegField.set p f t (BitVec.ofNat _ (min size 32 - 1)) := by
  unfold RegField.setDepth
  split
  · simp [*]
  · rw [Result.ok.injEq, eq_comm, and_iff_right (by omega)]; rfl

theorem RegField.depth_pos : 1 ≤ RegField.depth p f t := Nat.le_add_left _ _

/-- A field of FSIZE_BITS bits holds depths up to 32. -/
theorem RegField.depth_le (hw : f.width p = 5) : RegField.depth p f t ≤ 32 := by
  have hpow : 2 ^ f.width p = 32 := by rw [hw]; rfl
  exact (RegField.get p f t).isLt.trans_eq hpow

/-- A depth that was stored is read back, cut to 32. -/
theorem RegField.depth_of_setDepth (hf : f.InWord p) (hw : f.width p = 5) (h : RegField.setDepth p f t size = .ok t') :
    RegField.depth p f t' = min size 32 := by
  obtain ⟨hpos, rfl⟩ := RegField.setDepth_eq_ok_iff.1 h
  have hcode : min size 32 - 1 < 2 ^ f.width p := by rw [hw]; omega
  calc RegField.depth p f _ = min size 32 - 1 + 1 := congrArg (· + 1) (f.get_setNat p hf t hcode)
    _ = min size 32 := by omega

end

/-- Settles O48: TxQueueControl's depth and FifoControl's are one computation on a field of 5 bits. -/
theorem fifoDepthIsClampedAndZeroRejected : Obligations.FifoDepthIsClampedAndZeroRejected := by
  intro p h size
  obtain ⟨htxq, hfifo⟩ := h.fsize
  rw [setTxqFifoSize_eq_setDepth, setFifoSize_eq_setDepth, txqFifoSize_eq_depth, fifoSize_eq_depth]
  exact ⟨fun _ => ⟨RegField.setDepth_eq_err_iff, fun _ => RegField.setDepth_eq_ok_iff,
      fun _ => RegField.depth_of_setDepth (h.field_inWord _) htxq, rfl, RegField.depth_pos, RegField.depth_le htxq⟩,
    fun _ => ⟨RegField.setDepth_eq_err_iff, fun _ => RegField.setDepth_eq_ok_iff,
      fun _ => RegField.depth_of_setDepth (h.field_inWord _) hfifo, rfl, RegField.depth_pos, RegField.depth_le hfifo⟩⟩

end Sys2Proof
end

section
/-! PROOFS. Message headers: the laws of get and set, the identifiers, and the length table
(spec/43_message_headers.md R262 to R275). -/

namespace Sys2Proof

/-! ### Get and set (R267) -/

theorem Params.HdrLayoutOk.get_set {p : Params} (hp : p.HdrLayoutOk) {k : HdrKind} (f : HField k) (h : Header k)
    (v : BitVec (f.width p)) : HField.get p f (HField.set p f h v) = v :=
  f.get_set_same p (hp.inWord f) h v

theorem Params.HdrLayoutOk.get_set_of_ne {p : Params} (hp : p.HdrLayoutOk) {k : HdrKind} {f g : HField k} (hne : f ≠ g)
    (h : Header k) (v : BitVec (f.width p)) : HField.get p g (HField.set p f h v) = HField.get p g h :=
  f.get_set_apart p g (hp.inWord g) (hp.apart hne) h v

/-- R274: an RX header has a word 2, so the timestamp is read back as set. -/
theorem timestamp_setTimestamp (h : RxHeader) (t : Word) : timestamp (setTimestamp h t) = t :=
  h.word_setWord 2 t (h.size_ge (by decide))

/-- Settles O49: the field laws of the header, and the timestamp as the field that no layout moves. -/
theorem headerFieldLaws : Obligations.HeaderFieldLaws :=
  ⟨fun _ hp _ f _ h v => ⟨hp.get_set f h v, fun hne => hp.get_set_of_ne hne h v⟩,
    fun p _ f h v v' => ⟨f.set_set p h v v', f.set_get p h, fun _ hj => h.word_setWord_other _ _ _ hj.symm,
      fun i hi => f.getLsbD_set_outside p h v i hi⟩,
    fun p h t => ⟨rfl, timestamp_setTimestamp h t, timestamp_eq_get p h, setTimestamp_eq_set p h t⟩⟩

/-! ### Identifiers (R268, R269) -/

/-- The write that `set_standard_id` and `set_extended_id` share: SID, EID and IDE, in this order. -/
def setIdFields (p : Params) {k : HdrKind} (h : Header k) (sid : BitVec 11) (eid : BitVec 18) (ide : Bool) : Header k :=
  setIde p (HField.set p .eid (HField.set p .sid h sid) eid) ide

theorem setStandardId_eq_setIdFields (p : Params) {k : HdrKind} (h : Header k) (i : BitVec 11) :
    setStandardId p h i = setIdFields p h i 0 false := rfl

theorem setExtendedId_eq_setIdFields (p : Params) {k : HdrKind} (h : Header k) (i : BitVec 29) :
    setExtendedId p h i = setIdFields p h (i.extractLsb' 18 11) (i.extractLsb' 0 18) true := rfl

@[simp] theorem bitToBool_boolToBit (b : Bool) : bitToBool (boolToBit b) = b := by cases b <;> rfl

/-- SID of an extended identifier (R269): its upper eleven bits. -/
theorem toNat_extendedId_sid (i : BitVec 29) : (i.extractLsb' 18 11).toNat = i.toNat / 2 ^ 18 := by
  rw [BitVec.extractLsb'_toNat, Nat.shiftRight_eq_div_pow, Nat.mod_eq_of_lt]
  have := i.isLt
  omega

/-- EID of an extended identifier (R269): its lower eighteen bits. -/
theorem toNat_extendedId_eid (i : BitVec 29) : (i.extractLsb' 0 18).toNat = i.toNat % 2 ^ 18 := by
  rw [BitVec.extractLsb'_toNat, Nat.shiftRight_zero]

/-- The two parts of an extended identifier, put together as `id` does (R268). -/
theorem extendedId_of_parts (i : BitVec 29) :
    ((i.extractLsb' 18 11).setWidth 29 <<< 18) ||| (i.extractLsb' 0 18).setWidth 29 = i := by
  refine BitVec.eq_of_getLsbD_eq fun j hj => ?_
  by_cases hlow : j < 18
  · simp [hj, hlow]
  · have hback : 18 + (j - 18) = j := by omega
    have hsid : j - 18 < 11 := by omega
    simp [hj, hlow, hback, hsid]

section

variable {p : Params} (hp : p.HdrLayoutOk) {k : HdrKind} (h : Header k) (sid : BitVec 11) (eid : BitVec 18) (ide : Bool)

include hp

theorem Params.HdrLayoutOk.getIde_setIdFields : getIde p (setIdFields p h sid eid ide) = ide := by
  rw [setIdFields, getIde, setIde, hp.get_set, bitToBool_boolToBit]

theorem Params.HdrLayoutOk.get_eid_setIdFields : HField.get p .eid (setIdFields p h sid eid ide) = eid := by
  rw [setIdFields, setIde, hp.get_set_of_ne (by simp), hp.get_set]

theorem Params.HdrLayoutOk.get_sid_setIdFields : HField.get p .sid (setIdFields p h sid eid ide) = sid := by
  rw [setIdFields, setIde, hp.get_set_of_ne (by simp), hp.get_set_of_ne (by simp), hp.get_set]

theorem Params.HdrLayoutOk.get_setIdFields_of_ne {f : HField k} (hsid : .sid ≠ f) (heid : .eid ≠ f) (hide : .ide ≠ f) :
    HField.get p f (setIdFields p h sid eid ide) = HField.get p f h := by
  rw [setIdFields, setIde, hp.get_set_of_ne hide, hp.get_set_of_ne heid, hp.get_set_of_ne hsid]

/-- The fields of R269 that an identifier write leaves alone. -/
theorem Params.HdrLayoutOk.get_setIdFields_of_mem {f : HField k} (hf : f ∈ [HField.dlc, .esi, .fdf, .brs, .rtr]) :
    HField.get p f (setIdFields p h sid eid ide) = HField.get p f h :=
  hp.get_setIdFields_of_ne h sid eid ide (by rintro rfl; simp at hf) (by rintro rfl; simp at hf) (by rintro rfl; simp at hf)

theorem Params.HdrLayoutOk.id_setIdFields : Header.id p (setIdFields p h sid eid ide) =
    if ide then (sid.setWidth 29 <<< 18) ||| eid.setWidth 29 else sid.setWidth 29 := by
  rw [Header.id, hp.getIde_setIdFields, hp.get_sid_setIdFields, hp.get_eid_setIdFields]

end

/-- Settles O50: both writes are one write of SID, EID and IDE. -/
theorem identifiersRoundTrip : Obligations.IdentifiersRoundTrip := by
  refine fun p hp k h => ⟨fun i => ?standard, fun i => ?extended⟩
  case standard =>
    rw [setStandardId_eq_setIdFields]
    exact ⟨hp.id_setIdFields h i 0 false, hp.get_sid_setIdFields h i 0 false, hp.get_eid_setIdFields h i 0 false,
      hp.getIde_setIdFields h i 0 false, fun _ hf => hp.get_setIdFields_of_mem h i 0 false hf⟩
  case extended =>
    rw [setExtendedId_eq_setIdFields, hp.id_setIdFields, hp.get_sid_setIdFields, hp.get_eid_setIdFields,
      hp.getIde_setIdFields]
    exact ⟨extendedId_of_parts i, toNat_extendedId_sid i, toNat_extendedId_eid i, rfl,
      fun _ hf => hp.get_setIdFields_of_mem h _ _ true hf⟩

/-! ### The length table (R270, R271) -/

/-- R271: `len_to_dlc` finds the code of every length in the table. -/
theorem lenToDlc_dlcToLen : ∀ d : BitVec 4, lenToDlc (dlcToLen d) = some d := by decide

theorem lenToDlc_eq_some_iff (n : Nat) (d : BitVec 4) : lenToDlc n = some d ↔ dlcToLen d = n := by
  constructor
  · intro h
    simpa using List.find?_some h
  · rintro rfl
    exact lenToDlc_dlcToLen d

theorem lenToDlc_eq_none_iff (n : Nat) : lenToDlc n = none ↔ ∀ d, dlcToLen d ≠ n := by
  simp only [Option.eq_none_iff_forall_ne_some, Ne, lenToDlc_eq_some_iff]

/-- Settles O51: `len_to_dlc` answers with a code exactly when the table has it at that length. -/
theorem lengthTableIsExact : Obligations.LengthTableIsExact :=
  ⟨by decide, lenToDlc_eq_some_iff, lenToDlc_eq_none_iff⟩

end Sys2Proof
end

section
/-! PROOFS. Words with a list of fields set: what the sequencer's transforms write, field by field and bit by bit
(spec/47_host_sequencer.md R304, R307, R309, R310; spec/42_register_fields.md R202, R225). -/

namespace Sys2Proof

open Sys2Proof.Machine

/-! ### One field set under a layout without overlaps -/

section

variable {p : Params} (h : p.RegLayoutOk) {T : RegType} {f g : RegField T} (t : RegWord T)

include h

theorem Params.RegLayoutOk.get_setNat_of_ne (hne : f ≠ g) (v : Nat) :
    RegField.get p g (RegField.setNat p f t v) = RegField.get p g t :=
  f.get_setNat_apart p g (h.field_inWord f) (h.field_inWord g) (h.field_apart hne) t v

theorem Params.RegLayoutOk.get_setBool_of_ne (hne : f ≠ g) (b : Bool) :
    RegField.get p g (RegField.setBool p f t b) = RegField.get p g t :=
  f.get_setBool_apart p g (h.field_inWord f) (h.field_inWord g) (h.field_apart hne) t b

/-- A flag after another, or itself, was set. -/
theorem Params.RegLayoutOk.getBool_setBool (b : Bool) :
    RegField.getBool p g (RegField.setBool p f t b) = if f = g then b else RegField.getBool p g t := by
  split
  · next heq => subst heq; exact f.getBool_setBool p (h.field_inWord f) t b
  · next hne => rw [RegField.getBool, h.get_setBool_of_ne t hne, RegField.getBool]

theorem Params.RegLayoutOk.lo_lt (f : RegField T) : f.lo p < 32 := (h.field_inWord f).1.trans_lt (h.field_inWord f).2

end

/-! ### Words that agree outside a list of fields -/

/-- `t` and `t'` agree in every bit that belongs to none of the fields `fs` (R202, R225). -/
def AgreeOutside (p : Params) {T : RegType} (fs : List (RegField T)) (t t' : RegWord T) : Prop :=
  ∀ i, (∀ f ∈ fs, f.Outside p i) → t'.bits.getLsbD i = t.bits.getLsbD i

namespace AgreeOutside

variable {p : Params} {T : RegType} {fs : List (RegField T)} {t t' : RegWord T}

theorem refl (p : Params) (fs : List (RegField T)) (t : RegWord T) : AgreeOutside p fs t t := fun _ _ => rfl

section

variable (h : AgreeOutside p fs t t') {f : RegField T} (hf : f ∈ fs)

include h hf

theorem set (v : BitVec (f.width p)) : AgreeOutside p fs t (RegField.set p f t' v) := fun i hi =>
  (getLsbD_setBits_outside _ _ _ _ _ (hi f hf)).trans (h i hi)

theorem setNat (v : Nat) : AgreeOutside p fs t (RegField.setNat p f t' v) := h.set hf _

theorem setBool (b : Bool) : AgreeOutside p fs t (RegField.setBool p f t' b) := h.set hf _

end

/-- Where no two fields overlap, every other field reads the same. -/
theorem get_eq (h : AgreeOutside p fs t t') (hp : p.RegLayoutOk) {g : RegField T} (hg : g ∉ fs) :
    RegField.get p g t' = RegField.get p g t := by
  refine BitVec.eq_of_getLsbD_eq fun i hi => ?_
  rw [RegField.get, RegField.get, getLsbD_getBits _ _ _ _ hi, getLsbD_getBits _ _ _ _ hi]
  refine h _ fun f hf => ?_
  have hapart := hp.field_apart (f := f) (g := g) fun e => hg (e ▸ hf)
  have hf' := f.lo_add_width p (hp.field_inWord f)
  have hg' := g.lo_add_width p (hp.field_inWord g)
  omega

end AgreeOutside

/-! ### RequestingConfigMode (R304) -/

theorem setReqop_agrees (p : Params) (c : RegWord .chipControl) (m : OpMode) :
    AgreeOutside p [.chip_REQOP] c (setReqop p c m) := (AgreeOutside.refl p _ c).setNat (List.mem_singleton_self _) _

theorem get_setReqop {p : Params} (h : p.RegLayoutOk) (c : RegWord .chipControl) (m : OpMode) :
    (RegField.get p .chip_REQOP (setReqop p c m)).toNat = OpMode.code p m :=
  RegField.get_setNat p _ (h.field_inWord _) c (h.codes.opmode.2 m m.mem_all _ List.mem_cons_self)

/-- With no row that replaces it, a mode's code is the default one (R207). -/
theorem OpMode.code_of_no_rows {p : Params} (h : p.opmodeCode = []) (m : OpMode) : OpMode.code p m = m.defaultCode := by
  rw [OpMode.code, h]; rfl

theorem getReqop_setReqop {p : Params} (h : p.RegLayoutOk) (c : RegWord .chipControl) {m : OpMode}
    (hm : OpMode.settable p m = true) : getReqop p (setReqop p c m) = .mode m := by
  rw [getReqop, get_setReqop h, decodeOpMode_code h.codes hm]

/-! ### ProgrammingOscillator (R307) -/

/-- The field that holds the clock divider (CLOCK_DIVIDER_FIELD). -/
def dividerField (p : Params) : RegField .oscillator :=
  match p.clockDivider with
  | .sclkdiv => .osc_SCLKDIV
  | .clkodiv => .osc_CLKODIV

/-- The fields that the oscillator transform sets. -/
abbrev oscFields (p : Params) : List (RegField .oscillator) := [.osc_PLLEN, .osc_OSCDIS, dividerField p]

theorem dividerField_of_sclkdiv {p : Params} (h : p.clockDivider = .sclkdiv) : dividerField p = .osc_SCLKDIV := by
  rw [dividerField, h]

theorem dividerField_of_clkodiv {p : Params} (h : p.clockDivider = .clkodiv) : dividerField p = .osc_CLKODIV := by
  rw [dividerField, h]

section

variable {p : Params} (o : RegWord .oscillator) (by2 : Bool)

theorem setClockDivider_of_sclkdiv (h : p.clockDivider = .sclkdiv) :
    setClockDivider p o by2 = RegField.setBool p .osc_SCLKDIV o by2 := by rw [setClockDivider, h]

theorem setClockDivider_of_clkodiv (h : p.clockDivider = .clkodiv) :
    setClockDivider p o by2 = setClkodiv p o (if by2 then .div2 else .div1) := by rw [setClockDivider, h]

/-- The clock divider goes into its field and no other. -/
theorem setClockDivider_eq_set : ∃ v, setClockDivider p o by2 = RegField.set p (dividerField p) o v := by
  cases h : p.clockDivider with
  | sclkdiv => rw [dividerField_of_sclkdiv h, setClockDivider_of_sclkdiv o by2 h]; exact ⟨_, rfl⟩
  | clkodiv => rw [dividerField_of_clkodiv h, setClockDivider_of_clkodiv o by2 h]; exact ⟨_, rfl⟩

end

theorem dividerField_ne_osc_PLLEN (p : Params) : dividerField p ≠ .osc_PLLEN := by
  unfold dividerField; cases p.clockDivider <;> decide

section

variable {p : Params} (osc : OscSettings) (o : RegWord .oscillator)

theorem oscTransform_agrees : AgreeOutside p (oscFields p) o (oscTransform p osc o) := by
  obtain ⟨v, hv⟩ := setClockDivider_eq_set (p := p) (RegField.setBool p .osc_PLLEN o osc.pllEnable) osc.clockDivideBy2
  rw [oscTransform, hv]
  exact (((AgreeOutside.refl p _ o).setBool (by simp) _).set (by simp) v).setBool (by simp) _

variable (h : p.RegLayoutOk)

include h

theorem getBool_PLLEN_oscTransform : RegField.getBool p .osc_PLLEN (oscTransform p osc o) = osc.pllEnable := by
  obtain ⟨v, hv⟩ := setClockDivider_eq_set (p := p) (RegField.setBool p .osc_PLLEN o osc.pllEnable) osc.clockDivideBy2
  have hskip : RegField.get p .osc_PLLEN (RegField.set p (dividerField p) (RegField.setBool p .osc_PLLEN o osc.pllEnable) v) =
      RegField.get p .osc_PLLEN (RegField.setBool p .osc_PLLEN o osc.pllEnable) :=
    RegField.get_set_apart p _ _ (h.field_inWord _) (h.field_inWord _) (h.field_apart (dividerField_ne_osc_PLLEN p)) _ v
  rw [oscTransform, h.getBool_setBool, if_neg (by decide), hv, RegField.getBool, hskip]
  exact RegField.getBool_setBool p _ (h.field_inWord _) o _

theorem getBool_OSCDIS_oscTransform : RegField.getBool p .osc_OSCDIS (oscTransform p osc o) = false :=
  RegField.getBool_setBool p _ (h.field_inWord _) _ _

theorem getBool_SCLKDIV_oscTransform (hd : p.clockDivider = .sclkdiv) :
    RegField.getBool p .osc_SCLKDIV (oscTransform p osc o) = osc.clockDivideBy2 := by
  rw [oscTransform, setClockDivider_of_sclkdiv _ _ hd]
  simp [h.getBool_setBool]

theorem getClkodiv_oscTransform (hd : p.clockDivider = .clkodiv) :
    getClkodiv p (oscTransform p osc o) = if osc.clockDivideBy2 then .div2 else .div1 := by
  rw [oscTransform, setClockDivider_of_clkodiv _ _ hd, getClkodiv, h.get_setBool_of_ne _ (by decide)]
  exact h.decode_setNat_code _ _ h.codes.clkodiv (ClockOut.mem_all _) List.mem_cons_self (decodeClockOut_code h.codes _)

end

/-! ### ProgrammingIO (R309) -/

/-- The fields that the IO word sets. -/
abbrev ioFields : List (RegField .ioConfiguration) := [.io_XSTBYEN, .io_TXCANOD, .io_INTOD, .io_SOF, .io_PM0, .io_PM1]

theorem ioWord_agrees (p : Params) (io : IoSettings) : AgreeOutside p ioFields ⟨0⟩ (ioWord p io) :=
  ((((((AgreeOutside.refl p _ _).setBool (by simp) _).setBool (by simp) _).setBool (by simp) _).setBool (by simp) _).setBool
    (by simp) _).setBool (by simp) _

/-- Each of the six flags holds its setting: none of those set after it lies on it. -/
theorem getBool_ioWord {p : Params} (h : p.RegLayoutOk) (io : IoSettings) :
    RegField.getBool p .io_XSTBYEN (ioWord p io) = io.standbyEnable ∧
    RegField.getBool p .io_TXCANOD (ioWord p io) = io.txcanOpenDrain ∧
    RegField.getBool p .io_INTOD (ioWord p io) = io.intOpenDrain ∧
    RegField.getBool p .io_SOF (ioWord p io) = io.sofOnClko ∧
    RegField.getBool p .io_PM0 (ioWord p io) = io.gpio0Mode ∧
    RegField.getBool p .io_PM1 (ioWord p io) = io.gpio1Mode := by
  simp [ioWord, h.getBool_setBool]

/-- A word of zero holds zero in every field. -/
theorem RegField.get_zero (p : Params) {T : RegType} (f : RegField T) : RegField.get p f ⟨0⟩ = 0 := by
  simp [RegField.get, getBits]

/-! ### ProgrammingTxQueue (R310) -/

section

variable {p : Params} (q : TxqSettings) (t : RegWord .txQueueControl)

theorem txqTransform_agrees : AgreeOutside p [.txq_TXAT, .txq_TXPRI] t (txqTransform p q t) :=
  ((AgreeOutside.refl p _ t).setNat (by simp) _).setNat (by simp) _

theorem txqSizeTransform_of_ne_zero (hs : q.size ≠ 0) :
    txqSizeTransform p q t = setTxqPlsize p (RegField.setNat p .txq_FSIZE t (fifoSizeCode q.size)) q.payload := by
  rw [txqSizeTransform, setTxqFifoSize, if_neg hs]

theorem txqSizeTransform_agrees : AgreeOutside p [.txq_FSIZE, .txq_PLSIZE] t (txqSizeTransform p q t) := by
  by_cases hs : q.size = 0
  · rw [txqSizeTransform, setTxqFifoSize, if_pos hs]
    exact AgreeOutside.refl p _ t
  · rw [txqSizeTransform_of_ne_zero q t hs]
    exact ((AgreeOutside.refl p _ t).setNat (by simp) _).setNat (by simp) _

variable (h : p.RegLayoutOk)

include h

theorem getTxqTxat_txqTransform : getTxqTxat p (txqTransform p q t) = q.retransmission := by
  rw [txqTransform, getTxqTxat, setTxqPriority, h.get_setNat_of_ne _ (by decide)]
  exact h.decode_setNat_code _ t h.codes.txat q.retransmission.mem_all List.mem_cons_self (decodeRetransmission_code h.codes _)

theorem get_TXPRI_txqTransform : (RegField.get p .txq_TXPRI (txqTransform p q t)).toNat = q.priority.toNat :=
  RegField.get_setNat p _ (h.field_inWord _) _ (by rw [h.priority.1]; exact q.priority.isLt)

theorem txqFifoSize_txqSizeTransform (hs : q.size ≠ 0) : txqFifoSize p (txqSizeTransform p q t) = min q.size 32 := by
  have hdepth : RegField.setDepth p .txq_FSIZE t q.size = .ok (RegField.setNat p .txq_FSIZE t (fifoSizeCode q.size)) :=
    if_neg hs
  rw [txqSizeTransform_of_ne_zero q t hs, txqFifoSize, setTxqPlsize, h.get_setNat_of_ne _ (by decide)]
  exact RegField.depth_of_setDepth (h.field_inWord _) h.fsize.1 hdepth

theorem get_PLSIZE_txqSizeTransform (hs : q.size ≠ 0) :
    (RegField.get p .txq_PLSIZE (txqSizeTransform p q t)).toNat = PayloadSize.code p q.payload := by
  rw [txqSizeTransform_of_ne_zero q t hs]
  exact RegField.get_setNat p _ (h.field_inWord _) _ (h.codes.plsize.2 _ q.payload.mem_all _ List.mem_cons_self)

end

/-! ### The reconcile (R310) -/

section

variable {p : Params} (h : p.RegLayoutOk) (inUse : Bool) (c : RegWord .chipControl)

include h

/-- TXQEN is one bit, set to "in use". -/
theorem getLsbD_setBool_TXQEN (i : Nat) : (RegField.setBool p .chip_TXQEN c inUse).bits.getLsbD i =
    if i = RegField.lo p .chip_TXQEN then inUse else c.bits.getLsbD i :=
  RegField.getLsbD_setBool p _ (h.field_inWord _) (h.flag_width _ rfl) c inUse i

theorem getBool_TXQEN (t : RegWord .chipControl) :
    RegField.getBool p .chip_TXQEN t = t.bits.getLsbD (RegField.lo p .chip_TXQEN) :=
  RegField.getBool_eq_bit p _ (h.flag_width _ rfl) t

theorem getLsbD_reconcileWord_of_none (hb : p.tefReconcileBit = none) (i : Nat) :
    (reconcileWord p inUse c).bits.getLsbD i =
      if i = RegField.lo p .chip_TXQEN then inUse else c.bits.getLsbD i := by
  simp only [reconcileWord, hb]
  exact getLsbD_setBool_TXQEN h inUse c i

/-- The TEF's bit is set last, so it wins where it is TXQEN's own. -/
theorem getLsbD_reconcileWord_of_some {b : Fin 32} (hb : p.tefReconcileBit = some b) (i : Nat) :
    (reconcileWord p inUse c).bits.getLsbD i =
      if i = b.val then !inUse else if i = RegField.lo p .chip_TXQEN then inUse else c.bits.getLsbD i := by
  simp only [reconcileWord, hb]
  rw [getLsbD_setBit, getLsbD_setBool_TXQEN h]

/-- Nothing is to correct exactly when TXQEN agrees already. -/
theorem reconcileWord_eq_iff_of_none (hb : p.tefReconcileBit = none) :
    (reconcileWord p inUse c).bits = c.bits ↔ RegField.getBool p .chip_TXQEN c = inUse := by
  have hbit := getLsbD_reconcileWord_of_none h inUse c hb
  rw [getBool_TXQEN h]
  refine ⟨fun e => by rw [← e, hbit, if_pos rfl], fun e => BitVec.eq_of_getLsbD_eq fun i _ => ?_⟩
  rw [hbit]
  split
  · next hi => rw [hi, e]
  · rfl

/-- With a TEF bit, that bit has to agree, and TXQEN too unless it is the same bit. -/
theorem reconcileWord_eq_iff_of_some {b : Fin 32} (hb : p.tefReconcileBit = some b) :
    (reconcileWord p inUse c).bits = c.bits ↔ c.bits.getLsbD b.val = (!inUse) ∧
      (b.val = RegField.lo p .chip_TXQEN ∨ RegField.getBool p .chip_TXQEN c = inUse) := by
  have hbit := getLsbD_reconcileWord_of_some h inUse c hb
  rw [getBool_TXQEN h]
  constructor
  · intro e
    refine ⟨by rw [← e, hbit, if_pos rfl], or_iff_not_imp_left.2 fun hne => ?_⟩
    rw [← e, hbit, if_neg (Ne.symm hne), if_pos rfl]
  · rintro ⟨htef, htxq⟩
    refine BitVec.eq_of_getLsbD_eq fun i _ => ?_
    rw [hbit]
    split
    · next hi => rw [hi, htef]
    · next hi =>
      split
      · next hlo => rw [hlo, htxq.resolve_left fun e => hi (hlo.trans e.symm)]
      · rfl

end

end Sys2Proof
end

section
/-! PROOFS. The sequencer's transitions against a script of answers (spec/47_host_sequencer.md R304 to R310; log 3): operation by
operation what each returns, sends and leaves of the script. -/

namespace Sys2Proof.Machine

open Sys2Proof

/-! ### What an operation does against a script -/

/-- Given the answers `script` under the parameters `p`, `m` returns `r`, sends `evs`, and leaves the answers `rest`. -/
def RunsTo {α : Type} (p : Params) (script : List Answer) (m : State → α × State) (r : α) (evs : List Event)
    (rest : List Answer) : Prop :=
  ∀ s, Scripted p script s → ∃ t, m s = (r, t) ∧ ScriptedRun p s t evs rest

namespace RunsTo

variable {p : Params} {script mid rest : List Answer} {e₁ e₂ e₃ : List Event}

/-- An operation may look at the parameters, which the script fixes. -/
theorem congr {α : Type} {m m' : State → α × State} {r : α} (h : RunsTo p script m r e₁ rest)
    (heq : ∀ s, s.cfg = p → m' s = m s) : RunsTo p script m' r e₁ rest := fun s hs => by
  rw [heq s hs.cfg]; exact h s hs

section

variable {α : Type} {m : State → α × State} {r : α} {s : State} (hc : s.cs = .inactive) (hs : s.script = script)

include hc hs

/-- From a given state: the result, the answers left, and the trace. -/
theorem from_state (h : RunsTo s.cfg script m r e₁ rest) :
    ∃ t, m s = (r, t) ∧ t.script = rest ∧ t.trace = s.trace ++ e₁ := by
  obtain ⟨t, ht, hr⟩ := h s ⟨rfl, hc, hs⟩
  exact ⟨t, ht, hr.left.script, hr.trace⟩

theorem ends (h : RunsTo s.cfg script m r e₁ rest) : ∃ t, m s = (r, t) ∧ t.trace = s.trace ++ e₁ := by
  obtain ⟨t, ht, -, htrace⟩ := h.from_state hc hs
  exact ⟨t, ht, htrace⟩

end

section

variable {ε α β : Type} {m : Op ε α} {k : α → Op ε β} {a : α} {e : ε} {r : Result ε β}

theorem pure (a : α) : RunsTo p script (Op.pure (ε := ε) a) (.ok a) [] script := fun s hs =>
  ⟨s, rfl, SameHost.refl s, (List.append_nil _).symm, hs⟩

theorem bind (hm : RunsTo p script m (.ok a) e₁ mid) (hk : RunsTo p mid (k a) r e₂ rest) :
    RunsTo p script (Op.bind m k) r (e₁ ++ e₂) rest := fun s hs => by
  obtain ⟨t, ht, hr⟩ := hm s hs
  obtain ⟨u, hu, hr'⟩ := hk t hr.left
  exact ⟨u, (Op.bind_ok ht).trans hu, hr.trans hr'⟩

/-- `bind`, where the second operation sent two frames. -/
theorem bind_append (hm : RunsTo p script m (.ok a) e₁ mid) (hk : RunsTo p mid (k a) r (e₂ ++ e₃) rest) :
    RunsTo p script (Op.bind m k) r (e₁ ++ e₂ ++ e₃) rest := List.append_assoc e₁ e₂ e₃ ▸ hm.bind hk

theorem bind_err (hm : RunsTo p script m (.err e) e₁ rest) : RunsTo p script (Op.bind m k) (.err e) e₁ rest := fun s hs => by
  obtain ⟨t, ht, hr⟩ := hm s hs
  exact ⟨t, Op.bind_err ht, hr⟩

end

section

variable {α : Type} {m : Op TransportError α} {a : α} {e : TransportError} {next : SeqPhase}

theorem nextPhase_ok (h : RunsTo p script m (.ok a) e₁ rest) :
    RunsTo p script (fun s => nextPhase next (m s)) next e₁ rest := fun s hs => by
  obtain ⟨t, ht, hr⟩ := h s hs
  exact ⟨t, congrArg (nextPhase next) ht, hr⟩

theorem nextPhase_err (h : RunsTo p script m (.err e) e₁ rest) :
    RunsTo p script (fun s => nextPhase next (m s)) (.failed (.other e)) e₁ rest := fun s hs => by
  obtain ⟨t, ht, hr⟩ := h s hs
  exact ⟨t, congrArg (nextPhase next) ht, hr⟩

end

end RunsTo

/-! ### Registers -/

section

variable {p : Params} {x given : List Byte} {m : Nat} {rest : List Answer} (q : FixedReg)
  (f : RegWord q.reg → RegWord q.reg) (v : Word)

theorem readSfr_runsTo_given (r : Sfr) (hl : given.length = 6) :
    RunsTo p (.ok given :: rest) (readSfr r) (.ok (fromLE32 (given.drop 2))) (sfrReadEvents p r (some given)) rest := by
  rintro s ⟨rfl, hc, hs⟩
  obtain ⟨t, he, hr⟩ := readRegAt_scripted (s.cfg.sfrAddrOf r) hl hs
  exact ⟨t, he, hr.scriptedRun ⟨rfl, hc, hs⟩⟩

theorem readSfr_runsTo_err (r : Sfr) :
    RunsTo p (.fail m :: rest) (readSfr r) (.err .spiRead) (sfrReadEvents p r none) rest := fun _ => readSfr_failed r

theorem modifySfr_runsTo_ok :
    RunsTo p (.ok (sfrAnswer v) :: .ok x :: rest) (modifySfr q f) (.ok ())
      (sfrReadEvents p q.sfr (some (sfrAnswer v)) ++ sfrWriteEvents p q.sfr (f ⟨v⟩).bits true) rest :=
  RunsTo.congr (fun _ => transformSfr_scripted q.sfr _ v) fun s _ => modifySfr_eq_transformSfr q f s

theorem modifySfr_runsTo_spiWrite :
    RunsTo p (.ok (sfrAnswer v) :: .fail m :: rest) (modifySfr q f) (.err .spiWrite)
      (sfrReadEvents p q.sfr (some (sfrAnswer v)) ++ sfrWriteEvents p q.sfr (f ⟨v⟩).bits false) rest :=
  RunsTo.congr (fun _ => transformSfr_failed_write q.sfr _ v) fun s _ => modifySfr_eq_transformSfr q f s

theorem modifySfr_runsTo_spiRead :
    RunsTo p (.fail m :: rest) (modifySfr q f) (.err .spiRead) (sfrReadEvents p q.sfr none) rest :=
  RunsTo.congr (fun _ => transformSfr_failed_read q.sfr _) fun s _ => modifySfr_eq_transformSfr q f s

end

/-! ### Polling (R305, R308) -/

/-- One of the sequencer's two polls: the register read, what a word must show, the attempts there are, and the phases. -/
structure Poll where
  reg : Sfr
  shows : Params → Word → Bool
  attempts : Nat
  again : Nat → SeqPhase
  found : SeqPhase
  timeout : ConfigError

namespace Poll

/-- AwaitingConfigMode (R305). -/
def configMode : Poll where
  reg := .c1con
  shows p w := decide (getOpmod p ⟨w⟩ = .mode .configuration)
  attempts := configPollAttempts
  again := .awaitingConfigMode
  found := .verifyingComms 0
  timeout := .configurationModeTimeout

/-- AwaitingPLL (R308). -/
def pll : Poll where
  reg := .osc
  shows p w := RegField.getBool p .osc_PLLRDY ⟨w⟩
  attempts := pllPollAttempts
  again := .awaitingPll
  found := .programmingIo
  timeout := .pllNotReady

/-- One attempt of a poll, after its read: found, once more after a delay, or timed out. -/
def judge (P : Poll) (attempt : Nat) (p : Params) : Result TransportError Word × State → SeqPhase × State
  | (r, t) =>
    if P.shows p (pollReading r) then (P.found, t)
    else if attempt < P.attempts then (P.again (attempt + 1), delayUs pollDelayUs t)
    else (.failed P.timeout, t)

/-- The sequencer's transitions from the phases of a poll are its attempts. -/
def IsSequencers (P : Poll) : Prop :=
  ∀ settings attempt s, seqTransition settings (P.again attempt) s = P.judge attempt s.cfg (readSfr P.reg s)

theorem configMode_isSequencers : configMode.IsSequencers := fun settings attempt s => by
  simp only [configMode, judge, decide_eq_true_eq]
  rfl

theorem pll_isSequencers : pll.IsSequencers := fun _ _ _ => rfl

/-- A scripted answer to a poll whose word does not show what is awaited; a failure counts as a word of zero. -/
def Misses (P : Poll) (p : Params) : Answer → Prop
  | .ok given => given.length = 6 ∧ P.shows p (fromLE32 (given.drop 2)) = false
  | .fail _ => P.shows p 0 = false
  | .byEnv => False

theorem configMode_misses {p : Params} {a : Answer} (h : NotYetConfigured p a) : configMode.Misses p a := by
  cases a with
  | ok given => exact ⟨h.1, decide_eq_false h.2⟩
  | fail k => exact decide_eq_false h
  | byEnv => exact h

theorem pll_misses {p : Params} {a : Answer} (h : NotYetLocked p a) : pll.Misses p a := by
  cases a with
  | ok given => exact h
  | fail k =>
    show RegField.getBool p .osc_PLLRDY ⟨0⟩ = false
    rw [RegField.getBool, RegField.get_zero]
    simpa using (RegField.width_pos p .osc_PLLRDY).ne'
  | byEnv => exact h

section

variable {P : Poll} (hP : P.IsSequencers) {p : Params} {a : Answer} {l rest : List Answer} {settings : Settings}
  {attempt : Nat}

/-- A poll that misses reads a word that does not show what is awaited. -/
theorem read_of_misses (h : P.Misses p a) :
    ∃ r, P.shows p (pollReading r) = false ∧ RunsTo p (a :: rest) (readSfr P.reg) r (sfrReadEvents p P.reg a.reading) rest := by
  cases a with
  | ok given => exact ⟨.ok (fromLE32 (given.drop 2)), h.2, readSfr_runsTo_given P.reg h.1⟩
  | fail k => exact ⟨.err .spiRead, h, readSfr_runsTo_err P.reg⟩
  | byEnv => exact h.elim

include hP

/-- A poll that shows what is awaited ends the polling. -/
theorem runsTo_found {good : List Byte} (hl : good.length = 6) (hgood : P.shows p (fromLE32 (good.drop 2)) = true) :
    RunsTo p (.ok good :: rest) (seqTransition settings (P.again attempt)) P.found
      (sfrReadEvents p P.reg (some good)) rest := fun s hs => by
  obtain ⟨t, ht, hr⟩ := readSfr_runsTo_given P.reg hl s hs
  refine ⟨t, ?_, hr⟩
  rw [hP, ht, judge, hs.cfg, pollReading, if_pos hgood]

/-- One that misses waits and goes on, while there are attempts left. -/
theorem runsTo_again (h : P.Misses p a) (hlt : attempt < P.attempts) :
    RunsTo p (a :: rest) (seqTransition settings (P.again attempt)) (P.again (attempt + 1))
      (sfrReadEvents p P.reg a.reading ++ [.delay 500]) rest := fun s hs => by
  obtain ⟨r, hmiss, hread⟩ := read_of_misses h
  obtain ⟨t, ht, hr⟩ := hread s hs
  have hdelay : ScriptedRun p t (delayUs pollDelayUs t) [.delay 500] rest :=
    ⟨(delayUs_quiet _ _).host, rfl, hr.left.cfg, hr.left.cs, hr.left.script⟩
  refine ⟨delayUs pollDelayUs t, ?_, hr.trans hdelay⟩
  rw [hP, ht, judge, hs.cfg, hmiss, if_neg (by decide), if_pos hlt]

/-- The last one that misses ends in the poll's error. -/
theorem runsTo_timeout (h : P.Misses p a) (hge : ¬ attempt < P.attempts) :
    RunsTo p (a :: rest) (seqTransition settings (P.again attempt)) (.failed P.timeout)
      (sfrReadEvents p P.reg a.reading) rest := fun s hs => by
  obtain ⟨r, hmiss, hread⟩ := read_of_misses h
  obtain ⟨t, ht, hr⟩ := hread s hs
  refine ⟨t, ?_, hr⟩
  rw [hP, ht, judge, hs.cfg, hmiss, if_neg (by decide), if_neg hge]

/-- Polls that miss, one after another, and then one transition more. -/
theorem runsTo_iterate {evs : List Event} {phase : SeqPhase} {left : List Answer} (hl : ∀ a ∈ l, P.Misses p a)
    (hle : attempt + l.length ≤ P.attempts)
    (h : RunsTo p rest (seqTransition settings (P.again (attempt + l.length))) phase evs left) :
    RunsTo p (l ++ rest) (fun s => seqIterate settings (l.length + 1) (P.again attempt, s)) phase
      (pollEvents (readFrameBytes (sfrReadOp p) (p.sfrAddrOf P.reg) 4) l ++ evs) left := by
  induction l generalizing attempt with
  | nil => exact h
  | cons a l ih =>
    obtain ⟨hmiss, hl⟩ := List.forall_mem_cons.1 hl
    rw [List.length_cons] at hle h
    intro s hs
    obtain ⟨t, ht, hr⟩ := runsTo_again hP hmiss (show attempt < P.attempts by omega) s hs
    have hnext : attempt + 1 + l.length = attempt + (l.length + 1) := by omega
    obtain ⟨u, hu, hr'⟩ := ih hl (show attempt + 1 + l.length ≤ P.attempts by omega) (hnext ▸ h) t hr.left
    refine ⟨u, ?_, by simpa [pollEvents] using hr.trans hr'⟩
    show seqIterate settings (l.length + 1) (seqTransition settings (P.again attempt) s) = (phase, u)
    rw [ht]
    exact hu

/-- A poll is found after the polls that missed, or times out when the last attempt misses too. -/
theorem budget {s : State} (hc : s.cs = .inactive) (hl : ∀ a ∈ l, P.Misses s.cfg a) (hlt : l.length < P.attempts) :
    let rd := readFrameBytes (sfrReadOp s.cfg) (s.cfg.sfrAddrOf P.reg) 4
    (∀ good : List Byte, s.script = l ++ .ok good :: rest → good.length = 6 →
      P.shows s.cfg (fromLE32 (good.drop 2)) = true →
      ∃ t, seqIterate settings (l.length + 1) (P.again 1, s) = (P.found, t) ∧
        t.trace = s.trace ++ pollEvents rd l ++ readEvents .inactive rd (some good)) ∧
    (∀ last : Answer, l.length + 1 = P.attempts → s.script = l ++ last :: rest → P.Misses s.cfg last →
      ∃ t, seqIterate settings P.attempts (P.again 1, s) = (.failed P.timeout, t) ∧
        t.trace = s.trace ++ pollEvents rd l ++ readEvents .inactive rd last.reading) := by
  simp only [List.append_assoc]
  refine ⟨fun good hs hgood hshows => ?_, fun last heq hs hmiss => ?_⟩
  · exact (runsTo_iterate hP hl (by omega) (runsTo_found hP hgood hshows)).ends hc hs
  · rw [← heq]
    exact (runsTo_iterate hP hl (by omega) (runsTo_timeout hP hmiss (by omega))).ends hc hs

end

end Poll

/-- Settles O53: the poll of OSC has three attempts. -/
theorem pllPollingBudget : Obligations.PllPollingBudget := by
  intro settings s l rest hc hl hle rd
  obtain ⟨hfound, htimeout⟩ := Poll.budget Poll.pll_isSequencers (settings := settings) (rest := rest) hc
    (fun a ha => Poll.pll_misses (hl a ha)) (Nat.lt_succ_of_le hle)
  exact ⟨hfound, fun last heq hs hlast => htimeout last (congrArg (· + 1) heq) hs (Poll.pll_misses hlast)⟩

/-! ### Phases of one modify: RequestingConfigMode (R304) and ProgrammingOscillator (R307) -/

/-- A phase that is one modify goes on where both its frames succeed, and ends in Other with the one that fails. -/
theorem seqTransition_of_modifySfr {settings : Settings} {phase next : SeqPhase} {q : FixedReg}
    {f : RegWord q.reg → RegWord q.reg} {s : State} (v : Word) (rest : List Answer)
    (hphase : seqTransition settings phase s = nextPhase next (modifySfr q f s)) (hc : s.cs = .inactive) :
    let rd := sfrReadEvents s.cfg q.sfr
    let wr := sfrWriteEvents s.cfg q.sfr (f ⟨v⟩).bits
    (∀ x, s.script = .ok (sfrAnswer v) :: .ok x :: rest → ∃ t, seqTransition settings phase s = (next, t) ∧
      t.script = rest ∧ t.trace = s.trace ++ rd (some (sfrAnswer v)) ++ wr true) ∧
    (∀ m, s.script = .ok (sfrAnswer v) :: .fail m :: rest →
      ∃ t, seqTransition settings phase s = (.failed (.other .spiWrite), t) ∧ t.script = rest ∧
        t.trace = s.trace ++ rd (some (sfrAnswer v)) ++ wr false) ∧
    (∀ m, s.script = .fail m :: rest → ∃ t, seqTransition settings phase s = (.failed (.other .spiRead), t) ∧
      t.script = rest ∧ t.trace = s.trace ++ rd none) := by
  rw [hphase]
  simp only [List.append_assoc]
  exact ⟨fun x hs => (modifySfr_runsTo_ok q f v).nextPhase_ok.from_state hc hs,
    fun m hs => (modifySfr_runsTo_spiWrite q f v).nextPhase_err.from_state hc hs,
    fun m hs => (modifySfr_runsTo_spiRead q f).nextPhase_err.from_state hc hs⟩

/-- Settles O52: one modify of C1CON's REQOP, and the poll of C1CON, which has five attempts. -/
theorem configModePollingBudget : Obligations.ConfigModePollingBudget := by
  intro settings s con rd wr req
  refine ⟨rfl, fun c rest hc hlay => ?request, fun l rest hc hl hle => ?poll⟩
  case request =>
    refine ⟨(setReqop s.cfg ⟨c⟩ .configuration).bits, get_setReqop hlay _ _, fun hrows => ?_, getReqop_setReqop hlay _,
      fun i hi => setReqop_agrees s.cfg ⟨c⟩ .configuration i (List.forall_mem_singleton.2 hi), ?_⟩
    · rw [get_setReqop hlay, OpMode.code_of_no_rows hrows]; rfl
    · exact seqTransition_of_modifySfr (settings := settings) (q := .chipControl)
        (f := fun c => setReqop s.cfg c .configuration) c rest rfl hc
  case poll =>
    obtain ⟨hfound, htimeout⟩ := Poll.budget Poll.configMode_isSequencers (settings := settings) (rest := rest) hc
      (fun a ha => Poll.configMode_misses (hl a ha)) (Nat.lt_succ_of_le hle)
    refine ⟨fun good hs hlen hgood => hfound good hs hlen (decide_eq_true hgood), fun last heq hs hlast => ?_⟩
    exact htimeout last (congrArg (· + 1) heq) hs (Poll.configMode_misses hlast)

/-- Settles O55: one modify of OSC; the fields that its transform sets are read back, and every other bit is as read. -/
theorem oscillatorTransformSetsThreeFields : Obligations.OscillatorTransformSetsThreeFields := by
  intro settings s o rest hc hlay osc divider rd wr
  obtain ⟨hok, hwrite, hread⟩ := seqTransition_of_modifySfr (settings := settings) (phase := .programmingOscillator)
    (q := .oscillator) (f := oscTransform s.cfg settings.osc) o rest rfl hc
  have hagree := oscTransform_agrees (p := s.cfg) settings.osc ⟨o⟩
  refine ⟨(oscTransform s.cfg osc ⟨o⟩).bits, getBool_PLLEN_oscTransform osc _ hlay, getBool_OSCDIS_oscTransform osc _ hlay,
    getBool_SCLKDIV_oscTransform osc _ hlay, getClkodiv_oscTransform osc _ hlay, hagree,
    fun f hf => hagree.get_eq hlay hf, fun x hs => ?_, fun m hs => ?_, fun m hs => ?_⟩
  · exact (hok x hs).imp fun _ ⟨hphase, _, htrace⟩ => ⟨hphase, htrace⟩
  · exact (hwrite m hs).imp fun _ ⟨hphase, _, htrace⟩ => ⟨hphase, htrace⟩
  · exact (hread m hs).imp fun _ ⟨hphase, _, htrace⟩ => ⟨hphase, htrace⟩

/-! ### ProgrammingIO (R309) -/

/-- A register write as the environment answers it. -/
theorem writeSfr_of_answer (q : Sfr) (w : Word) (s : State) :
    let wr := writeFrameBytes (sfrWriteOp s.cfg) (s.cfg.sfrAddrOf q) (le32 w)
    let ok := (envAnswer (csReady s) wr).succeeded
    ∃ t, writeSfr q w s = (if ok then .ok () else .err .spiWrite, t) ∧ t.trace = s.trace ++ writeEvents s.cs wr ok := by
  dsimp only
  rcases writeRegAt_spec (s.cfg.sfrAddrOf q) w s with ⟨bytesIn, t, hv, he, hr⟩ | ⟨k, t, hv, he, hr⟩ <;> rw [hv]
  · exact ⟨t, he, hr.trace⟩
  · exact ⟨t, he, hr.trace⟩

theorem nextPhase_of_ite {next : SeqPhase} {ok : Bool} {e : TransportError} {t : State} :
    nextPhase next (if ok then .ok () else .err e, t) = (if ok then next else .failed (.other e), t) := by
  cases ok <;> rfl

/-- Settles O56: one write of the word built from zero. -/
theorem ioWordIsBuiltFromZero : Obligations.IoWordIsBuiltFromZero := by
  intro settings s hc hlay io
  have hagree := ioWord_agrees s.cfg io
  obtain ⟨hxstbyen, htxcanod, hintod, hsof, hpm0, hpm1⟩ := getBool_ioWord hlay io
  refine ⟨(ioWord s.cfg io).bits, hxstbyen, htxcanod, hintod, hsof, hpm0, hpm1, fun f hf => ?_, fun i hi => ?_, ?_⟩
  · have hother : f ∉ ioFields := by revert f; decide
    have hzero : RegField.get s.cfg f (ioWord s.cfg io) = 0 := (hagree.get_eq hlay hother).trans (f.get_zero s.cfg)
    exact congrArg BitVec.toNat hzero
  · exact (hagree i hi).trans BitVec.getLsbD_zero
  · obtain ⟨t, ht, htrace⟩ := writeSfr_of_answer .iocon (ioWord s.cfg io).bits s
    rw [hc] at htrace
    exact ⟨t, (congrArg (nextPhase _) ht).trans nextPhase_of_ite, htrace⟩

end Sys2Proof.Machine
end

section
/-! PROOFS. VerifyingComms at one bit (spec/47_host_sequencer.md R306): a RAM write, a RAM read, and the comparison. -/

namespace Sys2Proof.Machine

open Sys2Proof

/-! ### RAM accesses against a script -/

section

variable {p : Params} {addr : Nat} {bytes buf given x : List Byte} {m : Nat} {rest : List Answer}

theorem writeRam_runsTo_ok (h : ramOk p addr bytes.length = true) :
    RunsTo p (.ok x :: rest) (writeRam addr bytes) (.ok ())
      (writeEvents .inactive (writeFrameBytes p.opWrite (BitVec.ofNat 12 addr) bytes) true) rest := by
  rintro s ⟨rfl, hc, hs⟩
  obtain ⟨t, he, hr⟩ := frameWrite_scripted s.cfg.opWrite (BitVec.ofNat 12 addr) bytes hs
  exact ⟨t, (if_pos h).trans (Op.map_ok he), hr.scriptedRun ⟨rfl, hc, hs⟩⟩

theorem writeRam_runsTo_err (h : ramOk p addr bytes.length = true) :
    RunsTo p (.fail m :: rest) (writeRam addr bytes) (.err .spiWrite)
      (writeEvents .inactive (writeFrameBytes p.opWrite (BitVec.ofNat 12 addr) bytes) false) rest := by
  rintro s ⟨rfl, hc, hs⟩
  obtain ⟨t, he, hr⟩ := frameWrite_failed s.cfg.opWrite (BitVec.ofNat 12 addr) bytes hs
  exact ⟨t, (if_pos h).trans (Op.map_err he), hr.scriptedRun ⟨rfl, hc, hs⟩⟩

theorem readRam_runsTo_ok (h : ramOk p addr buf.length = true) (hl : given.length = buf.length + 2) :
    RunsTo p (.ok given :: rest) (readRam addr buf) (.ok (), given.drop 2)
      (readEvents .inactive (readFrameBytes p.opRead (BitVec.ofNat 12 addr) buf.length) (some given)) rest := by
  rintro s ⟨rfl, hc, hs⟩
  obtain ⟨t, he, hr⟩ := frameRead_scripted s.cfg.opRead (BitVec.ofNat 12 addr) hl hs
  refine ⟨t, (if_pos h).trans ?_, hr.scriptedRun ⟨rfl, hc, hs⟩⟩
  rw [he]

/-- A failed read leaves a buffer of any bytes (log 16). -/
theorem readRam_runsTo_err (h : ramOk p addr buf.length = true) {s : State} (hs : Scripted p (.fail m :: rest) s) :
    ∃ any t, readRam addr buf s = ((.err .spiRead, any), t) ∧ ScriptedRun p s t
      (readEvents .inactive (readFrameBytes p.opRead (BitVec.ofNat 12 addr) buf.length) none) rest := by
  obtain ⟨rfl, hc, hscript⟩ := hs
  obtain ⟨t, he, hr⟩ := frameRead_failed s.cfg.opRead (BitVec.ofNat 12 addr) buf.length hscript
  refine ⟨(List.range buf.length).map (Config.freeBufferByte s.handles s.draws addr), t, (if_pos h).trans ?_,
    hr.scriptedRun ⟨rfl, hc, hscript⟩⟩
  rw [he]
  rfl

end

/-! ### The echo of one bit -/

section

variable {bit : Nat} {s t u : State} {buf : List Byte}

theorem verifyBit_of_failed_write {e : Error} (h : writeRam echoAddr (echoPattern s.cfg bit) s = (.err e, t)) :
    verifyBit bit s = (.failed (echoError e), t) := by rw [verifyBit, h]

theorem verifyBit_of_failed_read {e : Error} (h : writeRam echoAddr (echoPattern s.cfg bit) s = (.ok (), t))
    (h' : readRam echoAddr [0, 0, 0, 0] t = ((.err e, buf), u)) : verifyBit bit s = (.failed (echoError e), u) := by
  simp only [verifyBit, h, h']

theorem verifyBit_of_echo (h : writeRam echoAddr (echoPattern s.cfg bit) s = (.ok (), t))
    (h' : readRam echoAddr [0, 0, 0, 0] t = ((.ok (), buf), u)) :
    verifyBit bit s =
      (if buf = echoPattern s.cfg bit then (if bit < 31 then .verifyingComms (bit + 1) else .programmingOscillator)
        else .failed .spiFailedRamEcho, u) := by
  simp only [verifyBit, h, h', ne_eq, ite_not]
  split_ifs <;> rfl

end

@[simp] theorem echoPattern_length (p : Params) (bit : Nat) : (echoPattern p bit).length = 4 := native32_length _ _

/-- Settles O54: the write's answer, the read's and the payload decide, in this order. -/
theorem echoTestJudgesEachBit : Obligations.EchoTestJudgesEachBit := by
  intro settings s bit x given rest m hc pat wr rd
  have hpat : ramOk s.cfg echoAddr (echoPattern s.cfg bit).length = true := by rw [echoPattern_length]; exact ramOk_echo _
  have written : ∀ {tail : List Answer}, s.script = .ok x :: tail →
      ∃ t, writeRam echoAddr (echoPattern s.cfg bit) s = (.ok (), t) ∧
        ScriptedRun s.cfg s t (writeEvents .inactive wr true) tail :=
    fun hs => writeRam_runsTo_ok hpat s ⟨rfl, hc, hs⟩
  refine ⟨fun hs hl => ?_, fun hs => ?_, fun hs => ?_⟩
  · obtain ⟨t, ht, hr⟩ := written hs
    obtain ⟨u, hu, hr'⟩ := readRam_runsTo_ok (buf := [0, 0, 0, 0]) (ramOk_echo s.cfg) hl t hr.left
    exact ⟨u, verifyBit_of_echo ht hu, by rw [hr'.trace, hr.trace]; rfl⟩
  · obtain ⟨t, ht, hr⟩ := writeRam_runsTo_err hpat s ⟨rfl, hc, hs⟩
    exact ⟨t, verifyBit_of_failed_write ht, hr.trace⟩
  · obtain ⟨t, ht, hr⟩ := written hs
    obtain ⟨any, u, hu, hr'⟩ := readRam_runsTo_err (buf := [0, 0, 0, 0]) (ramOk_echo s.cfg) hr.left
    exact ⟨u, verifyBit_of_failed_read ht hu, by rw [hr'.trace, hr.trace]; rfl⟩

end Sys2Proof.Machine
end

section
/-! PROOFS. ProgrammingTxQueue (spec/47_host_sequencer.md R310): the modifies of C1TXQCON, and the reconcile of C1CON. -/

namespace Sys2Proof.Machine

open Sys2Proof

/-! ### The reconcile -/

/-- What the reconcile does with the word read: the corrective write, or nothing. -/
def correctChipControl (p : Params) (inUse : Bool) (c : Word) : Op TransportError Unit :=
  if (reconcileWord p inUse ⟨c⟩).bits ≠ c then writeSfr .c1con (reconcileWord p inUse ⟨c⟩).bits else Op.pure ()

section

variable {p : Params} {inUse : Bool} {c : Word} {x : List Byte} {m : Nat} {rest : List Answer}

theorem correctChipControl_of_eq (h : (reconcileWord p inUse ⟨c⟩).bits = c) : correctChipControl p inUse c = Op.pure () :=
  if_neg (not_not.2 h)

theorem correctChipControl_of_ne (h : (reconcileWord p inUse ⟨c⟩).bits ≠ c) :
    correctChipControl p inUse c = writeSfr .c1con (reconcileWord p inUse ⟨c⟩).bits := if_pos h

theorem reconcile_eq (s : State) (hs : s.cfg = p) :
    reconcile inUse s = Op.bind (readSfr .c1con) (correctChipControl p inUse) s := by subst hs; rfl

/-- A word that agrees: one read and no write. -/
theorem reconcile_runsTo_of_eq (h : (reconcileWord p inUse ⟨c⟩).bits = c) :
    RunsTo p (.ok (sfrAnswer c) :: rest) (reconcile inUse) (.ok ()) (sfrReadEvents p .c1con (some (sfrAnswer c))) rest := by
  have hcorrect : RunsTo p rest (correctChipControl p inUse c) (.ok ()) [] rest :=
    correctChipControl_of_eq h ▸ RunsTo.pure ()
  have hbind := RunsTo.bind (fun _ => readSfr_scripted .c1con c) hcorrect
  rw [List.append_nil] at hbind
  exact hbind.congr reconcile_eq

/-- A word that disagrees: the corrective write, as it is answered. -/
theorem reconcile_runsTo_of_ne (h : (reconcileWord p inUse ⟨c⟩).bits ≠ c) :
    RunsTo p (.ok (sfrAnswer c) :: .ok x :: rest) (reconcile inUse) (.ok ())
      (sfrReadEvents p .c1con (some (sfrAnswer c)) ++ sfrWriteEvents p .c1con (reconcileWord p inUse ⟨c⟩).bits true) rest := by
  refine (RunsTo.bind (fun _ => readSfr_scripted .c1con c) ?_).congr reconcile_eq
  rw [correctChipControl_of_ne h]
  exact fun _ => writeSfr_scripted .c1con _

theorem reconcile_runsTo_spiWrite (h : (reconcileWord p inUse ⟨c⟩).bits ≠ c) :
    RunsTo p (.ok (sfrAnswer c) :: .fail m :: rest) (reconcile inUse) (.err .spiWrite)
      (sfrReadEvents p .c1con (some (sfrAnswer c)) ++ sfrWriteEvents p .c1con (reconcileWord p inUse ⟨c⟩).bits false) rest := by
  refine (RunsTo.bind (fun _ => readSfr_scripted .c1con c) ?_).congr reconcile_eq
  rw [correctChipControl_of_ne h]
  exact fun _ => writeSfr_failed .c1con _

theorem reconcile_runsTo_spiRead :
    RunsTo p (.fail m :: rest) (reconcile inUse) (.err .spiRead) (sfrReadEvents p .c1con none) rest :=
  (RunsTo.bind_err (readSfr_runsTo_err .c1con)).congr reconcile_eq

end

/-- Settles O57: the wanted word bit by bit, and the four ways of its one or two frames. -/
theorem reconcileWritesOnlyOnDisagreement : Obligations.ReconcileWritesOnlyOnDisagreement := by
  intro s inUse c rest hc hlay con rd wr txqen ends
  refine ⟨_, rfl, fun hb => ⟨?_, fun i hi => ?_, reconcileWord_eq_iff_of_none hlay inUse ⟨c⟩ hb⟩,
    fun b hb => ⟨?_, fun hne => ?_, fun i hi hib => ?_, reconcileWord_eq_iff_of_some hlay inUse ⟨c⟩ hb⟩, ?_⟩
  · rw [getBool_TXQEN hlay, getLsbD_reconcileWord_of_none hlay _ _ hb, if_pos rfl]
  · rw [getLsbD_reconcileWord_of_none hlay _ _ hb, if_neg hi]
  · rw [getLsbD_reconcileWord_of_some hlay _ _ hb, if_pos rfl]
  · rw [getBool_TXQEN hlay, getLsbD_reconcileWord_of_some hlay _ _ hb, if_neg (Ne.symm hne), if_pos rfl]
  · rw [getLsbD_reconcileWord_of_some hlay _ _ hb, if_neg hib, if_neg hi]
  · exact ⟨fun heq hs => (reconcile_runsTo_of_eq heq).ends hc hs, fun x hne hs => (reconcile_runsTo_of_ne hne).ends hc hs,
      fun m hne hs => (reconcile_runsTo_spiWrite hne).ends hc hs, fun m hs => reconcile_runsTo_spiRead.ends hc hs⟩

/-! ### The frames of ProgrammingTxQueue -/

/-- The first modify of C1TXQCON, with retransmission and priority, and the second, with depth and payload. -/
abbrev modifyTxq (p : Params) (q : TxqSettings) : Op TransportError Unit := modifySfr .txQueueControl (txqTransform p q)
abbrev modifyTxqSize (p : Params) (q : TxqSettings) : Op TransportError Unit :=
  modifySfr .txQueueControl (txqSizeTransform p q)

theorem Op.bind_assoc {ε α β γ : Type} (m : Op ε α) (k : α → Op ε β) (l : β → Op ε γ) (s : State) :
    Op.bind (Op.bind m k) l s = Op.bind m (fun a => Op.bind (k a) l) s := by
  rcases h : m s with ⟨a | e, t⟩
  · rw [Op.bind_ok h, Op.bind, Op.bind_ok h, Op.bind]
  · rw [Op.bind_err h, Op.bind_err (Op.bind_err h)]

section

variable {settings : Settings} {s : State}

/-- A queue of size 0 is modified once. -/
theorem txQueueFrames_of_zero {q : TxqSettings} (h : q.size = 0) :
    txQueueFrames q s = Op.bind (modifyTxq s.cfg q) (fun _ => reconcile false) s := by
  simp only [txQueueFrames, h]
  rfl

/-- A queue that is used is modified twice. -/
theorem txQueueFrames_of_ne_zero {q : TxqSettings} (h : q.size ≠ 0) :
    txQueueFrames q s =
      Op.bind (Op.bind (modifyTxq s.cfg q) fun _ => modifyTxqSize s.cfg q) (fun _ => reconcile true) s := by
  rw [Op.bind_assoc]
  simp only [txQueueFrames, if_pos h, decide_eq_true h]

variable {frames : Op TransportError Unit} {script rest : List Answer} {evs : List Event}
  (hframes : txQueueFrames settings.txq s = frames s) (hc : s.cs = .inactive) (hs : s.script = script)

include hframes hc hs

/-- ProgrammingTxQueue ends as its frames do. -/
theorem programTxQueue_configured (h : RunsTo s.cfg script frames (.ok ()) evs rest) :
    ∃ t, seqTransition settings .programmingTxQueue s = (.configured, t) ∧ t.trace = s.trace ++ evs := by
  obtain ⟨t, ht, htrace⟩ := h.ends hc hs
  exact ⟨t, congrArg (nextPhase .configured) (hframes.trans ht), htrace⟩

theorem programTxQueue_failed {e : TransportError} (h : RunsTo s.cfg script frames (.err e) evs rest) :
    ∃ t, seqTransition settings .programmingTxQueue s = (.failed (.other e), t) ∧ t.trace = s.trace ++ evs := by
  obtain ⟨t, ht, htrace⟩ := h.ends hc hs
  exact ⟨t, congrArg (nextPhase .configured) (hframes.trans ht), htrace⟩

end

/-- Settles O58: the fields of the one modify, and each place where its frames or the reconcile's can fail. -/
theorem zeroSizeQueueProgramsNoDepth : Obligations.ZeroSizeQueueProgramsNoDepth := by
  intro settings s q c rest hc hsize hlay queue txq con rd wr reads want ends
  have hagree := txqTransform_agrees (p := s.cfg) queue ⟨q⟩
  have hframes := txQueueFrames_of_zero (s := s) hsize
  refine ⟨(txqTransform s.cfg queue ⟨q⟩).bits, getTxqTxat_txqTransform queue _ hlay,
    get_TXPRI_txqTransform queue _ hlay, hagree, fun f hf => hagree.get_eq hlay hf, fun m hs => ?read, fun m hs => ?write, ?_⟩
  case read => exact programTxQueue_failed hframes hc hs (modifySfr_runsTo_spiRead .txQueueControl _).bind_err
  case write => exact programTxQueue_failed hframes hc hs (modifySfr_runsTo_spiWrite .txQueueControl _ q).bind_err
  intro modify
  have modified : ∀ {x : List Byte} {tail : List Answer},
      RunsTo s.cfg (.ok (reads q) :: .ok x :: tail) (modifyTxq s.cfg queue) (.ok ()) modify tail :=
    modifySfr_runsTo_ok .txQueueControl _ q
  refine ⟨fun x m hs => ?conRead, fun x heq hs => ?agree, fun x y hne hs => ?correct, fun x m hne hs => ?conWrite⟩
  case conRead => exact programTxQueue_failed hframes hc hs (modified.bind reconcile_runsTo_spiRead)
  case agree => exact programTxQueue_configured hframes hc hs (modified.bind (reconcile_runsTo_of_eq heq))
  case correct => exact programTxQueue_configured hframes hc hs (modified.bind_append (reconcile_runsTo_of_ne hne))
  case conWrite => exact programTxQueue_failed hframes hc hs (modified.bind_append (reconcile_runsTo_spiWrite hne))

/-- Settles O59: the fields of the two modifies, and each place where their frames or the reconcile's can fail. -/
theorem sizedQueueProgramsDepthAndPayload : Obligations.SizedQueueProgramsDepthAndPayload := by
  intro settings s q q' c rest hc hsize hlay queue txq con rd wr reads want ends
  have hagree := txqTransform_agrees (p := s.cfg) queue ⟨q⟩
  have hagree' := txqSizeTransform_agrees (p := s.cfg) queue ⟨q'⟩
  have hframes := txQueueFrames_of_ne_zero (s := s) hsize
  refine ⟨(txqTransform s.cfg queue ⟨q⟩).bits, (txqSizeTransform s.cfg queue ⟨q'⟩).bits,
    getTxqTxat_txqTransform queue _ hlay, get_TXPRI_txqTransform queue _ hlay, hagree, fun f hf => hagree.get_eq hlay hf,
    txqFifoSize_txqSizeTransform queue _ hlay hsize, get_PLSIZE_txqSizeTransform queue _ hlay hsize, hagree',
    fun f hf => hagree'.get_eq hlay hf, fun m hs => ?read, fun m hs => ?write, ?_⟩
  case read => exact programTxQueue_failed hframes hc hs (modifySfr_runsTo_spiRead .txQueueControl _).bind_err.bind_err
  case write => exact programTxQueue_failed hframes hc hs (modifySfr_runsTo_spiWrite .txQueueControl _ q).bind_err.bind_err
  intro modify
  have modified : ∀ {x : List Byte} {tail : List Answer},
      RunsTo s.cfg (.ok (reads q) :: .ok x :: tail) (modifyTxq s.cfg queue) (.ok ()) modify tail :=
    modifySfr_runsTo_ok .txQueueControl _ q
  refine ⟨fun x m hs => ?sizeRead, fun x m hs => ?sizeWrite, ?_⟩
  case sizeRead =>
    exact programTxQueue_failed hframes hc hs (modified.bind (modifySfr_runsTo_spiRead .txQueueControl _)).bind_err
  case sizeWrite =>
    exact programTxQueue_failed hframes hc hs
      (modified.bind_append (modifySfr_runsTo_spiWrite .txQueueControl _ q')).bind_err
  intro both
  have sized : ∀ {x x' : List Byte} {tail : List Answer},
      RunsTo s.cfg (.ok (reads q) :: .ok x :: .ok (reads q') :: .ok x' :: tail)
        (Op.bind (modifyTxq s.cfg queue) fun _ => modifyTxqSize s.cfg queue) (.ok ()) both tail :=
    modified.bind_append (modifySfr_runsTo_ok .txQueueControl _ q')
  refine ⟨fun x x' m hs => ?conRead, fun x x' heq hs => ?agree, fun x x' y hne hs => ?correct, fun x x' m hne hs => ?conWrite⟩
  case conRead => exact programTxQueue_failed hframes hc hs (sized.bind reconcile_runsTo_spiRead)
  case agree => exact programTxQueue_configured hframes hc hs (sized.bind (reconcile_runsTo_of_eq heq))
  case correct => exact programTxQueue_configured hframes hc hs (sized.bind_append (reconcile_runsTo_of_ne hne))
  case conWrite => exact programTxQueue_failed hframes hc hs (sized.bind_append (reconcile_runsTo_spiWrite hne))

end Sys2Proof.Machine
end

section
/-! PROOFS. `configure()` begins at Unconfigured and returns (spec/47_host_sequencer.md R302, R303): each transition lowers a bound on
the steps to come. -/

namespace Sys2Proof.Machine

open Sys2Proof

/-! ### The call -/

theorem settable_configure_eq_true_iff {p : Params} {settings : Settings} :
    Call.settable p (.configure settings) = true ↔
      settings.txq.size = 0 ∨ PayloadSize.settable p settings.txq.payload = true := by simp [Call.settable]

theorem runCall_configure_of_settable {s : State} {settings : Settings} (ho : s.owned = true)
    (hset : Call.settable s.cfg (.configure settings) = true) :
    runCall (.configure settings) s = .next { s with seq := some ⟨settings, .unconfigured⟩ } :=
  runCall_of_owned ho nofun hset rfl

theorem runCall_configure_of_not_settable {s : State} {settings : Settings} (ho : s.owned = true)
    (hset : ¬ Call.settable s.cfg (.configure settings) = true) : runCall (.configure settings) s = .refused .notSettable :=
  runCall_of_refusal (by simp only [callRefusal, ho, if_true, if_neg hset])

/-! ### The steps that remain -/

/-- At most so many steps remain from a phase until the result is returned: one a poll, one a bit of the echo, and the last one
returns (log 20). -/
def SeqPhase.stepsLeft : SeqPhase → Nat
  | .unconfigured => 46
  | .requestingConfigMode => 45
  | .awaitingConfigMode attempt => 40 + (configPollAttempts - attempt)
  | .verifyingComms bit => 8 + (31 - bit)
  | .programmingOscillator => 7
  | .awaitingPll attempt => 4 + (pllPollAttempts - attempt)
  | .programmingIo => 3
  | .programmingTxQueue => 2
  | .configured => 1
  | .failed _ => 1

/-- A phase of one operation goes on or fails. -/
theorem stepsLeft_nextPhase_le {α : Type} {next : SeqPhase} (h : 1 ≤ next.stepsLeft) (x : Result TransportError α × State) :
    (nextPhase next x).1.stepsLeft ≤ next.stepsLeft := by
  obtain ⟨_ | _, t⟩ := x
  · exact le_rfl
  · exact h

theorem stepsLeft_pollConfigMode_lt (attempt : Nat) (s : State) :
    (pollConfigMode attempt s).1.stepsLeft < (SeqPhase.awaitingConfigMode attempt).stepsLeft := by
  unfold pollConfigMode
  dsimp only
  split_ifs <;> simp only [SeqPhase.stepsLeft] <;> omega

theorem stepsLeft_pollPll_lt (attempt : Nat) (s : State) :
    (pollPll attempt s).1.stepsLeft < (SeqPhase.awaitingPll attempt).stepsLeft := by
  unfold pollPll
  dsimp only
  split_ifs <;> simp only [SeqPhase.stepsLeft] <;> omega

theorem stepsLeft_verifyBit_lt (bit : Nat) (s : State) :
    (verifyBit bit s).1.stepsLeft < (SeqPhase.verifyingComms bit).stepsLeft := by
  have hfailed : ∀ e, (SeqPhase.failed e).stepsLeft < (SeqPhase.verifyingComms bit).stepsLeft := fun e => by
    simp only [SeqPhase.stepsLeft]; omega
  rcases hw : writeRam echoAddr (echoPattern s.cfg bit) s with ⟨_ | e, t⟩
  case err => rw [verifyBit_of_failed_write hw]; exact hfailed _
  rcases hr : readRam echoAddr [0, 0, 0, 0] t with ⟨⟨_ | e, buf⟩, u⟩
  case err => rw [verifyBit_of_failed_read hw hr]; exact hfailed _
  rw [verifyBit_of_echo hw hr]
  dsimp only
  split_ifs <;> simp only [SeqPhase.stepsLeft] <;> omega

/-- Every transition out of a phase that is not terminal leaves fewer steps (R303). -/
theorem stepsLeft_seqTransition_lt (settings : Settings) {phase : SeqPhase} (h : phase.terminal = false) (s : State) :
    (seqTransition settings phase s).1.stepsLeft < phase.stepsLeft := by
  cases phase with
  | unconfigured => exact Nat.lt_succ_self _
  | requestingConfigMode => exact Nat.lt_succ_of_le (stepsLeft_nextPhase_le (next := .awaitingConfigMode 1) (by decide) _)
  | awaitingConfigMode attempt => exact stepsLeft_pollConfigMode_lt attempt s
  | verifyingComms bit => exact stepsLeft_verifyBit_lt bit s
  | programmingOscillator =>
    refine (stepsLeft_nextPhase_le (next := if settings.osc.pllEnable then .awaitingPll 1 else .programmingIo) ?_ _).trans_lt ?_
    all_goals cases settings.osc.pllEnable <;> decide
  | awaitingPll attempt => exact stepsLeft_pollPll_lt attempt s
  | programmingIo => exact Nat.lt_succ_of_le (stepsLeft_nextPhase_le (next := .programmingTxQueue) (by decide) _)
  | programmingTxQueue => exact Nat.lt_succ_of_le (stepsLeft_nextPhase_le (next := .configured) (by decide) _)
  | configured | failed => cases h

/-! ### The run -/

theorem run_succ_of_next {M : Host.Core} {s t : M.State} (h : M.step s = .next t) (k : Nat) :
    M.run (k + 1) s = M.run k t := by rw [Host.Core.run, h]

/-- What `configure()` leaves when it has returned to the host that called it in `s`. -/
structure Returned (s t : State) : Prop where
  seq : t.seq = none
  owned : t.owned = true
  requests : t.requests = s.requests
  reply : ∃ r, t.replies = s.replies ++ [.done r] ∧ (r = .ok .unit ∨ ∃ e : ConfigError, r = .err e.toError)

/-- From a terminal phase one step returns. -/
theorem step_of_terminal {s : State} {run : SeqRun} (hs : s.seq = some run) (ho : s.owned = true)
    (h : run.phase.terminal = true) : ∃ t, step s = .next t ∧ Returned s t := by
  have returns : ∀ r, terminalReply run.phase = some (.done r) → (r = .ok .unit ∨ ∃ e : ConfigError, r = .err e.toError) →
      ∃ t, step s = .next t ∧ Returned s t := fun r hr hcase =>
    ⟨_, (step_of_seq_owned hs ho).trans (congrArg _ (seqNext_of_terminalReply hr s)), rfl, ho, rfl, r, rfl, hcase⟩
  cases hph : run.phase with
  | configured => exact returns _ (by rw [hph]; rfl) (.inl rfl)
  | failed e => exact returns _ (by rw [hph]; rfl) (.inr ⟨e, rfl⟩)
  | _ => rw [hph] at h; cases h

/-- From any phase `configure()` returns within the steps that remain. -/
theorem run_returns (settings : Settings) (n : Nat) : ∀ {s : State} {phase : SeqPhase}, s.owned = true →
    s.seq = some ⟨settings, phase⟩ → phase.stepsLeft ≤ n →
    ∃ k, k ≤ n ∧ ∃ t, Host.Core.run Sys2Proof.core k s = .next t ∧ Returned s t := by
  induction n with
  | zero => intro s phase _ _ hn; cases phase <;> simp [SeqPhase.stepsLeft] at hn
  | succ n ih =>
    intro s phase ho hs hn
    cases hterm : phase.terminal with
    | true =>
      obtain ⟨t, ht, hret⟩ := step_of_terminal hs ho hterm
      exact ⟨1, by omega, t, run_succ_of_next (M := Sys2Proof.core) ht 0, hret⟩
    | false =>
      rcases hnext : seqTransition settings phase s with ⟨phase', u⟩
      have hlt : phase'.stepsLeft < phase.stepsLeft := by
        simpa only [hnext] using stepsLeft_seqTransition_lt settings hterm s
      have host : SameHost s u := by simpa only [hnext] using (seqTransition_quiet settings phase s).host
      have hstep : step s = .next { u with seq := some ⟨settings, phase'⟩ } := by
        rw [step_of_seq_owned hs ho, seqNext_of_not_terminal hterm hnext]
      obtain ⟨k, hk, t, ht, hret⟩ :=
        ih (s := { u with seq := some ⟨settings, phase'⟩ }) (host.owned.trans ho) rfl (by omega)
      exact ⟨k + 1, by omega, t, (run_succ_of_next (M := Sys2Proof.core) hstep k).trans ht, hret.seq, hret.owned,
        hret.requests.trans host.requests, host.replies ▸ hret.reply⟩

/-- Settles O60: 46 steps remain from Unconfigured. -/
theorem configureAlwaysReturns : Obligations.ConfigureAlwaysReturns := by
  refine ⟨fun s settings ho => ⟨fun hset => ?accepted, fun hsize hset => ?refused⟩, fun s settings ho hs => ?returns⟩
  case accepted => exact runCall_configure_of_settable ho (settable_configure_eq_true_iff.2 hset)
  case refused =>
    exact runCall_configure_of_not_settable ho fun h => by simpa [hsize, hset] using settable_configure_eq_true_iff.1 h
  case returns =>
    obtain ⟨k, hk, t, ht, hret⟩ := run_returns settings 46 ho hs le_rfl
    exact ⟨k, hk, t, ht, hret.seq, hret.owned, hret.requests, hret.reply⟩

end Sys2Proof.Machine
end

section
/-! PROOFS. What an error leaves (spec/60_exceptions.md R330 to R336): each operation raises the errors of its row of R331, a validation
error before anything else has happened. -/

namespace Sys2Proof.Machine

open Sys2Proof

/-! ### Error codes (R330) -/

theorem TransportError.code_mem {codes : List Nat} (hread : 1 ∈ codes) (hwrite : 2 ∈ codes) (e : TransportError) :
    e.toError.code ∈ codes := by
  cases e with
  | spiRead => exact hread
  | spiWrite => exact hwrite

/-- A transport error is no validation error. -/
theorem TransportError.code_not_mem_validation (e : TransportError) : e.toError.code ∉ [3, 4, 9] := by cases e <;> decide

theorem ConfigError.code_mem (e : ConfigError) : e.toError.code ∈ [5, 6, 7, 8] := by
  cases e <;> simp [ConfigError.toError, Error.code]

/-! ### What an operation raises -/

/-- An operation that ends in `u` may raise `e`: the error is of the row `codes`, and a validation error (codes 3, 4, 9), which comes
before any event (R178), leaves the state `s`. -/
structure Raises (codes : List Nat) (s u : State) (e : Error) : Prop where
  code : e.code ∈ codes
  unchanged : e.code ∈ [3, 4, 9] → u = s

theorem Raises.of_unchanged {codes : List Nat} {e : Error} (h : e.code ∈ codes) (s : State) : Raises codes s s e := ⟨h, fun _ => rfl⟩

theorem Raises.of_transport {codes : List Nat} {e : TransportError} (h : e.toError.code ∈ codes) (s u : State) :
    Raises codes s u e.toError := ⟨h, fun hv => absurd hv e.code_not_mem_validation⟩

/-- The one error of a read frame, and of a write frame (R140, R141). -/
theorem readRegAt_err {a : Addr} {s u : State} {e : TransportError} (h : readRegAt a s = (.err e, u)) : e = .spiRead := by
  rcases readRegAt_spec a s with ⟨_, _, _, _, he, _⟩ | ⟨_, _, _, he, _⟩ <;> cases he.symm.trans h
  rfl

theorem frameWrite_err {op : Opcode} {a : Addr} {p : List Byte} {s u : State} {e : TransportError}
    (h : frameWrite op a p s = (.err e, u)) : e = .spiWrite := by
  rcases frameWrite_spec op a p s with ⟨_, _, _, he, _⟩ | ⟨_, _, _, he, _⟩ <;> cases he.symm.trans h
  rfl

/-! ### What a call returns -/

/-- If the one reply that `t` has more than `s` is an error, it is of the row `codes`, and a validation error leaves `s` with that reply
and nothing else. -/
def ErrorsWithin (codes : List Nat) (s t : State) : Prop :=
  ∀ (r : Reply) (e : Error), t.replies = s.replies ++ [r] → r.error = some e → Raises codes (s.reply r) t e

section
variable {codes : List Nat} {s : State} {α : Type}

theorem ErrorsWithin.of_reply {u : State} {r : Reply} (h : ∀ e, r.error = some e → Raises codes s u e) :
    ErrorsWithin codes s (u.reply r) := by
  intro r' e hr he
  obtain rfl : r = r' := by simpa using (List.append_inj' hr rfl).2
  obtain ⟨hcode, hunchanged⟩ := h e he
  exact ⟨hcode, fun hv => congrArg (State.reply r) (hunchanged hv)⟩

theorem ErrorsWithin.of_error {u : State} {e : Error} (h : Raises codes s u e) :
    ErrorsWithin codes s (u.reply (.done (.err e))) :=
  .of_reply fun _ he => Option.some.inj he ▸ h

/-- An operation whose only errors are those of the transport. -/
theorem ErrorsWithin.of_transport {m : Op TransportError α} (h : ∀ e u, m s = (.err e, u) → e.toError.code ∈ codes)
    (f : α → Value) : ErrorsWithin codes s (Op.finish m f TransportError.toError s) := by
  rcases hm : m s with ⟨a | e, u⟩
  · rw [Op.finish_ok hm]; exact .of_reply nofun
  · rw [Op.finish_err hm]; exact .of_error (.of_transport (h e u hm) s u)

/-- A FIFO accessor fails its index check (R169, code 3), or accesses the register with no error but the transport's. -/
theorem ErrorsWithin.of_fifo {β : Type} (hindex : 3 ∈ codes) {m : Addr → Op TransportError α}
    (h : ∀ a e u, m a s = (.err e, u) → e.toError.code ∈ codes) (k : FifoReg) (n : Nat) (f : α → β) (v : β → Value) :
    ErrorsWithin codes s
      (Op.finish (Op.bind (fifoAddress k n) fun a => Op.map f TransportError.toError (m a)) v id s) := by
  by_cases hn : 1 ≤ n ∧ n ≤ 31
  · rw [Op.finish_congr (Op.bind_ok (fifoAddress_in k n s hn)), Op.finish_map]
    exact .of_transport (h _) _
  · rw [Op.finish_err (Op.bind_err (fifoAddress_out k n s hn))]
    exact .of_error (.of_unchanged hindex s)

/-- A transform written as data that fails its check returns code 9 (R213, log 18). -/
theorem ErrorsWithin.of_checkUpdates {T : RegType} {us : List (Update T)} {e : Error} (hsize : 9 ∈ codes)
    (hcheck : checkUpdates s.cfg us = some e) : ErrorsWithin codes s (s.reply (.done (.err e))) := by
  obtain rfl := checkUpdates_err hcheck
  exact .of_error (.of_unchanged hsize s)

end

theorem callReadRam_errorsWithin (addr : Nat) (buf : List Byte) (s : State) : ErrorsWithin [4, 1] s (callReadRam addr buf s) := by
  cases hok : ramOk s.cfg addr buf.length with
  | false =>
    rw [callReadRam, readRam_out hok]
    exact .of_reply fun _ he => Option.some.inj he ▸ .of_unchanged (by simp [Error.code]) s
  | true =>
    rcases readRam_in hok with ⟨_, u, _, _, he, _⟩ | ⟨_, _, u, _, _, he, _⟩ <;> rw [callReadRam, he]
    · exact .of_reply nofun
    · exact .of_reply fun _ he => Option.some.inj he ▸ .of_transport (e := .spiRead) (by decide) s u

theorem finish_writeRam_errorsWithin (addr : Nat) (bytes : List Byte) (s : State) :
    ErrorsWithin [4, 2] s (Op.finish (writeRam addr bytes) (fun _ => .unit) id s) := by
  cases hok : ramOk s.cfg addr bytes.length with
  | false =>
    rw [Op.finish_err (writeRam_out hok)]
    exact .of_error (.of_unchanged (by simp [Error.code]) s)
  | true =>
    rw [Op.finish_congr (if_pos hok), Op.finish_map]
    exact .of_transport (fun e u he => by cases frameWrite_err he; decide) _

theorem finish_fifoAddress_errorsWithin (k : FifoReg) (n : Nat) (s : State) :
    ErrorsWithin [3] s (Op.finish (fifoAddress k n) Value.addr id s) := by
  by_cases hn : 1 ≤ n ∧ n ≤ 31
  · rw [Op.finish_ok (fifoAddress_in k n s hn)]; exact .of_reply nofun
  · rw [Op.finish_err (fifoAddress_out k n s hn)]; exact .of_error (.of_unchanged (by simp [Error.code]) s)

theorem callModifySfr_errorsWithin (q : FixedReg) (us : List (Update q.reg)) (s : State) :
    ErrorsWithin [1, 2, 9] s (callModifySfr q us s) := by
  unfold callModifySfr
  split
  · exact .of_checkUpdates (by decide) ‹_›
  · exact .of_transport (fun e _ _ => e.code_mem (by decide) (by decide)) _

theorem callModifyFifo_errorsWithin (k : FifoReg) (n : Nat) (us : List (Update k.reg)) (s : State) :
    ErrorsWithin [3, 1, 2, 9] s (callModifyFifo k n us s) := by
  unfold callModifyFifo
  split
  · exact .of_checkUpdates (by decide) ‹_›
  · exact .of_fifo (by decide) (fun _ e _ _ => e.code_mem (by decide) (by decide)) k n id _

/-- Every call keeps to its row of R331. -/
theorem callNext_errorsWithin (c : Call) (s : State) : ErrorsWithin (callErrorCodes c) s (callNext c s) := by
  cases c with
  | new h => exact .of_reply nofun
  | free => exact .of_reply nofun
  | resetChip => exact .of_transport (codes := [2]) (fun e u he => by cases frameWrite_err he; decide) _
  | readSfr q => exact .of_transport (codes := [1]) (fun e u he => by cases readRegAt_err he; decide) _
  | writeSfr q v => exact .of_transport (codes := [2]) (fun e u he => by cases frameWrite_err he; decide) _
  | modifySfr q us => exact callModifySfr_errorsWithin q us s
  | readRam addr buf => exact callReadRam_errorsWithin addr buf s
  | writeRam addr bytes => exact finish_writeRam_errorsWithin addr bytes s
  | fifoAddress k n => exact finish_fifoAddress_errorsWithin k n s
  | readFifo k n => exact .of_fifo (codes := [3, 1]) (by decide) (fun a e u he => by cases readRegAt_err he; decide) k n _ _
  | modifyFifo k n us => exact callModifyFifo_errorsWithin k n us s
  | enableTef count => exact .of_transport (codes := [1, 2]) (fun e _ _ => e.code_mem (by decide) (by decide)) _
  | configure settings => exact fun r _ hr _ => absurd hr (by simp [callNext])

/-! ### What `configure()` returns -/

/-- An error that a `configure()` returns is the reason of its phase Failed (R302). -/
theorem terminalReply_error {phase : SeqPhase} {r : Reply} {e : Error} (h : terminalReply phase = some r)
    (he : r.error = some e) : ∃ reason : ConfigError, e = reason.toError := by
  cases phase with
  | configured => cases h; cases he
  | failed reason => cases h; cases he; exact ⟨reason, rfl⟩
  | _ => cases h

theorem seqNext_error {run : SeqRun} {s : State} {r : Reply} {e : Error} (hr : (seqNext run s).replies = s.replies ++ [r])
    (he : r.error = some e) : ∃ reason : ConfigError, e = reason.toError := by
  rcases seqNext_cases run s with ⟨r', hterm, hnext⟩ | ⟨_, u, _, _, hquiet, hnext⟩ <;> rw [hnext] at hr
  · obtain rfl : r' = r := by simpa using hr
    exact terminalReply_error hterm he
  · simp [hquiet.host.replies] at hr

/-- Settles O43: row by row, and by the phase that a `configure()` returns from. -/
theorem callsReturnOnlyTheirErrors : Obligations.CallsReturnOnlyTheirErrors := by
  refine ⟨fun c s t r e h hr he => ?call, fun run s t r e h hr he => ?configure⟩
  case call =>
    obtain ⟨-, rfl⟩ := runCall_next h
    exact (callNext_errorsWithin c s r e hr he).code
  case configure =>
    obtain ⟨-, rfl⟩ := withController_next.1 h
    obtain ⟨reason, rfl⟩ := seqNext_error hr he
    exact reason.code_mem

/-! ### What an error leaves -/

/-- A call that returns an error was no construction, and but for its reply it was quiet. -/
theorem callNext_quiet_of_error {c : Call} {s : State} {r : Reply} {e : Error}
    (hr : (callNext c s).replies = s.replies ++ [r]) (he : r.error = some e) :
    (∀ h, c ≠ .new h) ∧ ∃ u, Quiet s u ∧ callNext c s = u.reply r := by
  have hcode := (callNext_errorsWithin c s r e hr he).code
  have hnew : ∀ h, c ≠ .new h := by rintro h rfl; cases hcode
  have hfree : c ≠ .free := by rintro rfl; cases hcode
  have hconfigure : ∀ settings, c ≠ .configure settings := by rintro settings rfl; simp [callNext] at hr
  obtain ⟨u, r', hquiet, hu⟩ := callNext_quiet c s hnew hfree hconfigure
  obtain rfl : r' = r := by simpa [hu, hquiet.host.replies] using hr
  exact ⟨hnew, u, hquiet, hu⟩

/-- Settles O44: an error's call is quiet but for its reply, and a validation error's call has done nothing else. -/
theorem errorsLeaveTheControllerAsItWas : Obligations.ErrorsLeaveTheControllerAsItWas := by
  intro c s t r e hcs h hr he
  obtain ⟨haccepted, rfl⟩ := runCall_next h
  refine ⟨?kept, fun hv => (callNext_errorsWithin c s r e hr he).unchanged hv⟩
  obtain ⟨hnew, u, hquiet, hu⟩ := callNext_quiet_of_error hr he
  have host := hquiet.host
  rw [hu]
  exact ⟨host.owned, fun hf => host.owned.trans (owned_of_callRefusal haccepted hnew hf), hquiet.cs hcs, host.handles, host.cfg,
    host.others, host.requests, host.seq, host.env⟩

end Sys2Proof.Machine
end

section
/-! PROOFS. The state after reset and the chip-select protocol on every step (spec/70_reset_and_hazards.md R370, R374;
spec/40_spi_instructions.md R136, R138). -/

namespace Sys2Proof.Machine

open Sys2Proof

/-- Settles O1: each clause is a field of the reset state, and its trace's one event sends nothing. -/
theorem resetIsTheConstructedController : Obligations.ResetIsTheConstructedController :=
  ⟨rfl, rfl, rfl, rfl⟩

/-- Settles O29: a step leaves a Controller, constructs it, or appends whole frames to the trace of the one in use. -/
theorem stepKeepsWholeFrames : Obligations.StepKeepsWholeFrames := by
  intro s t hs h l hl
  rcases step_lines h hl with hkept | ⟨hcs, htrace⟩ | ⟨-, evs, htrace, happended, -⟩
  · exact hs l hkept
  · rw [htrace]
    exact ⟨hcs, wholeFrames_idle⟩
  · obtain ⟨hcs, hwhole⟩ : s.cs = .inactive ∧ WholeFrames s.trace := hs s.line List.mem_cons_self
    obtain ⟨hcs', hevs⟩ := happended hcs
    rw [htrace]
    exact ⟨hcs', hwhole.append hevs⟩

end Sys2Proof.Machine
end
